-- ==== Sys2Proof/Word.lean ====
section
/-! DEFINITION. The widths of the machine (00_scope.md R6, R8): 32-bit lanes and addresses, bytes,
and the four-lane value that a vector register holds. -/

namespace Sys2Proof

/-- A 32-bit word: a lane, an address, an operand word or the command word (R6, R9). -/
abbrev Word := BitVec 32

/-- A byte of memory (R29). -/
abbrev Byte := BitVec 8

/-- Four things of one kind, one for each lane 0 to 3 (R6: NLANES is 4, fixed). -/
structure Quad (α : Type) where
  l0 : α
  l1 : α
  l2 : α
  l3 : α
deriving DecidableEq, Repr

namespace Quad

variable {α β γ : Type}

/-- Lane `k`, written `V.k` in the spec (R8). -/
def lane (v : Quad α) (k : Fin 4) : α :=
  match k with
  | 0 => v.l0
  | 1 => v.l1
  | 2 => v.l2
  | 3 => v.l3

/-- The four lanes given as a function of the lane number: `for k in 0..3` of R10. -/
def ofFn (f : Fin 4 → α) : Quad α := ⟨f 0, f 1, f 2, f 3⟩

/-- The same value in every lane. -/
def splat (x : α) : Quad α := ⟨x, x, x, x⟩

/-- Replace lane `k` and keep the other three. -/
def setLane (v : Quad α) (k : Fin 4) (x : α) : Quad α :=
  match k with
  | 0 => { v with l0 := x }
  | 1 => { v with l1 := x }
  | 2 => { v with l2 := x }
  | 3 => { v with l3 := x }

/-- A lane-wise operation on one operand. -/
def map (f : α → β) (v : Quad α) : Quad β := ⟨f v.l0, f v.l1, f v.l2, f v.l3⟩

/-- A lane-wise operation on two operands. -/
def map₂ (f : α → β → γ) (v : Quad α) (w : Quad β) : Quad γ :=
  ⟨f v.l0 w.l0, f v.l1 w.l1, f v.l2 w.l2, f v.l3 w.l3⟩

/-- A lane-wise operation on three operands. -/
def map₃ {δ : Type} (f : α → β → γ → δ) (u : Quad α) (v : Quad β) (w : Quad γ) : Quad δ :=
  ⟨f u.l0 v.l0 w.l0, f u.l1 v.l1 w.l1, f u.l2 v.l2 w.l2, f u.l3 v.l3 w.l3⟩

/-- The lanes in order, lane 0 first. -/
def toList (v : Quad α) : List α := [v.l0, v.l1, v.l2, v.l3]

end Quad

/-- The value of a vector register: four 32-bit lanes. It has no type: the instruction decides
whether a lane is an integer, a float or a mask (R13). -/
abbrev Vec := Quad Word

/-- The 128-bit value of a vector, lane `k` in bits `32k+31 : 32k` (R8). -/
def Vec.bits (v : Vec) : BitVec 128 := v.l3 ++ v.l2 ++ v.l1 ++ v.l0

/-- One mark for each lane. -/
abbrev Marks := Quad Bool

/-- `w32(n)`: the 32-bit pattern of the integer `n` modulo 2^32 (R9). `s(x)` and `u(x)` of R9 are
`BitVec.toInt` and `BitVec.toNat`. -/
def w32 (n : Int) : Word := BitVec.ofInt 32 n

/-- `ALL1`, the lane of a mask where the predicate holds (R10). -/
def ALL1 : Word := 0xFFFFFFFF#32

/-- `ALL0`, the lane of a mask where the predicate does not hold (R10). -/
def ALL0 : Word := 0x00000000#32

end Sys2Proof
end

