-- ==== Sys2Proof/Config.lean ====
section
/-! DEFINITION. What the spec leaves open, as constants without a body: nothing can be proved of
their values, so a claim holds for every value. The definitions that use them keep the limits the
spec sets (canonNaN in Machine/Binary32.lean, the estimators in Machine/Estimator.lean). -/

namespace Sys2Proof.Config

/-- The free bits of `canonNaN` (44_float_arith.md R216, D25). `canonNaN` forces the bits that make
it a quiet NaN. Log 6. -/
opaque nanBits : BitVec 32

/-- What the reciprocal estimator would answer, before the limits of 45_float_newton.md R231 are
enforced (D28). Log 7. -/
opaque rcpRaw : BitVec 32 → BitVec 32

/-- What the reciprocal square root estimator would answer, before the limits of R232 are enforced
(D28). Log 7. -/
opaque rsqrtRaw : BitVec 32 → BitVec 32

/-- The byte at an address that neither the host nor a command has written (10_state.md R32: "its
content at the start of a run is whatever the host placed there"; U20). Log 4. -/
opaque hostByte : Nat → BitVec 8

/-- What a command reads in a lane that no command has written since reset, for the number of inputs the
machine has taken, the operand's position in the command and the lane (10_state.md R33: the read
"returns whatever the storage holds, and two reads need not agree"; U13). Log 3. -/
opaque unwrittenLane : Nat → Nat → Nat → BitVec 32

/-- What the status port shows of `CF` before the first VANY or VALL (R33). Log 2. -/
opaque unwrittenCF : Nat → Bool

/-- What the status port shows of `XR` before the first LGET (R33). Log 2. -/
opaque unwrittenXR : Nat → BitVec 32

/-- Which of the writes of one command that cover a byte is the one that stays, for the number of inputs
the machine has taken and an address (20_memory.md R67). It is reduced modulo the number of covering
writes. Log 5. -/
opaque writePick : Nat → Nat → Nat

end Sys2Proof.Config
end

