-- ==== Sys2Proof/Syntax.lean ====
section
/-! DEFINITION. The command set as syntax: the command beat (30_encoding.md R80) and one constructor
of `Instr` for each row of the opcode map (R86). Register fields keep the spec's names: `vd` a
destination, `va`, `vb`, `vc` sources (or registers updated in place), `vm` a mask or bit pattern,
`vt` and `vf` the sources of MERGE. The operand words an instruction uses (R85) are its last
arguments: a scalar `x`, an address, or the four pointers of the transposed family. -/

namespace Sys2Proof

/-- A vector register number, 0 to 15 (R81). -/
abbrev Reg := Fin 16

/-- One command beat: the command word and the four operand words (R80). -/
structure Beat where
  w : Word
  x : Quad Word
deriving DecidableEq, Repr

/-- What the host presents: a command beat on the command port, or the reset input
(10_state.md R34). -/
inductive HostInput where
  | beat (b : Beat)
  | reset
deriving DecidableEq, Repr

/-- The eight formats of the command word (R82). -/
inductive Format where
  | z | r1 | r2 | r3 | r4 | r1i | r2i2 | r2i8
deriving DecidableEq, Repr

/-- The instructions of 30_encoding.md R86, in the order of spec/opcode_table.json. -/
inductive Instr where
  -- 40_vector_base.md
  /-- VANY, R110. -/
  | vany (va : Reg)
  /-- VALL, R111. -/
  | vall (va : Reg)
  /-- VSPLAT, R112. -/
  | vsplat (vd va : Reg) (n : Fin 4)
  /-- VSHUF, R113. -/
  | vshuf (vd va : Reg) (sel : BitVec 8)
  /-- VSWAP, R115. -/
  | vswap (va vb : Reg)
  /-- VTRN, R116. -/
  | vtrn (va vb vc vd : Reg)
  /-- VMOV, R118. -/
  | vmov (vd va : Reg)
  /-- VSET, R119. -/
  | vset (vd : Reg) (x : Vec)
  /-- VBCAST, R120. -/
  | vbcast (vd : Reg) (x : Word)
  /-- LGET, R121. -/
  | lget (va : Reg) (n : Fin 4)
  /-- LSET, R122. -/
  | lset (vd : Reg) (n : Fin 4) (x : Word)
  -- 41_vector_memory.md
  /-- VLD, R131. -/
  | vld (vd : Reg) (addr : Word)
  /-- VST, R132. -/
  | vst (va : Reg) (addr : Word)
  /-- VSTS, R133. -/
  | vsts (va : Reg) (addr : Word)
  /-- MCOPY, R134. -/
  | mcopy (dst src : Word)
  /-- MSWAP, R135. -/
  | mswap (p q : Word)
  -- 47_float_memory_rmw.md
  /-- MINC, R270. -/
  | minc (va : Reg) (addr : Word)
  /-- MDEC, R271. -/
  | mdec (va : Reg) (addr : Word)
  /-- MSCALE, R272. -/
  | mscale (va : Reg) (addr : Word)
  -- 41_vector_memory.md
  /-- LD4X1TR, R137. -/
  | ld4x1tr (va : Reg) (ptrs : Quad Word)
  /-- LD4X2TR, R138. -/
  | ld4x2tr (va vb : Reg) (ptrs : Quad Word)
  /-- LD4X3TR, R139. -/
  | ld4x3tr (va vb vc : Reg) (ptrs : Quad Word)
  /-- LD4X4TR, R140. -/
  | ld4x4tr (va vb vc vd : Reg) (ptrs : Quad Word)
  /-- ST4X1TR, R141. -/
  | st4x1tr (va : Reg) (ptrs : Quad Word)
  /-- ST4X2TR, R142. -/
  | st4x2tr (va vb : Reg) (ptrs : Quad Word)
  /-- ST4X3TR, R143. -/
  | st4x3tr (va vb vc : Reg) (ptrs : Quad Word)
  /-- ST4X4TR, R144. -/
  | st4x4tr (va vb vc vd : Reg) (ptrs : Quad Word)
  -- 42_integer_arith.md
  /-- IADD, R161. -/
  | iadd (vd va vb : Reg)
  /-- ISUB, R162. -/
  | isub (vd va vb : Reg)
  /-- IMUL, R163. -/
  | imul (vd va vb : Reg)
  /-- IDIV, R164. -/
  | idiv (vd va vb : Reg)
  /-- IMOD, R165. -/
  | imod (vd va vb : Reg)
  /-- IAND, R166. -/
  | iand (vd va vb : Reg)
  /-- IOR, R167. -/
  | ior (vd va vb : Reg)
  /-- IXOR, R168. -/
  | ixor (vd va vb : Reg)
  /-- INOT, R169. -/
  | inot (vd va : Reg)
  /-- ISHL, R170. -/
  | ishl (vd va vb : Reg)
  /-- ISHR, R171. -/
  | ishr (vd va vb : Reg)
  /-- IABS, R172. -/
  | iabs (vd va : Reg)
  /-- IPREINC, R173. -/
  | ipreinc (vd va : Reg)
  /-- IPOSTINC, R174. -/
  | ipostinc (vd va : Reg)
  /-- IPREDEC, R175. -/
  | ipredec (vd va : Reg)
  /-- IPOSTDEC, R176. -/
  | ipostdec (vd va : Reg)
  -- 43_integer_compare_mask.md
  /-- ICLT, R191. -/
  | iclt (vd va vb : Reg)
  /-- ICGT, R192. -/
  | icgt (vd va vb : Reg)
  /-- ICEQ, R193. -/
  | iceq (vd va vb : Reg)
  /-- ICNE, R194. -/
  | icne (vd va vb : Reg)
  /-- ICLE, R195. -/
  | icle (vd va vb : Reg)
  /-- ICGE, R196. -/
  | icge (vd va vb : Reg)
  /-- ILAND, R197. -/
  | iland (vd va vb : Reg)
  /-- ILOR, R198. -/
  | ilor (vd va vb : Reg)
  /-- CZERO, R199. -/
  | czero (vd vm va : Reg)
  /-- NOTCZERO, R200. -/
  | notczero (vd vm va : Reg)
  /-- MERGE, R201. -/
  | merge (vd vm vt vf : Reg)
  -- 44_float_arith.md
  /-- FADD, R217. -/
  | fadd (vd va vb : Reg)
  /-- FSUB, R218. -/
  | fsub (vd va vb : Reg)
  /-- FMUL, R219. -/
  | fmul (vd va vb : Reg)
  -- 45_float_newton.md
  /-- FDIV, R239. -/
  | fdiv (vd va vb : Reg)
  /-- FRCPA, R235. -/
  | frcpa (vd va : Reg)
  /-- FRCP, R236. -/
  | frcp (vd va : Reg)
  /-- FRSQRTA, R237. -/
  | frsqrta (vd va : Reg)
  /-- FRSQRT, R238. -/
  | frsqrt (vd va : Reg)
  /-- FSQRT, R240. -/
  | fsqrt (vd va : Reg)
  -- 44_float_arith.md
  /-- FABS, R220. -/
  | fabs (vd va : Reg)
  /-- FCPSGN, R221. -/
  | fcpsgn (vd va vb : Reg)
  /-- FMA, R222. -/
  | fma (vd va vb vc : Reg)
  /-- FNMS, R223. -/
  | fnms (vd va vb vc : Reg)
  /-- FMS, R224. -/
  | fms (vd va vb vc : Reg)
  -- 46_float_compare_bits.md
  /-- FCLT, R251. -/
  | fclt (vd va vb : Reg)
  /-- FCGT, R252. -/
  | fcgt (vd va vb : Reg)
  /-- FCEQ, R253. -/
  | fceq (vd va vb : Reg)
  /-- FCNE, R254. -/
  | fcne (vd va vb : Reg)
  /-- FCLE, R255. -/
  | fcle (vd va vb : Reg)
  /-- FCGE, R256. -/
  | fcge (vd va vb : Reg)
  /-- FCLRB, R257. -/
  | fclrb (vd vm va : Reg)
  /-- FSETB, R258. -/
  | fsetb (vd vm va : Reg)
  /-- FTGLB, R259. -/
  | ftglb (vd vm va : Reg)
deriving DecidableEq, Repr

/-! The pseudo-instructions and their expansions (R91). -/

/-- `VZERO vd`. -/
def pseudoVzero (vd : Reg) : Instr := .vbcast vd 0x00000000

/-- `VONES vd`. -/
def pseudoVones (vd : Reg) : Instr := .vbcast vd 0xFFFFFFFF

/-- `IINC va`: increment in place. -/
def pseudoIinc (va : Reg) : Instr := .ipreinc va va

/-- `IDEC va`: decrement in place. -/
def pseudoIdec (va : Reg) : Instr := .ipredec va va

/-- `ISET vd` and `FSET vd` are the same instruction. -/
def pseudoSet (vd : Reg) (x : Vec) : Instr := .vset vd x

/-- `IBCAST vd` and `FBCAST vd` are the same instruction. -/
def pseudoBcast (vd : Reg) (x : Word) : Instr := .vbcast vd x

end Sys2Proof
end

