-- ==== Sys2Proof/WellFormed.lean ====
section
/-! DEFINITION. Which instruction terms the command set has. The types of `Instr` already bound every
register number, lane index and selector, so what is left is the table of reserved register
combinations (30_encoding.md R88). -/

namespace Sys2Proof

/-- The six instructions that write different values to several registers must name different
registers; every other combination is allowed (R88). -/
def Instr.wellFormed : Instr → Bool
  | .vtrn va vb vc vd => [va, vb, vc, vd].Nodup
  | .ld4x2tr va vb _ => [va, vb].Nodup
  | .ld4x3tr va vb vc _ => [va, vb, vc].Nodup
  | .ld4x4tr va vb vc vd _ => [va, vb, vc, vd].Nodup
  | .ipostinc vd va => [vd, va].Nodup
  | .ipostdec vd va => [vd, va].Nodup
  | .vany .. | .vall .. | .vsplat .. | .vshuf .. | .vswap .. | .vmov .. | .vset ..
  | .vbcast .. | .lget .. | .lset .. | .vld .. | .vst .. | .vsts .. | .mcopy .. | .mswap ..
  | .minc .. | .mdec .. | .mscale .. | .ld4x1tr .. | .st4x1tr .. | .st4x2tr .. | .st4x3tr ..
  | .st4x4tr .. | .iadd .. | .isub .. | .imul .. | .idiv .. | .imod .. | .iand .. | .ior ..
  | .ixor .. | .inot .. | .ishl .. | .ishr .. | .iabs .. | .ipreinc .. | .ipredec ..
  | .iclt .. | .icgt .. | .iceq .. | .icne .. | .icle .. | .icge .. | .iland .. | .ilor ..
  | .czero .. | .notczero .. | .merge .. | .fadd .. | .fsub .. | .fmul .. | .fdiv ..
  | .frcpa .. | .frcp .. | .frsqrta .. | .frsqrt .. | .fsqrt .. | .fabs .. | .fcpsgn ..
  | .fma .. | .fnms .. | .fms .. | .fclt .. | .fcgt .. | .fceq .. | .fcne .. | .fcle ..
  | .fcge .. | .fclrb .. | .fsetb .. | .ftglb .. => true

end Sys2Proof
end

