-- ==== Sys2Proof/Decode.lean ====
section
/-! DEFINITION. Decoding and encoding of the command beat, from 30_encoding.md R80 to R89. The
decoder is total and says by name why a word is not an instruction. Fields are read from the value of
the command word as `W / 2^lo % 2^width`, which is `W[hi:lo]` (00_scope.md R7). -/

namespace Sys2Proof

/-- Why a command word is not an instruction: the three cases of 60_exceptions.md R281. -/
inductive DecodeError where
  /-- (a) `OP` is unassigned (R87). -/
  | unassignedOpcode
  /-- (b) a bit the format reserves is 1 (R83). -/
  | reservedBit
  /-- (c) the register fields form a reserved combination (R88). -/
  | reservedRegisters
deriving DecidableEq, Repr

/-- The fields of a beat (R81) with its operand words (R85). -/
structure Fields where
  a : Reg
  b : Reg
  c : Reg
  d : Reg
  i : BitVec 8
  x : Quad Word
deriving DecidableEq, Repr

/-- `OP = W[31:24]` (R81). -/
def opcodeOf (w : Word) : Nat := w.toNat / 2 ^ 24

/-- The fields `A`, `B`, `C`, `D` and `I` of the command word, and the operand words (R81). -/
def fieldsOf (b : Beat) : Fields where
  a := Fin.ofNat 16 (b.w.toNat / 2 ^ 20)
  b := Fin.ofNat 16 (b.w.toNat / 2 ^ 16)
  c := Fin.ofNat 16 (b.w.toNat / 2 ^ 12)
  d := Fin.ofNat 16 (b.w.toNat / 2 ^ 8)
  i := BitVec.ofNat 8 b.w.toNat
  x := b.x

/-- The lane index `n = I[1:0]` (R84). -/
def Fields.laneIndex (f : Fields) : Fin 4 := Fin.ofNat 4 f.i.toNat

/-- Every bit the format reserves is 0 (R82, R83). -/
def reservedBitsZero (fmt : Format) (w : Word) : Bool :=
  match fmt with
  | .z => w.toNat % 2 ^ 24 == 0                -- 23:0
  | .r1 => w.toNat % 2 ^ 20 == 0               -- 19:0
  | .r2 => w.toNat % 2 ^ 16 == 0               -- 15:0
  | .r3 => w.toNat % 2 ^ 12 == 0               -- 11:0
  | .r4 => w.toNat % 2 ^ 8 == 0                -- 7:0
  | .r1i => w.toNat % 2 ^ 20 / 2 ^ 2 == 0      -- 19:2
  | .r2i2 => w.toNat % 2 ^ 16 / 2 ^ 2 == 0     -- 15:2
  | .r2i8 => w.toNat % 2 ^ 16 / 2 ^ 8 == 0     -- 15:8

/-- The opcode map (R86): for an assigned `OP`, its format and the instruction its fields make. -/
def opcodeRow (op : Nat) : Option (Format × (Fields → Instr)) :=
  match op with
  | 0x01 => some (.r1, fun f => .vany f.a)
  | 0x02 => some (.r1, fun f => .vall f.a)
  | 0x03 => some (.r2i2, fun f => .vsplat f.a f.b f.laneIndex)
  | 0x04 => some (.r2i8, fun f => .vshuf f.a f.b f.i)
  | 0x05 => some (.r2, fun f => .vswap f.a f.b)
  | 0x06 => some (.r4, fun f => .vtrn f.a f.b f.c f.d)
  | 0x07 => some (.r2, fun f => .vmov f.a f.b)
  | 0x08 => some (.r1, fun f => .vset f.a f.x)
  | 0x09 => some (.r1, fun f => .vbcast f.a f.x.l0)
  | 0x0A => some (.r1i, fun f => .lget f.a f.laneIndex)
  | 0x0B => some (.r1i, fun f => .lset f.a f.laneIndex f.x.l0)
  | 0x10 => some (.r1, fun f => .vld f.a f.x.l0)
  | 0x11 => some (.r1, fun f => .vst f.a f.x.l0)
  | 0x12 => some (.r1, fun f => .vsts f.a f.x.l0)
  | 0x13 => some (.z, fun f => .mcopy f.x.l0 f.x.l1)
  | 0x14 => some (.z, fun f => .mswap f.x.l0 f.x.l1)
  | 0x15 => some (.r1, fun f => .minc f.a f.x.l0)
  | 0x16 => some (.r1, fun f => .mdec f.a f.x.l0)
  | 0x17 => some (.r1, fun f => .mscale f.a f.x.l0)
  | 0x18 => some (.r1, fun f => .ld4x1tr f.a f.x)
  | 0x19 => some (.r2, fun f => .ld4x2tr f.a f.b f.x)
  | 0x1A => some (.r3, fun f => .ld4x3tr f.a f.b f.c f.x)
  | 0x1B => some (.r4, fun f => .ld4x4tr f.a f.b f.c f.d f.x)
  | 0x1C => some (.r1, fun f => .st4x1tr f.a f.x)
  | 0x1D => some (.r2, fun f => .st4x2tr f.a f.b f.x)
  | 0x1E => some (.r3, fun f => .st4x3tr f.a f.b f.c f.x)
  | 0x1F => some (.r4, fun f => .st4x4tr f.a f.b f.c f.d f.x)
  | 0x20 => some (.r3, fun f => .iadd f.a f.b f.c)
  | 0x21 => some (.r3, fun f => .isub f.a f.b f.c)
  | 0x22 => some (.r3, fun f => .imul f.a f.b f.c)
  | 0x23 => some (.r3, fun f => .idiv f.a f.b f.c)
  | 0x24 => some (.r3, fun f => .imod f.a f.b f.c)
  | 0x25 => some (.r3, fun f => .iand f.a f.b f.c)
  | 0x26 => some (.r3, fun f => .ior f.a f.b f.c)
  | 0x27 => some (.r3, fun f => .ixor f.a f.b f.c)
  | 0x28 => some (.r2, fun f => .inot f.a f.b)
  | 0x29 => some (.r3, fun f => .ishl f.a f.b f.c)
  | 0x2A => some (.r3, fun f => .ishr f.a f.b f.c)
  | 0x2B => some (.r2, fun f => .iabs f.a f.b)
  | 0x2C => some (.r2, fun f => .ipreinc f.a f.b)
  | 0x2D => some (.r2, fun f => .ipostinc f.a f.b)
  | 0x2E => some (.r2, fun f => .ipredec f.a f.b)
  | 0x2F => some (.r2, fun f => .ipostdec f.a f.b)
  | 0x30 => some (.r3, fun f => .iclt f.a f.b f.c)
  | 0x31 => some (.r3, fun f => .icgt f.a f.b f.c)
  | 0x32 => some (.r3, fun f => .iceq f.a f.b f.c)
  | 0x33 => some (.r3, fun f => .icne f.a f.b f.c)
  | 0x34 => some (.r3, fun f => .icle f.a f.b f.c)
  | 0x35 => some (.r3, fun f => .icge f.a f.b f.c)
  | 0x36 => some (.r3, fun f => .iland f.a f.b f.c)
  | 0x37 => some (.r3, fun f => .ilor f.a f.b f.c)
  | 0x38 => some (.r3, fun f => .czero f.a f.b f.c)
  | 0x39 => some (.r3, fun f => .notczero f.a f.b f.c)
  | 0x3A => some (.r4, fun f => .merge f.a f.b f.c f.d)
  | 0x40 => some (.r3, fun f => .fadd f.a f.b f.c)
  | 0x41 => some (.r3, fun f => .fsub f.a f.b f.c)
  | 0x42 => some (.r3, fun f => .fmul f.a f.b f.c)
  | 0x43 => some (.r3, fun f => .fdiv f.a f.b f.c)
  | 0x44 => some (.r2, fun f => .frcpa f.a f.b)
  | 0x45 => some (.r2, fun f => .frcp f.a f.b)
  | 0x46 => some (.r2, fun f => .frsqrta f.a f.b)
  | 0x47 => some (.r2, fun f => .frsqrt f.a f.b)
  | 0x48 => some (.r2, fun f => .fsqrt f.a f.b)
  | 0x49 => some (.r2, fun f => .fabs f.a f.b)
  | 0x4A => some (.r3, fun f => .fcpsgn f.a f.b f.c)
  | 0x4B => some (.r4, fun f => .fma f.a f.b f.c f.d)
  | 0x4C => some (.r4, fun f => .fnms f.a f.b f.c f.d)
  | 0x4D => some (.r4, fun f => .fms f.a f.b f.c f.d)
  | 0x50 => some (.r3, fun f => .fclt f.a f.b f.c)
  | 0x51 => some (.r3, fun f => .fcgt f.a f.b f.c)
  | 0x52 => some (.r3, fun f => .fceq f.a f.b f.c)
  | 0x53 => some (.r3, fun f => .fcne f.a f.b f.c)
  | 0x54 => some (.r3, fun f => .fcle f.a f.b f.c)
  | 0x55 => some (.r3, fun f => .fcge f.a f.b f.c)
  | 0x58 => some (.r3, fun f => .fclrb f.a f.b f.c)
  | 0x59 => some (.r3, fun f => .fsetb f.a f.b f.c)
  | 0x5A => some (.r3, fun f => .ftglb f.a f.b f.c)
  | _ => none

/-- The decode procedure, its three checks in the order of R89. -/
def decode (b : Beat) : Except DecodeError Instr :=
  match opcodeRow (opcodeOf b.w) with
  | none => .error .unassignedOpcode
  | some (fmt, make) =>
    if reservedBitsZero fmt b.w then
      if (make (fieldsOf b)).wellFormed then .ok (make (fieldsOf b))
      else .error .reservedRegisters
    else .error .reservedBit

/-- The command word alone decides whether a beat is an instruction (60_exceptions.md R281). -/
def legalWord (w : Word) : Bool := (decode ⟨w, .splat 0⟩).toBool

/-- The `OP` of an instruction (R86). -/
def Instr.opcode : Instr → Nat
  | .vany .. => 0x01
  | .vall .. => 0x02
  | .vsplat .. => 0x03
  | .vshuf .. => 0x04
  | .vswap .. => 0x05
  | .vtrn .. => 0x06
  | .vmov .. => 0x07
  | .vset .. => 0x08
  | .vbcast .. => 0x09
  | .lget .. => 0x0A
  | .lset .. => 0x0B
  | .vld .. => 0x10
  | .vst .. => 0x11
  | .vsts .. => 0x12
  | .mcopy .. => 0x13
  | .mswap .. => 0x14
  | .minc .. => 0x15
  | .mdec .. => 0x16
  | .mscale .. => 0x17
  | .ld4x1tr .. => 0x18
  | .ld4x2tr .. => 0x19
  | .ld4x3tr .. => 0x1A
  | .ld4x4tr .. => 0x1B
  | .st4x1tr .. => 0x1C
  | .st4x2tr .. => 0x1D
  | .st4x3tr .. => 0x1E
  | .st4x4tr .. => 0x1F
  | .iadd .. => 0x20
  | .isub .. => 0x21
  | .imul .. => 0x22
  | .idiv .. => 0x23
  | .imod .. => 0x24
  | .iand .. => 0x25
  | .ior .. => 0x26
  | .ixor .. => 0x27
  | .inot .. => 0x28
  | .ishl .. => 0x29
  | .ishr .. => 0x2A
  | .iabs .. => 0x2B
  | .ipreinc .. => 0x2C
  | .ipostinc .. => 0x2D
  | .ipredec .. => 0x2E
  | .ipostdec .. => 0x2F
  | .iclt .. => 0x30
  | .icgt .. => 0x31
  | .iceq .. => 0x32
  | .icne .. => 0x33
  | .icle .. => 0x34
  | .icge .. => 0x35
  | .iland .. => 0x36
  | .ilor .. => 0x37
  | .czero .. => 0x38
  | .notczero .. => 0x39
  | .merge .. => 0x3A
  | .fadd .. => 0x40
  | .fsub .. => 0x41
  | .fmul .. => 0x42
  | .fdiv .. => 0x43
  | .frcpa .. => 0x44
  | .frcp .. => 0x45
  | .frsqrta .. => 0x46
  | .frsqrt .. => 0x47
  | .fsqrt .. => 0x48
  | .fabs .. => 0x49
  | .fcpsgn .. => 0x4A
  | .fma .. => 0x4B
  | .fnms .. => 0x4C
  | .fms .. => 0x4D
  | .fclt .. => 0x50
  | .fcgt .. => 0x51
  | .fceq .. => 0x52
  | .fcne .. => 0x53
  | .fcle .. => 0x54
  | .fcge .. => 0x55
  | .fclrb .. => 0x58
  | .fsetb .. => 0x59
  | .ftglb .. => 0x5A

/-- The format of an instruction (R86). -/
def Instr.format : Instr → Format
  | .vany .. | .vall .. | .vset .. | .vbcast .. | .vld .. | .vst .. | .vsts .. | .minc ..
  | .mdec .. | .mscale .. | .ld4x1tr .. | .st4x1tr .. => .r1
  | .vsplat .. => .r2i2
  | .vshuf .. => .r2i8
  | .vswap .. | .vmov .. | .ld4x2tr .. | .st4x2tr .. | .inot .. | .iabs .. | .ipreinc ..
  | .ipostinc .. | .ipredec .. | .ipostdec .. | .frcpa .. | .frcp .. | .frsqrta ..
  | .frsqrt .. | .fsqrt .. | .fabs .. => .r2
  | .vtrn .. | .ld4x4tr .. | .st4x4tr .. | .merge .. | .fma .. | .fnms .. | .fms .. => .r4
  | .lget .. | .lset .. => .r1i
  | .mcopy .. | .mswap .. => .z
  | .ld4x3tr .. | .st4x3tr .. | .iadd .. | .isub .. | .imul .. | .idiv .. | .imod ..
  | .iand .. | .ior .. | .ixor .. | .ishl .. | .ishr .. | .iclt .. | .icgt .. | .iceq ..
  | .icne .. | .icle .. | .icge .. | .iland .. | .ilor .. | .czero .. | .notczero ..
  | .fadd .. | .fsub .. | .fmul .. | .fdiv .. | .fcpsgn .. | .fclt .. | .fcgt .. | .fceq ..
  | .fcne .. | .fcle .. | .fcge .. | .fclrb .. | .fsetb .. | .ftglb .. => .r3

/-- The field values of an instruction; a field or operand word it does not use is 0 (R82, R85). -/
def Instr.fields : Instr → Fields
  | .vany va => ⟨va, 0, 0, 0, 0, .splat 0⟩
  | .vall va => ⟨va, 0, 0, 0, 0, .splat 0⟩
  | .vsplat vd va n => ⟨vd, va, 0, 0, BitVec.ofNat 8 n.val, .splat 0⟩
  | .vshuf vd va sel => ⟨vd, va, 0, 0, sel, .splat 0⟩
  | .vswap va vb => ⟨va, vb, 0, 0, 0, .splat 0⟩
  | .vtrn va vb vc vd => ⟨va, vb, vc, vd, 0, .splat 0⟩
  | .vmov vd va => ⟨vd, va, 0, 0, 0, .splat 0⟩
  | .vset vd x => ⟨vd, 0, 0, 0, 0, x⟩
  | .vbcast vd x => ⟨vd, 0, 0, 0, 0, ⟨x, 0, 0, 0⟩⟩
  | .lget va n => ⟨va, 0, 0, 0, BitVec.ofNat 8 n.val, .splat 0⟩
  | .lset vd n x => ⟨vd, 0, 0, 0, BitVec.ofNat 8 n.val, ⟨x, 0, 0, 0⟩⟩
  | .vld vd addr => ⟨vd, 0, 0, 0, 0, ⟨addr, 0, 0, 0⟩⟩
  | .vst va addr => ⟨va, 0, 0, 0, 0, ⟨addr, 0, 0, 0⟩⟩
  | .vsts va addr => ⟨va, 0, 0, 0, 0, ⟨addr, 0, 0, 0⟩⟩
  | .mcopy dst src => ⟨0, 0, 0, 0, 0, ⟨dst, src, 0, 0⟩⟩
  | .mswap p q => ⟨0, 0, 0, 0, 0, ⟨p, q, 0, 0⟩⟩
  | .minc va addr => ⟨va, 0, 0, 0, 0, ⟨addr, 0, 0, 0⟩⟩
  | .mdec va addr => ⟨va, 0, 0, 0, 0, ⟨addr, 0, 0, 0⟩⟩
  | .mscale va addr => ⟨va, 0, 0, 0, 0, ⟨addr, 0, 0, 0⟩⟩
  | .ld4x1tr va ptrs => ⟨va, 0, 0, 0, 0, ptrs⟩
  | .ld4x2tr va vb ptrs => ⟨va, vb, 0, 0, 0, ptrs⟩
  | .ld4x3tr va vb vc ptrs => ⟨va, vb, vc, 0, 0, ptrs⟩
  | .ld4x4tr va vb vc vd ptrs => ⟨va, vb, vc, vd, 0, ptrs⟩
  | .st4x1tr va ptrs => ⟨va, 0, 0, 0, 0, ptrs⟩
  | .st4x2tr va vb ptrs => ⟨va, vb, 0, 0, 0, ptrs⟩
  | .st4x3tr va vb vc ptrs => ⟨va, vb, vc, 0, 0, ptrs⟩
  | .st4x4tr va vb vc vd ptrs => ⟨va, vb, vc, vd, 0, ptrs⟩
  | .iadd vd va vb => ⟨vd, va, vb, 0, 0, .splat 0⟩
  | .isub vd va vb => ⟨vd, va, vb, 0, 0, .splat 0⟩
  | .imul vd va vb => ⟨vd, va, vb, 0, 0, .splat 0⟩
  | .idiv vd va vb => ⟨vd, va, vb, 0, 0, .splat 0⟩
  | .imod vd va vb => ⟨vd, va, vb, 0, 0, .splat 0⟩
  | .iand vd va vb => ⟨vd, va, vb, 0, 0, .splat 0⟩
  | .ior vd va vb => ⟨vd, va, vb, 0, 0, .splat 0⟩
  | .ixor vd va vb => ⟨vd, va, vb, 0, 0, .splat 0⟩
  | .inot vd va => ⟨vd, va, 0, 0, 0, .splat 0⟩
  | .ishl vd va vb => ⟨vd, va, vb, 0, 0, .splat 0⟩
  | .ishr vd va vb => ⟨vd, va, vb, 0, 0, .splat 0⟩
  | .iabs vd va => ⟨vd, va, 0, 0, 0, .splat 0⟩
  | .ipreinc vd va => ⟨vd, va, 0, 0, 0, .splat 0⟩
  | .ipostinc vd va => ⟨vd, va, 0, 0, 0, .splat 0⟩
  | .ipredec vd va => ⟨vd, va, 0, 0, 0, .splat 0⟩
  | .ipostdec vd va => ⟨vd, va, 0, 0, 0, .splat 0⟩
  | .iclt vd va vb => ⟨vd, va, vb, 0, 0, .splat 0⟩
  | .icgt vd va vb => ⟨vd, va, vb, 0, 0, .splat 0⟩
  | .iceq vd va vb => ⟨vd, va, vb, 0, 0, .splat 0⟩
  | .icne vd va vb => ⟨vd, va, vb, 0, 0, .splat 0⟩
  | .icle vd va vb => ⟨vd, va, vb, 0, 0, .splat 0⟩
  | .icge vd va vb => ⟨vd, va, vb, 0, 0, .splat 0⟩
  | .iland vd va vb => ⟨vd, va, vb, 0, 0, .splat 0⟩
  | .ilor vd va vb => ⟨vd, va, vb, 0, 0, .splat 0⟩
  | .czero vd vm va => ⟨vd, vm, va, 0, 0, .splat 0⟩
  | .notczero vd vm va => ⟨vd, vm, va, 0, 0, .splat 0⟩
  | .merge vd vm vt vf => ⟨vd, vm, vt, vf, 0, .splat 0⟩
  | .fadd vd va vb => ⟨vd, va, vb, 0, 0, .splat 0⟩
  | .fsub vd va vb => ⟨vd, va, vb, 0, 0, .splat 0⟩
  | .fmul vd va vb => ⟨vd, va, vb, 0, 0, .splat 0⟩
  | .fdiv vd va vb => ⟨vd, va, vb, 0, 0, .splat 0⟩
  | .frcpa vd va => ⟨vd, va, 0, 0, 0, .splat 0⟩
  | .frcp vd va => ⟨vd, va, 0, 0, 0, .splat 0⟩
  | .frsqrta vd va => ⟨vd, va, 0, 0, 0, .splat 0⟩
  | .frsqrt vd va => ⟨vd, va, 0, 0, 0, .splat 0⟩
  | .fsqrt vd va => ⟨vd, va, 0, 0, 0, .splat 0⟩
  | .fabs vd va => ⟨vd, va, 0, 0, 0, .splat 0⟩
  | .fcpsgn vd va vb => ⟨vd, va, vb, 0, 0, .splat 0⟩
  | .fma vd va vb vc => ⟨vd, va, vb, vc, 0, .splat 0⟩
  | .fnms vd va vb vc => ⟨vd, va, vb, vc, 0, .splat 0⟩
  | .fms vd va vb vc => ⟨vd, va, vb, vc, 0, .splat 0⟩
  | .fclt vd va vb => ⟨vd, va, vb, 0, 0, .splat 0⟩
  | .fcgt vd va vb => ⟨vd, va, vb, 0, 0, .splat 0⟩
  | .fceq vd va vb => ⟨vd, va, vb, 0, 0, .splat 0⟩
  | .fcne vd va vb => ⟨vd, va, vb, 0, 0, .splat 0⟩
  | .fcle vd va vb => ⟨vd, va, vb, 0, 0, .splat 0⟩
  | .fcge vd va vb => ⟨vd, va, vb, 0, 0, .splat 0⟩
  | .fclrb vd vm va => ⟨vd, vm, va, 0, 0, .splat 0⟩
  | .fsetb vd vm va => ⟨vd, vm, va, 0, 0, .splat 0⟩
  | .ftglb vd vm va => ⟨vd, vm, va, 0, 0, .splat 0⟩

/-- The command word of an opcode and its fields: the picture of R82. -/
def assembleWord (op : Nat) (f : Fields) : Word :=
  BitVec.ofNat 32 (op * 2 ^ 24 + f.a.val * 2 ^ 20 + f.b.val * 2 ^ 16 + f.c.val * 2 ^ 12
    + f.d.val * 2 ^ 8 + f.i.toNat)

/-- The beat of an instruction (R80 to R86). An operand word it does not use is 0. -/
def encode (i : Instr) : Beat := ⟨assembleWord i.opcode i.fields, i.fields.x⟩

/-- The beat whose bits are `w`, of which the table gives `nbits`; bits above them are 0. `W` is
bits 31:0 and `X[j]` is bits `32j+63 : 32j+32`, in the order of R80. -/
def beatOfBits (nbits w : Nat) : Beat :=
  let v := w % 2 ^ nbits
  { w := BitVec.ofNat 32 v
    x := .ofFn fun j => BitVec.ofNat 32 (v / 2 ^ (32 * j.val + 32)) }

/-- The instruction the decoder reads from a table row's bits. -/
def decodeTableWord (nbits w : Nat) : Option Instr := (decode (beatOfBits nbits w)).toOption

end Sys2Proof
end

