-- ==== Sys2Proof/Machine/State.lean ====
section
/-! DEFINITION. The machine's state as plain data (10_state.md R20 to R34), the reasons a step of the
model may stop, and the state after reset (R32, 70_reset_and_hazards.md R310). -/

namespace Sys2Proof.Machine

/-- The memory `M` (R29) as the list of the bytes that the host or a command has written, addresses
strictly rising (`Memory.wf` in Machine/Ops.lean). A byte that is not listed has not been written;
what it reads as is `Config.hostByte` (`Memory.byteAt`). Log 4. -/
abbrev Memory := List Host.Cell

/-- A vector register: its four lanes (R21), and for each lane whether a command has written it since
reset (R33, R310, R315). A command that reads an unwritten lane gets a free value (`State.operand` in
Machine/Ops.lean). Log 3. -/
structure VReg where
  val : Vec
  written : Marks
deriving DecidableEq, Repr

/-- Everything the spec gives the machine (R20), with the definedness marks of R33 and two fields of
the model's own, `inputs` and `taken`. -/
structure State where
  /-- `v0` to `v15` (R21). -/
  regs : Vector VReg 16
  /-- `CF`, the condition flag (R25). -/
  cf : Bool
  /-- A command has written `CF` since reset (R33). -/
  cfWritten : Bool
  /-- `XR`, the scalar result (R26). -/
  xr : Word
  /-- A command has written `XR` since reset (R33). -/
  xrWritten : Bool
  /-- `FSR`, the fault status register (R27). -/
  fsr : Word
  /-- `FINFO`, the fault information register (R28). -/
  finfo : Word
  /-- `M`, the data memory (R29). -/
  mem : Memory
  /-- The model's own: the host inputs not yet taken, the next one first (R24, R34). Log 8. -/
  inputs : List HostInput
  /-- The model's own: how many host inputs have been taken. Free values are drawn by it, so that those of
  one command are not those of another (R33, 20_memory.md R67). Log 8. -/
  taken : Nat
deriving DecidableEq, Repr

/-- Why the model would stop with a fault. It has no constructor: what the spec calls a fault is
recorded in `FSR` and `FINFO` and the machine goes on to the faulted state (60_exceptions.md R284,
R285), which is a next state. So nothing raises one. Log 14. -/
inductive Fault where
deriving DecidableEq, Repr

/-- Why the model would refuse to give a meaning. -/
inductive Refusal where
  /-- Raised by an arm of `exec` whose instruction has no meaning yet. It is safe: nothing is claimed
  of such an instruction. No arm raises it. -/
  | notModelled (mnemonic : String)
deriving DecidableEq, Repr

/-- What a step answers. -/
abbrev Result := Host.Outcome State Fault Refusal

/-- A register as reset leaves it: every lane marked never-written (R310). The value is unspecified in
the spec; the model names zero. DESIGN CHOICE, unsafe: log 1. -/
def VReg.reset : VReg := ⟨.splat 0, .splat false⟩

/-- The machine right after reset (R32, R310). `FSR` and `FINFO` are 0 as the spec says. `CF` and `XR`
are unspecified there and 0 here: DESIGN CHOICE, unsafe, log 2. Memory lists nothing: it holds
whatever the host placed there (log 4). No input waits (log 8). -/
def State.reset : State where
  regs := .replicate 16 VReg.reset
  cf := false
  cfWritten := false
  xr := 0
  xrWritten := false
  fsr := 0
  finfo := 0
  mem := []
  inputs := []
  taken := 0

end Sys2Proof.Machine
end

