-- ==== Sys2Proof/Machine/Ops.lean ====
section
/-! DEFINITION. The named operations over registers, memory and the fault registers that every
meaning is built from (00_scope.md R10), fault entry (60_exceptions.md R284) and the reset input
(70_reset_and_hazards.md R310), which is the only way out of a fault. -/

namespace Sys2Proof.Machine

/-! ## Registers -/

/-- The stored value of a vector register. No register is hardwired (10_state.md R21). -/
def State.readReg (s : State) (r : Reg) : Vec := (s.regs.get r).val

/-- Which lanes of a register a command has written since reset (R33). -/
def State.marks (s : State) (r : Reg) : Marks := (s.regs.get r).written

/-- `v[i]` on the right of `<-` (R10): what a command reads in its operand number `j`. A written lane reads
as stored, and a lane that no command has written since reset as a free value, which need not be the one
that another operand or another command reads (R33). Log 3. -/
def State.operand (s : State) (j : Nat) (r : Reg) : Vec :=
  .ofFn fun k =>
    if (s.marks r).lane k then (s.readReg r).lane k else Config.unwrittenLane s.taken j k.val

/-- Replace a register and its marks. -/
def State.putReg (s : State) (r : Reg) (v : VReg) : State :=
  { s with regs := s.regs.set r.val v r.isLt }

/-- `v[i] <- V` (R10): every lane is written (R33). -/
def State.writeReg (s : State) (r : Reg) (v : Vec) : State := s.putReg r ⟨v, .splat true⟩

/-- `v[i].k <- x`, the other lanes and their marks unchanged (R10, R33). -/
def State.writeLane (s : State) (r : Reg) (k : Fin 4) (x : Word) : State :=
  s.putReg r ⟨(s.readReg r).setLane k x, (s.marks r).setLane k true⟩

/-- `CF <- b` (R10, R25). -/
def State.writeCF (s : State) (b : Bool) : State := { s with cf := b, cfWritten := true }

/-- `XR <- x` (R10, R26). -/
def State.writeXR (s : State) (x : Word) : State := { s with xr := x, xrWritten := true }

/-! ## Memory -/

/-- The listed byte at an address, if the host or a command has written it. -/
def Memory.find : Memory → Nat → Option Byte
  | [], _ => none
  | (a', b') :: m, a => if a' = a then some b' else Memory.find m a

/-- Write one byte and keep the addresses strictly rising. -/
def Memory.put : Memory → Nat → Byte → Memory
  | [], a, b => [(a, b)]
  | (a', b') :: m, a, b =>
    if a < a' then (a, b) :: (a', b') :: m
    else if a = a' then (a, b) :: m
    else (a', b') :: Memory.put m a b

/-- The one canonical form of a memory: addresses strictly rising and below 2^32. An unlisted address
reads as no listed byte does (it has no value of its own), so no entry is redundant. -/
def Memory.wf (m : Memory) : Bool :=
  decide (m.Pairwise fun c d => c.1 < d.1) && m.all fun c => c.1 < 2 ^ 32

/-- The byte at an address. Every address reads (20_memory.md R57, R58): a byte nothing has written
is whatever the host placed there (10_state.md R32), a free value. Log 4. -/
def Memory.byteAt (m : Memory) (a : Word) : Byte :=
  (m.find a.toNat).getD (Config.hostByte a.toNat)

/-- The address of element `e` of a pointer, `p + 4e` modulo 2^32 (41_vector_memory.md R130). -/
def elementAddr (p : Word) (e : Nat) : Word := p + BitVec.ofNat 32 (4 * e)

/-- `MemRead(a, 4)`: little-endian, addresses modulo 2^32 (20_memory.md R50, R51). -/
def Memory.readWord (m : Memory) (a : Word) : Word :=
  m.byteAt (a + 3) ++ m.byteAt (a + 2) ++ m.byteAt (a + 1) ++ m.byteAt a

/-- `MemRead(a, n)` as bytes, the one at the lowest address first (R51). -/
def Memory.readBytes (m : Memory) (a : Word) (n : Nat) : List Byte :=
  (List.range n).map fun j => m.byteAt (a + BitVec.ofNat 32 j)

/-- `MemRead(a, 16)`: lane `k` is the word at `a + 4k` (R52). -/
def Memory.readVec (m : Memory) (a : Word) : Vec :=
  .ofFn fun k => m.readWord (elementAddr a k)

/-- The bytes of a word, the least significant first (R51). -/
def wordBytes (x : Word) : List Byte :=
  [x.extractLsb' 0 8, x.extractLsb' 8 8, x.extractLsb' 16 8, x.extractLsb' 24 8]

/-- The bytes of a vector, lane 0 first (R52). -/
def vecBytes (v : Vec) : List Byte := v.toList.flatMap wordBytes

/-- Write bytes at rising addresses, modulo 2^32 (R50). -/
def Memory.writeBytes (m : Memory) (a : Word) : List Byte → Memory
  | [] => m
  | b :: bs => Memory.writeBytes (m.put a.toNat b) (a + 1) bs

/-- `MemWrite(a, 4, x)` (R51). -/
def Memory.writeWord (m : Memory) (a : Word) (x : Word) : Memory := m.writeBytes a (wordBytes x)

/-- `MemWrite(a, 16, V)`: lane `k` at `a + 4k` (R52). -/
def Memory.writeVec (m : Memory) (a : Word) (v : Vec) : Memory :=
  m.writeBytes a (vecBytes v)

/-- Every byte of the word at an address has been written by the host or a command
(70_reset_and_hazards.md R311). -/
def Memory.wordWritten (m : Memory) (a : Word) : Bool :=
  [a, a + 1, a + 2, a + 3].all fun b => (m.find b.toNat).isSome

/-- The marks of the four lanes that a 16-byte read gives (R311). -/
def Memory.vecMarks (m : Memory) (a : Word) : Marks :=
  .ofFn fun k => m.wordWritten (elementAddr a k)

/-! ## The writes of one command to several places (20_memory.md R61, R67) -/

/-- The byte writes that a list of word writes stands for. -/
def byteWrites (ws : List (Word × Word)) : List (Word × Byte) :=
  ws.flatMap fun w =>
    [(w.1, w.2.extractLsb' 0 8), (w.1 + 1, w.2.extractLsb' 8 8),
     (w.1 + 2, w.2.extractLsb' 16 8), (w.1 + 3, w.2.extractLsb' 24 8)]

/-- The values that the writes covering an address carry. -/
def coveringBytes (cs : List (Word × Byte)) (a : Word) : List Byte :=
  (cs.filter fun c => c.1 == a).map Prod.snd

/-- The byte an address ends with: the value of the one write that covers it, or where several cover
it the value of one of them, "which one is not specified" (R67). The choice is free. Log 5. -/
def resolveByte (n : Nat) (cs : List (Word × Byte)) (a : Word) : Byte :=
  match coveringBytes cs a with
  | [b] => b
  | bs => bs.getD (Config.writePick n a.toNat % bs.length) 0

/-- Perform all the writes of one command, in no order (R61). -/
def Memory.scatter (m : Memory) (n : Nat) (ws : List (Word × Word)) : Memory :=
  (byteWrites ws).foldl (fun m c => m.put c.1.toNat (resolveByte n (byteWrites ws) c.1)) m

/-- The writes of a transposed store. It draws a free choice for bytes that several of its writes
cover. -/
def State.scatter (s : State) (ws : List (Word × Word)) : State :=
  { s with mem := s.mem.scatter s.taken ws }

/-- Replace the memory. -/
def State.withMem (s : State) (m : Memory) : State := { s with mem := m }

/-! ## Host inputs, fault entry and reset -/

/-- The machine takes the first waiting input (R24, R34): `rest` are the ones behind it. Log 8. -/
def State.takeInput (s : State) (rest : List HostInput) : State :=
  { s with inputs := rest, taken := s.taken + 1 }

/-- The three causes of a fault (60_exceptions.md R280). -/
inductive FaultCause where
  | illegal
  | misaligned
  | divzero
deriving DecidableEq, Repr

/-- The cause's code in `FSR.CAUSE` (10_state.md R27). -/
def FaultCause.code : FaultCause → BitVec 3
  | .illegal => 1
  | .misaligned => 2
  | .divzero => 3

/-- The value of `FSR` after a fault: `zext_32({c[2:0], 1})` (R284). -/
def faultStatus (c : FaultCause) : Word := (c.code ++ 1#1).setWidth 32

/-- Fault entry, the complete state change (R284): `FSR` and `FINFO`, and nothing else. Nothing is
saved, no mode changes and there is no handler, so there is no return (R288). -/
def State.raiseFault (s : State) (c : FaultCause) (info : Word) : State :=
  { s with fsr := faultStatus c, finfo := info }

/-- The reset input (R310): the registers, `CF`, `XR`, `FSR` and `FINFO` as in `State.reset`, memory
unchanged, no memory access. The host's waiting inputs and their count are not the machine's and stay.
Log 9. -/
def State.resetInput (s : State) : State :=
  { State.reset with mem := s.mem, inputs := s.inputs, taken := s.taken }

end Sys2Proof.Machine
end

