-- ==== Sys2Proof/Machine/Operands.lean ====
section
/-! DEFINITION. The operand forms: lane-wise results, bit operations on all 128 bits, the shuffle
and transpose of lanes, pointers and their alignment, and the transposed accesses. -/

namespace Sys2Proof.Machine

/-! ## Lanes -/

/-- The mask lane of a predicate: `if b then ALL1 else ALL0` (43_integer_compare_mask.md R203). -/
def maskLane (b : Bool) : Word := if b then ALL1 else ALL0

/-- Bitwise AND of all 128 bits. -/
def Vec.and (v w : Vec) : Vec := v.map₂ (· &&& ·) w

/-- Bitwise OR of all 128 bits. -/
def Vec.or (v w : Vec) : Vec := v.map₂ (· ||| ·) w

/-- Bitwise exclusive OR of all 128 bits. -/
def Vec.xor (v w : Vec) : Vec := v.map₂ (· ^^^ ·) w

/-- Bitwise complement of all 128 bits. -/
def Vec.not (v : Vec) : Vec := v.map (~~~ ·)

/-- Index `k` of a permutation selector: `i_k = sel[2k+1:2k]` (30_encoding.md R84). -/
def selectorIndex (sel : BitVec 8) (k : Fin 4) : Fin 4 :=
  Fin.ofNat 4 (sel.toNat / 4 ^ k.val)

/-- Result lane `k` is lane `i_k` of the source (40_vector_base.md R113). -/
def Vec.shuffle (v : Vec) (sel : BitVec 8) : Vec := .ofFn fun k => v.lane (selectorIndex sel k)

/-- The permutation table's entry for a selector: result byte `4k+j` is source byte `4 i_k + j`
(R114). It is wiring of the shuffle unit, not state (10_state.md R30). -/
def permutationTable (sel : BitVec 8) (b : Fin 16) : Nat :=
  4 * (selectorIndex sel (Fin.ofNat 4 (b.val / 4))).val + b.val % 4

/-- The four columns of the 4x4 matrix whose rows are given: new row `k` holds in lane `p` the old
row `p` lane `k` (R116). -/
def transpose {α : Type} (rows : Quad (Quad α)) : Quad (Quad α) :=
  .ofFn fun k => .ofFn fun p => (rows.lane p).lane k

/-- `lo(x,y)` of the transpose network (R117). -/
def interleaveLo (x y : Vec) : Vec := ⟨x.l0, y.l0, x.l1, y.l1⟩

/-- `hi(x,y)` of the transpose network (R117). -/
def interleaveHi (x y : Vec) : Vec := ⟨x.l2, y.l2, x.l3, y.l3⟩

/-- The two-stage interleave network of R117. It is informative there: the meaning of VTRN is
`transpose`. -/
def transposeNetwork (rows : Quad Vec) : Quad Vec :=
  let t0 := interleaveLo rows.l0 rows.l2
  let t1 := interleaveHi rows.l0 rows.l2
  let t2 := interleaveLo rows.l1 rows.l3
  let t3 := interleaveHi rows.l1 rows.l3
  ⟨interleaveLo t0 t2, interleaveHi t0 t2, interleaveLo t1 t3, interleaveHi t1 t3⟩

/-! ## Pointers -/

/-- The first pointer, in operand order, that is not a multiple of `n` (20_memory.md R53, R54). -/
def firstMisaligned (n : Nat) (ps : List Word) : Option Word :=
  ps.find? fun p => p.toNat % n != 0

/-- The alignment check of a memory instruction: MISALIGNED with the first offending pointer before
any access (R54, 60_exceptions.md R282), else the instruction's own effect. -/
def whenAligned (n : Nat) (ps : List Word) (s next : State) : Result :=
  match firstMisaligned n ps with
  | some p => .next (s.raiseFault .misaligned p)
  | none => .next next

/-! ## The transposed family (41_vector_memory.md R136) -/

/-- What register `r_k` receives from the four pointers: lane `p` is the word at `X[p] + 4k`, with the
marks of R311. -/
def State.gather (s : State) (ptrs : Quad Word) (k : Nat) : VReg where
  val := ptrs.map fun p => s.mem.readWord (elementAddr p k)
  written := ptrs.map fun p => s.mem.wordWritten (elementAddr p k)

/-- The word writes of a transposed store of the vectors `r_0 .. r_{n-1}`: lane `p` of `r_k` goes to
`X[p] + 4k`. -/
def scatterWrites (ptrs : Quad Word) (rs : List Vec) : List (Word × Word) :=
  (List.finRange 4).flatMap fun p =>
    rs.zipIdx.map fun r => (elementAddr (ptrs.lane p) r.2, r.1.lane p)

end Sys2Proof.Machine
end

