-- ==== Sys2Proof/Machine/Binary32.lean ====
section
/-! DEFINITION. The binary32 numerics (44_float_arith.md R210 to R216) and the float predicates
(46_float_compare_bits.md R250). Every finite binary32 value is an integer multiple of 2^-149, so the
exact value of an operand is an integer number of such units. Results are computed exactly and
rounded once. -/

namespace Sys2Proof.Machine

/-! ## The format (R210) -/

/-- The biased exponent `u(x[30:23])`. -/
def expo (x : Word) : BitVec 8 := x.extractLsb' 23 8

/-- The fraction `u(x[22:0])`. -/
def frac (x : Word) : BitVec 23 := x.extractLsb' 0 23

/-- The sign `x[31]`. -/
def signBit (x : Word) : Bool := x.getLsbD 31

/-- NaN, quiet or signalling alike. -/
def isNaN (x : Word) : Bool := expo x == 255 && frac x != 0

/-- A quiet NaN: `x[22] = 1`. -/
def isQuietNaN (x : Word) : Bool := isNaN x && x.getLsbD 22

/-- An infinity of either sign. -/
def isInf (x : Word) : Bool := expo x == 255 && frac x == 0

/-- A zero of either sign. -/
def isZero (x : Word) : Bool := expo x == 0 && frac x == 0

/-- A finite number: zero, subnormal or normal. -/
def isFinite (x : Word) : Bool := expo x != 255

/-- The magnitude of a finite number in units of 2^-149: `f` for exponent 0 and
`(2^23 + f) * 2^(e-1)` otherwise. -/
def magUnits (x : Word) : Nat :=
  if expo x == 0 then (frac x).toNat
  else (2 ^ 23 + (frac x).toNat) * 2 ^ ((expo x).toNat - 1)

/-- The value of a finite number in units of 2^-149. -/
def units (x : Word) : Int := if signBit x then -(magUnits x : Int) else magUnits x

/-- The word with a given sign and magnitude pattern `x[30:0]`. -/
def withSign (sg : Bool) (mag : Nat) : Word :=
  BitVec.ofNat 32 (if sg then 2 ^ 31 + mag else mag)

/-- The magnitude pattern of the infinities, 0x7F800000. -/
def infMag : Nat := 255 * 2 ^ 23

/-- The infinity of a sign. -/
def infinity (sg : Bool) : Word := withSign sg infMag

/-- The zero of a sign. -/
def zero (sg : Bool) : Word := withSign sg 0

/-- `1.0`, `2.0`, `3.0` and `0.5` (R210). -/
def fOne : Word := 0x3F800000#32
def fTwo : Word := 0x40000000#32
def fThree : Word := 0x40400000#32
def fHalf : Word := 0x3F000000#32

/-- `neg(y)`: bit 31 inverted (R213). -/
def neg (y : Word) : Word := y ^^^ 0x80000000#32

/-- The NaN every arithmetic operation produces: a parameter that is a quiet NaN, exponent all ones
and bit 22 set, its other bits free (R216, 92_eei_decisions.md D25). Log 6. -/
def canonNaN : Word := Config.nanBits ||| 0x7FC00000#32

/-! ## Rounding (R211) -/

/-- The magnitude pattern nearest to `num / den` units of 2^-149, ties to the even fraction, for
`den > 0`. `sh` is the number of low binary places that a 24-bit significand cannot hold. A value
that rounds to 2^128 or beyond has the pattern of the infinity. -/
def roundMag (num den : Nat) : Nat :=
  let sh := Nat.log2 (num / den) - 23
  let q := num / (den * 2 ^ sh)
  let r := num % (den * 2 ^ sh)
  let up := 2 * r > den * 2 ^ sh || (2 * r == den * 2 ^ sh && q % 2 == 1)
  min (sh * 2 ^ 23 + q + (if up then 1 else 0)) infMag

/-- `round(r)` for the real number `num / den` units of 2^-149, with its sign, also where it rounds
to zero (R211). An exact zero gives `+0`, the last case of R212 and R215. -/
def roundUnits (num : Int) (den : Nat) : Word :=
  withSign (decide (num < 0)) (roundMag num.natAbs den)

/-! ## Arithmetic -/

/-- `fadd(x, y)`, the cases of R212 in order. -/
def fadd (x y : Word) : Word :=
  if isNaN x || isNaN y then canonNaN
  else if isInf x && isInf y then (if signBit x == signBit y then x else canonNaN)
  else if isInf x then x
  else if isInf y then y
  else if isZero x && isZero y then zero (signBit x && signBit y)
  else roundUnits (units x + units y) 1

/-- `fsub(x, y)` (R213). -/
def fsub (x y : Word) : Word := fadd x (neg y)

/-- `fmul(x, y)`, the cases of R214 in order. -/
def fmul (x y : Word) : Word :=
  let sg := signBit x ^^ signBit y
  if isNaN x || isNaN y then canonNaN
  else if (isZero x && isInf y) || (isInf x && isZero y) then canonNaN
  else if isInf x || isInf y then infinity sg
  else if isZero x || isZero y then zero sg
  else roundUnits (units x * units y) (2 ^ 149)

/-- `ffma(x, y, z)`, the product not rounded, the cases of R215 in order. -/
def ffma (x y z : Word) : Word :=
  let sp := signBit x ^^ signBit y
  if isNaN x || isNaN y || isNaN z then canonNaN
  else if (isZero x && isInf y) || (isInf x && isZero y) then canonNaN
  else if isInf x || isInf y then
    (if isInf z && signBit z != sp then canonNaN else infinity sp)
  else if isInf z then z
  else if (isZero x || isZero y) && isZero z then zero (sp && signBit z)
  else if isZero x || isZero y then z
  else roundUnits (units x * units y + units z * 2 ^ 149) (2 ^ 149)

/-! ## Comparison (R250) -/

/-- An extended real number: what a word that is no NaN stands for. -/
inductive ExtVal where
  | negInf
  | fin (units : Int)
  | posInf
deriving DecidableEq, Repr

/-- The value of a word that is no NaN. Both zeros have the value 0. -/
def extVal (x : Word) : ExtVal :=
  if isInf x then (if signBit x then .negInf else .posInf) else .fin (units x)

/-- The order of the extended reals. -/
def ExtVal.lt : ExtVal → ExtVal → Bool
  | .negInf, .negInf => false
  | .negInf, .fin _ => true
  | .negInf, .posInf => true
  | .fin _, .negInf => false
  | .fin u, .fin v => decide (u < v)
  | .fin _, .posInf => true
  | .posInf, _ => false

/-- `unordered(x, y)`. -/
def unordered (x y : Word) : Bool := isNaN x || isNaN y

/-- `flt`. -/
def flt (x y : Word) : Bool := !unordered x y && (extVal x).lt (extVal y)

/-- `fgt`. -/
def fgt (x y : Word) : Bool := !unordered x y && (extVal y).lt (extVal x)

/-- `feq`. -/
def feq (x y : Word) : Bool := !unordered x y && extVal x == extVal y

/-- `fne`. -/
def fne (x y : Word) : Bool := unordered x y || extVal x != extVal y

/-- `fle`. -/
def fle (x y : Word) : Bool := !unordered x y && ((extVal x).lt (extVal y) || extVal x == extVal y)

/-- `fge`. -/
def fge (x y : Word) : Bool := !unordered x y && ((extVal y).lt (extVal x) || extVal x == extVal y)

end Sys2Proof.Machine
end

