-- ==== Sys2Proof/Machine/FloatArith.lean ====
section
/-! DEFINITION. Meanings of 44_float_arith.md: FADD, FSUB, FMUL, FABS, FCPSGN, FMA, FNMS, FMS. Each acts
on the four lanes independently, writes no flag and never faults once decoded (R226). -/

namespace Sys2Proof.Machine

/-- FABS, one lane: bit 31 cleared (R220). -/
def fabsLane (a : Word) : Word := a &&& 0x7FFFFFFF#32

/-- FCPSGN, one lane: magnitude of `a`, sign of `b` (R221). -/
def copysignLane (a b : Word) : Word := (a &&& 0x7FFFFFFF#32) ||| (b &&& 0x80000000#32)

/-- FADD (R217). -/
def execFadd (vd va vb : Reg) (s : State) : Result :=
  .next (s.writeReg vd ((s.operand 0 va).map₂ fadd (s.operand 1 vb)))

/-- FSUB (R218). -/
def execFsub (vd va vb : Reg) (s : State) : Result :=
  .next (s.writeReg vd ((s.operand 0 va).map₂ fsub (s.operand 1 vb)))

/-- FMUL (R219). -/
def execFmul (vd va vb : Reg) (s : State) : Result :=
  .next (s.writeReg vd ((s.operand 0 va).map₂ fmul (s.operand 1 vb)))

/-- FABS (R220): a bit operation, NaN payloads stay. -/
def execFabs (vd va : Reg) (s : State) : Result :=
  .next (s.writeReg vd ((s.operand 0 va).map fabsLane))

/-- FCPSGN (R221): a bit operation. -/
def execFcpsgn (vd va vb : Reg) (s : State) : Result :=
  .next (s.writeReg vd ((s.operand 0 va).map₂ copysignLane (s.operand 1 vb)))

/-- FMA (R222): `a*b + c`, rounded once. -/
def execFma (vd va vb vc : Reg) (s : State) : Result :=
  .next (s.writeReg vd (Quad.map₃ ffma (s.operand 0 va) (s.operand 1 vb) (s.operand 2 vc)))

/-- FNMS (R223): `c - a*b`, rounded once. -/
def execFnms (vd va vb vc : Reg) (s : State) : Result :=
  .next (s.writeReg vd
    (Quad.map₃ (fun a b c => ffma (neg a) b c) (s.operand 0 va) (s.operand 1 vb) (s.operand 2 vc)))

/-- FMS (R224): `a*b - c`, rounded once. -/
def execFms (vd va vb vc : Reg) (s : State) : Result :=
  .next (s.writeReg vd
    (Quad.map₃ (fun a b c => ffma a b (neg c)) (s.operand 0 va) (s.operand 1 vb) (s.operand 2 vc)))

end Sys2Proof.Machine
end

