-- ==== Sys2Proof/Machine/FloatCompare.lean ====
section
/-! DEFINITION. Meanings of 46_float_compare_bits.md: the float comparisons, which give a Mask (R250),
and the bit operations, whose `vm` is any 128-bit pattern (90_conflicts.md C1). None of them faults
once decoded. -/

namespace Sys2Proof.Machine

/-- FCLT (R251). -/
def execFclt (vd va vb : Reg) (s : State) : Result :=
  .next (s.writeReg vd ((s.operand 0 va).map₂ (fun x y => maskLane (flt x y)) (s.operand 1 vb)))

/-- FCGT (R252). -/
def execFcgt (vd va vb : Reg) (s : State) : Result :=
  .next (s.writeReg vd ((s.operand 0 va).map₂ (fun x y => maskLane (fgt x y)) (s.operand 1 vb)))

/-- FCEQ (R253). -/
def execFceq (vd va vb : Reg) (s : State) : Result :=
  .next (s.writeReg vd ((s.operand 0 va).map₂ (fun x y => maskLane (feq x y)) (s.operand 1 vb)))

/-- FCNE (R254). -/
def execFcne (vd va vb : Reg) (s : State) : Result :=
  .next (s.writeReg vd ((s.operand 0 va).map₂ (fun x y => maskLane (fne x y)) (s.operand 1 vb)))

/-- FCLE (R255). -/
def execFcle (vd va vb : Reg) (s : State) : Result :=
  .next (s.writeReg vd ((s.operand 0 va).map₂ (fun x y => maskLane (fle x y)) (s.operand 1 vb)))

/-- FCGE (R256). -/
def execFcge (vd va vb : Reg) (s : State) : Result :=
  .next (s.writeReg vd ((s.operand 0 va).map₂ (fun x y => maskLane (fge x y)) (s.operand 1 vb)))

/-- FCLRB (R257). -/
def execFclrb (vd vm va : Reg) (s : State) : Result :=
  .next (s.writeReg vd (Vec.and (s.operand 1 va) (Vec.not (s.operand 0 vm))))

/-- FSETB (R258). -/
def execFsetb (vd vm va : Reg) (s : State) : Result :=
  .next (s.writeReg vd (Vec.or (s.operand 1 va) (s.operand 0 vm)))

/-- FTGLB (R259). -/
def execFtglb (vd vm va : Reg) (s : State) : Result :=
  .next (s.writeReg vd (Vec.xor (s.operand 1 va) (s.operand 0 vm)))

end Sys2Proof.Machine
end

