-- ==== Sys2Proof/Machine/FloatMemory.lean ====
section
/-! DEFINITION. Meanings of 47_float_memory_rmw.md: MINC, MDEC, MSCALE read 16 bytes, compute four
lanes with memory as the first operand, and write 16 bytes. No register is written. -/

namespace Sys2Proof.Machine

/-- The lanes that are written back: `f (m.k) (v.k)`. -/
def State.rmwResult (s : State) (f : Word → Word → Word) (va : Reg) (addr : Word) : Vec :=
  (s.mem.readVec addr).map₂ f (s.operand 0 va)

/-- The shared effect: lane `k` of memory becomes `f (m.k) (v.k)`, after the alignment check. -/
def rmwVec (f : Word → Word → Word) (va : Reg) (addr : Word) (s : State) : Result :=
  whenAligned 16 [addr] s (s.withMem (s.mem.writeVec addr (s.rmwResult f va addr)))

/-- MINC (R270). -/
def execMinc (va : Reg) (addr : Word) (s : State) : Result := rmwVec fadd va addr s

/-- MDEC (R271). -/
def execMdec (va : Reg) (addr : Word) (s : State) : Result := rmwVec fsub va addr s

/-- MSCALE (R272). -/
def execMscale (va : Reg) (addr : Word) (s : State) : Result := rmwVec fmul va addr s

end Sys2Proof.Machine
end

