-- ==== Sys2Proof/Machine/Estimator.lean ====
section
/-! DEFINITION. The reciprocal and reciprocal square root estimators (45_float_newton.md R231, R232),
the reference instances (R243), and the Newton-Raphson steps (R233, R234). The estimators are
parameters that the spec limits and does not fix: a free function answers, and an answer outside the
limits is replaced by the reference instance, which is inside them. So the model's estimators range
over exactly the ones the spec admits. Log 7. -/

namespace Sys2Proof.Machine

/-! ## Reference estimators (R243) -/

/-- Clear the low 11 fraction bits of a normal number: `t & 0xFFFFF800`. -/
def truncateEstimate (t : Word) : Word :=
  if expo t == 0 || expo t == 255 then t else t &&& 0xFFFFF800#32

/-- `RCP_EST_REF` for a finite nonzero operand. `1/b` is `2^298 / m` units of 2^-149 for a magnitude
of `m` units. -/
def rcpRefFinite (b : Word) : Word :=
  truncateEstimate (withSign (signBit b) (roundMag (2 ^ 298) (magUnits b)))

/-- The integer square root, one binary place at a time from place `k - 1` down: the greatest `r` with
`r^2 <= n` among those that extend `acc`. -/
def isqrtFrom (n : Nat) : Nat → Nat → Nat
  | 0, acc => acc
  | k + 1, acc =>
    if (acc + 2 ^ k) * (acc + 2 ^ k) ≤ n then isqrtFrom n k (acc + 2 ^ k) else isqrtFrom n k acc

/-- `RSQRT_EST_REF` for a positive finite operand. `1/sqrt(a)` is `sqrt(2^447 / m)` units of 2^-149
for a magnitude of `m` units. The root is taken with 64 further binary places, and a nonzero
remainder is kept as one more place, so that rounding sees the exact side of a tie. -/
def rsqrtRefPositive (a : Word) : Word :=
  let q := 2 ^ 575 / magUnits a
  let r := isqrtFrom q 300 0
  let exact := r * r * magUnits a == 2 ^ 575
  truncateEstimate
    (withSign false (roundMag (2 * r + (if exact then 0 else 1)) (2 ^ 65)))

/-! ## The admissible answers -/

/-- `2^-126 <= |b| <= 2^126`: the operands of R231 item 4. -/
def rcpAccurateRange (b : Word) : Bool :=
  2 ^ 23 ≤ magUnits b && magUnits b ≤ 2 ^ 275

/-- `|r * b - 1| <= 2^-12` in exact arithmetic: `r * b` is `m_r m_b` units of 2^-298. -/
def rcpAccurate (b r : Word) : Bool :=
  ((units r * units b - 2 ^ 298).natAbs) * 2 ^ 12 ≤ 2 ^ 298

/-- What R231 items 4 and 5 require of the answer `r` for a finite nonzero operand `b`. -/
def rcpAdmits (b r : Word) : Bool :=
  signBit r == signBit b &&
    (if rcpAccurateRange b then isFinite r && !isZero r && rcpAccurate b r else !isNaN r)

/-- `|r * r * a - 1| <= 2^-11` in exact arithmetic: `r * r * a` is in units of 2^-447. -/
def rsqrtAccurate (a r : Word) : Bool :=
  ((units r * units r * units a - 2 ^ 447).natAbs) * 2 ^ 11 ≤ 2 ^ 447

/-- What R232 items 5 and 6 require of the answer `r` for a positive finite operand `a`: a positive
value, and for a normal `a` a finite one within the error bound. -/
def rsqrtAdmits (a r : Word) : Bool :=
  !signBit r && !isZero r && !isNaN r &&
    (if expo a == 0 then true else isFinite r && rsqrtAccurate a r)

/-! ## The estimators -/

/-- `RCP_EST` (R231). -/
def rcpEst (b : Word) : Word :=
  if isNaN b then canonNaN
  else if isZero b then infinity (signBit b)
  else if isInf b then zero (signBit b)
  else if rcpAdmits b (Config.rcpRaw b) then Config.rcpRaw b
  else rcpRefFinite b

/-- `RSQRT_EST` (R232). -/
def rsqrtEst (a : Word) : Word :=
  if isNaN a then canonNaN
  else if isZero a then infinity (signBit a)
  else if signBit a then canonNaN
  else if isInf a then zero false
  else if rsqrtAdmits a (Config.rsqrtRaw a) then Config.rsqrtRaw a
  else rsqrtRefPositive a

/-- `RCP_EST_REF` (R243). It is not the hardware's estimator. -/
def rcpEstRef (b : Word) : Word :=
  if isNaN b then canonNaN
  else if isZero b then infinity (signBit b)
  else if isInf b then zero (signBit b)
  else rcpRefFinite b

/-- `RSQRT_EST_REF` (R243). It is not the hardware's estimator. -/
def rsqrtEstRef (a : Word) : Word :=
  if isNaN a then canonNaN
  else if isZero a then infinity (signBit a)
  else if signBit a then canonNaN
  else if isInf a then zero false
  else rsqrtRefPositive a

/-! ## The refinement steps, each operation rounded -/

/-- `NR_RCP(b, r)` (R233). -/
def nrRcp (b r : Word) : Word :=
  let t := fmul b r
  let u := fsub fTwo t
  fmul r u

/-- `NR_RSQ(a, r)` (R234). -/
def nrRsq (a r : Word) : Word :=
  let q := fmul r r
  let t := fmul a q
  let u := fsub fThree t
  let h := fmul r fHalf
  fmul h u

/-- Exactly two refinements of a reciprocal estimate (R230, R236). -/
def refineRcp (b r0 : Word) : Word := nrRcp b (nrRcp b r0)

/-- Exactly two refinements of a reciprocal square root estimate (R230, R238). -/
def refineRsqrt (a r0 : Word) : Word := nrRsq a (nrRsq a r0)

end Sys2Proof.Machine
end

