-- ==== Sys2Proof/Machine/FloatNewton.lean ====
section
/-! DEFINITION. Meanings of 45_float_newton.md: FRCPA, FRCP, FRSQRTA, FRSQRT, FDIV, FSQRT, each an
estimate and exactly two refinements, with no special case on top of the formulas (R241). None of
them faults: a zero divisor is no fault (R230). -/

namespace Sys2Proof.Machine

/-- The refined reciprocal of one lane (R236). -/
def rcpLane (b : Word) : Word := refineRcp b (rcpEst b)

/-- The refined reciprocal square root of one lane (R238). -/
def rsqrtLane (a : Word) : Word := refineRsqrt a (rsqrtEst a)

/-- FDIV, one lane: the numerator times the refined reciprocal (R239). -/
def fdivLane (a b : Word) : Word := fmul a (rcpLane b)

/-- FSQRT, one lane: `a * rsqrt(a)` (R240). -/
def fsqrtLane (a : Word) : Word := fmul a (rsqrtLane a)

/-- FRCPA (R235): the raw estimate. -/
def execFrcpa (vd va : Reg) (s : State) : Result :=
  .next (s.writeReg vd ((s.operand 0 va).map rcpEst))

/-- FRCP (R236). -/
def execFrcp (vd va : Reg) (s : State) : Result :=
  .next (s.writeReg vd ((s.operand 0 va).map rcpLane))

/-- FRSQRTA (R237): the raw estimate. -/
def execFrsqrta (vd va : Reg) (s : State) : Result :=
  .next (s.writeReg vd ((s.operand 0 va).map rsqrtEst))

/-- FRSQRT (R238). -/
def execFrsqrt (vd va : Reg) (s : State) : Result :=
  .next (s.writeReg vd ((s.operand 0 va).map rsqrtLane))

/-- FDIV (R239). -/
def execFdiv (vd va vb : Reg) (s : State) : Result :=
  .next (s.writeReg vd ((s.operand 0 va).map₂ fdivLane (s.operand 1 vb)))

/-- FSQRT (R240). -/
def execFsqrt (vd va : Reg) (s : State) : Result :=
  .next (s.writeReg vd ((s.operand 0 va).map fsqrtLane))

end Sys2Proof.Machine
end

