-- ==== Sys2Proof/Machine/IntegerArith.lean ====
section
/-! DEFINITION. Meanings of 42_integer_arith.md. Operands are converted to integers with
`s(x) = x.toInt` and `u(x) = x.toNat`, the result is computed exactly, and `w32` reduces it modulo
2^32 (R177). Only IDIV and IMOD can fault once decoded (R160). -/

namespace Sys2Proof.Machine

/-- IADD, one lane (R161). -/
def addLane (a b : Word) : Word := w32 (a.toInt + b.toInt)

/-- ISUB, one lane (R162). -/
def subLane (a b : Word) : Word := w32 (a.toInt - b.toInt)

/-- IMUL, one lane (R163). -/
def mulLane (a b : Word) : Word := w32 (a.toInt * b.toInt)

/-- IDIV, one lane with a nonzero divisor: the quotient rounded toward zero (R178, R164). -/
def divLane (a b : Word) : Word := w32 (a.toInt.tdiv b.toInt)

/-- IMOD, one lane with a nonzero divisor (R178, R165). -/
def modLane (a b : Word) : Word := w32 (a.toInt - a.toInt.tdiv b.toInt * b.toInt)

/-- The amount of a shift: the low 5 bits of the right operand (R170, R171). -/
def shiftAmount (b : Word) : Nat := (b.extractLsb' 0 5).toNat

/-- ISHL, one lane (R170). -/
def shlLane (a b : Word) : Word := BitVec.ofNat 32 (a.toNat * 2 ^ shiftAmount b)

/-- ISHR, one lane: arithmetic (R171). -/
def shrLane (a b : Word) : Word := w32 (a.toInt.fdiv (2 ^ shiftAmount b))

/-- IABS, one lane (R172). -/
def absLane (a : Word) : Word := w32 (if a.toInt < 0 then -a.toInt else a.toInt)

/-- The increments, one lane (R173, R174). -/
def incLane (a : Word) : Word := w32 (a.toInt + 1)

/-- The decrements, one lane (R175, R176). -/
def decLane (a : Word) : Word := w32 (a.toInt - 1)

/-- The map `z` of zero divisors: bit `k` is 1 when lane `k` is 0, zero-extended (60_exceptions.md
R283). -/
def zeroLaneMap (v : Vec) : Word :=
  (BitVec.ofBool (v.l3 == 0) ++ BitVec.ofBool (v.l2 == 0) ++ BitVec.ofBool (v.l1 == 0)
    ++ BitVec.ofBool (v.l0 == 0)).setWidth 32

/-- The divisor check of IDIV and IMOD: DIVZERO if any lane is zero, and then no lane is written
(R283), else the instruction's own effect. -/
def whenNonzero (divisor : Vec) (s next : State) : Result :=
  if zeroLaneMap divisor != 0 then .next (s.raiseFault .divzero (zeroLaneMap divisor))
  else .next next

/-- IADD (R161). -/
def execIadd (vd va vb : Reg) (s : State) : Result :=
  .next (s.writeReg vd ((s.operand 0 va).map₂ addLane (s.operand 1 vb)))

/-- ISUB (R162). -/
def execIsub (vd va vb : Reg) (s : State) : Result :=
  .next (s.writeReg vd ((s.operand 0 va).map₂ subLane (s.operand 1 vb)))

/-- IMUL (R163). -/
def execImul (vd va vb : Reg) (s : State) : Result :=
  .next (s.writeReg vd ((s.operand 0 va).map₂ mulLane (s.operand 1 vb)))

/-- IDIV (R164). -/
def execIdiv (vd va vb : Reg) (s : State) : Result :=
  whenNonzero (s.operand 1 vb) s
    (s.writeReg vd ((s.operand 0 va).map₂ divLane (s.operand 1 vb)))

/-- IMOD (R165). -/
def execImod (vd va vb : Reg) (s : State) : Result :=
  whenNonzero (s.operand 1 vb) s
    (s.writeReg vd ((s.operand 0 va).map₂ modLane (s.operand 1 vb)))

/-- IAND (R166). -/
def execIand (vd va vb : Reg) (s : State) : Result :=
  .next (s.writeReg vd (Vec.and (s.operand 0 va) (s.operand 1 vb)))

/-- IOR (R167). -/
def execIor (vd va vb : Reg) (s : State) : Result :=
  .next (s.writeReg vd (Vec.or (s.operand 0 va) (s.operand 1 vb)))

/-- IXOR (R168). -/
def execIxor (vd va vb : Reg) (s : State) : Result :=
  .next (s.writeReg vd (Vec.xor (s.operand 0 va) (s.operand 1 vb)))

/-- INOT (R169). -/
def execInot (vd va : Reg) (s : State) : Result :=
  .next (s.writeReg vd (Vec.not (s.operand 0 va)))

/-- ISHL (R170). -/
def execIshl (vd va vb : Reg) (s : State) : Result :=
  .next (s.writeReg vd ((s.operand 0 va).map₂ shlLane (s.operand 1 vb)))

/-- ISHR (R171). -/
def execIshr (vd va vb : Reg) (s : State) : Result :=
  .next (s.writeReg vd ((s.operand 0 va).map₂ shrLane (s.operand 1 vb)))

/-- IABS (R172). -/
def execIabs (vd va : Reg) (s : State) : Result :=
  .next (s.writeReg vd ((s.operand 0 va).map absLane))

/-- IPREINC (R173): both registers get the new value; `vd = va` is allowed. -/
def execIpreinc (vd va : Reg) (s : State) : Result :=
  let n := (s.operand 0 va).map incLane
  .next ((s.writeReg va n).writeReg vd n)

/-- IPOSTINC (R174): `va` gets the new value, `vd` the old one. -/
def execIpostinc (vd va : Reg) (s : State) : Result :=
  .next ((s.writeReg va ((s.operand 0 va).map incLane)).writeReg vd (s.operand 0 va))

/-- IPREDEC (R175). -/
def execIpredec (vd va : Reg) (s : State) : Result :=
  let n := (s.operand 0 va).map decLane
  .next ((s.writeReg va n).writeReg vd n)

/-- IPOSTDEC (R176). -/
def execIpostdec (vd va : Reg) (s : State) : Result :=
  .next ((s.writeReg va ((s.operand 0 va).map decLane)).writeReg vd (s.operand 0 va))

end Sys2Proof.Machine
end

