-- ==== Sys2Proof/Machine/IntegerCompare.lean ====
section
/-! DEFINITION. Meanings of 43_integer_compare_mask.md: signed comparisons and logical operators that
give a Mask (R190, R203), and the mask combinators. None of them faults once decoded. -/

namespace Sys2Proof.Machine

/-- ICLT, one lane (R191). -/
def ltLane (a b : Word) : Word := maskLane (decide (a.toInt < b.toInt))

/-- ICGT, one lane (R192). -/
def gtLane (a b : Word) : Word := maskLane (decide (a.toInt > b.toInt))

/-- ICEQ, one lane: equality of bit patterns (R193). -/
def eqLane (a b : Word) : Word := maskLane (a == b)

/-- ICNE, one lane (R194). -/
def neLane (a b : Word) : Word := maskLane (a != b)

/-- ICLE, one lane (R195). -/
def leLane (a b : Word) : Word := maskLane (decide (a.toInt ≤ b.toInt))

/-- ICGE, one lane (R196). -/
def geLane (a b : Word) : Word := maskLane (decide (a.toInt ≥ b.toInt))

/-- ILAND, one lane: any nonzero pattern is true (R197). -/
def landLane (a b : Word) : Word := maskLane (a != 0 && b != 0)

/-- ILOR, one lane (R198). -/
def lorLane (a b : Word) : Word := maskLane (a != 0 || b != 0)

/-- ICLT (R191). -/
def execIclt (vd va vb : Reg) (s : State) : Result :=
  .next (s.writeReg vd ((s.operand 0 va).map₂ ltLane (s.operand 1 vb)))

/-- ICGT (R192). -/
def execIcgt (vd va vb : Reg) (s : State) : Result :=
  .next (s.writeReg vd ((s.operand 0 va).map₂ gtLane (s.operand 1 vb)))

/-- ICEQ (R193). -/
def execIceq (vd va vb : Reg) (s : State) : Result :=
  .next (s.writeReg vd ((s.operand 0 va).map₂ eqLane (s.operand 1 vb)))

/-- ICNE (R194). -/
def execIcne (vd va vb : Reg) (s : State) : Result :=
  .next (s.writeReg vd ((s.operand 0 va).map₂ neLane (s.operand 1 vb)))

/-- ICLE (R195). -/
def execIcle (vd va vb : Reg) (s : State) : Result :=
  .next (s.writeReg vd ((s.operand 0 va).map₂ leLane (s.operand 1 vb)))

/-- ICGE (R196). -/
def execIcge (vd va vb : Reg) (s : State) : Result :=
  .next (s.writeReg vd ((s.operand 0 va).map₂ geLane (s.operand 1 vb)))

/-- ILAND (R197). -/
def execIland (vd va vb : Reg) (s : State) : Result :=
  .next (s.writeReg vd ((s.operand 0 va).map₂ landLane (s.operand 1 vb)))

/-- ILOR (R198). -/
def execIlor (vd va vb : Reg) (s : State) : Result :=
  .next (s.writeReg vd ((s.operand 0 va).map₂ lorLane (s.operand 1 vb)))

/-- CZERO (R199), bitwise for any `vm` (R202). Log 10. -/
def execCzero (vd vm va : Reg) (s : State) : Result :=
  .next (s.writeReg vd (Vec.and (s.operand 1 va) (Vec.not (s.operand 0 vm))))

/-- NOTCZERO (R200), bitwise for any `vm` (R202). Log 10. -/
def execNotczero (vd vm va : Reg) (s : State) : Result :=
  .next (s.writeReg vd (Vec.and (s.operand 1 va) (s.operand 0 vm)))

/-- MERGE (R201), bitwise for any `vm` (R202). Log 10. -/
def execMerge (vd vm vt vf : Reg) (s : State) : Result :=
  .next (s.writeReg vd (Vec.or (Vec.and (s.operand 1 vt) (s.operand 0 vm))
    (Vec.and (s.operand 2 vf) (Vec.not (s.operand 0 vm)))))

end Sys2Proof.Machine
end

