-- ==== Sys2Proof/Machine/Flags.lean ====
section
/-! DEFINITION. The condition flag's two computations, the fields of the fault status register, the
status port, and the mask property. There are no other flags (10_state.md R25, 44_float_arith.md
R211). -/

namespace Sys2Proof.Machine

/-- VANY: some lane is not the all-zero pattern (40_vector_base.md R110). -/
def anyNonzero (v : Vec) : Bool := v.l0 != 0 || v.l1 != 0 || v.l2 != 0 || v.l3 != 0

/-- VALL: no lane is the all-zero pattern (R111). -/
def allNonzero (v : Vec) : Bool := v.l0 != 0 && v.l1 != 0 && v.l2 != 0 && v.l3 != 0

/-- A Mask: every lane is all-0 or all-1 (43_integer_compare_mask.md R203). -/
def Vec.isMask (v : Vec) : Bool := v.toList.all fun x => x == ALL0 || x == ALL1

/-- `FSR.F`, bit 0: a fault has been recorded (10_state.md R27). -/
def State.faulted (s : State) : Bool := s.fsr.getLsbD 0

/-- `FSR.CAUSE`, bits 3:1 (R27). -/
def State.faultCause (s : State) : BitVec 3 := s.fsr.extractLsb' 1 3

/-- What the status port carries (R34). -/
structure StatusPort where
  cf : Bool
  xr : Word
  fsr : Word
  finfo : Word
deriving DecidableEq, Repr

/-- The status port, readable at any time between commands (R34). `CF` and `XR` show a free value until a
command has written them (R33). Log 2. -/
def State.status (s : State) : StatusPort where
  cf := if s.cfWritten then s.cf else Config.unwrittenCF s.taken
  xr := if s.xrWritten then s.xr else Config.unwrittenXR s.taken
  fsr := s.fsr
  finfo := s.finfo

end Sys2Proof.Machine
end

