-- ==== Sys2Proof/Machine/VectorBase.lean ====
section
/-! DEFINITION. Meanings of 40_vector_base.md: VANY, VALL, VSPLAT, VSHUF, VSWAP, VTRN, VMOV, VSET,
VBCAST, LGET, LSET. None of them faults once decoded. -/

namespace Sys2Proof.Machine

/-- VANY (R110). -/
def execVany (va : Reg) (s : State) : Result := .next (s.writeCF (anyNonzero (s.operand 0 va)))

/-- VALL (R111). -/
def execVall (va : Reg) (s : State) : Result := .next (s.writeCF (allNonzero (s.operand 0 va)))

/-- VSPLAT (R112). -/
def execVsplat (vd va : Reg) (n : Fin 4) (s : State) : Result :=
  .next (s.writeReg vd (.splat ((s.operand 0 va).lane n)))

/-- VSHUF (R113). -/
def execVshuf (vd va : Reg) (sel : BitVec 8) (s : State) : Result :=
  .next (s.writeReg vd (Vec.shuffle (s.operand 0 va) sel))

/-- VSWAP (R115). With `va = vb` every written lane keeps its value. -/
def execVswap (va vb : Reg) (s : State) : Result :=
  .next ((s.writeReg va (s.operand 1 vb)).writeReg vb (s.operand 0 va))

/-- VTRN (R116). The four registers are pairwise different (R88). -/
def execVtrn (va vb vc vd : Reg) (s : State) : Result :=
  let t := transpose ⟨s.operand 0 va, s.operand 1 vb, s.operand 2 vc, s.operand 3 vd⟩
  .next ((((s.writeReg va t.l0).writeReg vb t.l1).writeReg vc t.l2).writeReg vd t.l3)

/-- VMOV (R118). -/
def execVmov (vd va : Reg) (s : State) : Result := .next (s.writeReg vd (s.operand 0 va))

/-- VSET (R119): operand word `j` becomes lane `j`. -/
def execVset (vd : Reg) (x : Vec) (s : State) : Result := .next (s.writeReg vd x)

/-- VBCAST (R120). -/
def execVbcast (vd : Reg) (x : Word) (s : State) : Result := .next (s.writeReg vd (.splat x))

/-- LGET (R121). -/
def execLget (va : Reg) (n : Fin 4) (s : State) : Result :=
  .next (s.writeXR ((s.operand 0 va).lane n))

/-- LSET (R122). -/
def execLset (vd : Reg) (n : Fin 4) (x : Word) (s : State) : Result := .next (s.writeLane vd n x)

end Sys2Proof.Machine
end

