-- ==== Sys2Proof/Machine/VectorMemory.lean ====
section
/-! DEFINITION. Meanings of 41_vector_memory.md: plain and streaming loads and stores, block copy and
swap, and the transposed family. Execution order is that of R130: alignment of every pointer, then
all reads, then all writes. None of them writes `CF` or `XR`. -/

namespace Sys2Proof.Machine

/-- VLD (R131). -/
def execVld (vd : Reg) (addr : Word) (s : State) : Result :=
  whenAligned 16 [addr] s (s.putReg vd ⟨s.mem.readVec addr, s.mem.vecMarks addr⟩)

/-- VST (R132). -/
def execVst (va : Reg) (addr : Word) (s : State) : Result :=
  whenAligned 16 [addr] s (s.withMem (s.mem.writeVec addr (s.operand 0 va)))

/-- VSTS (R133): the hint changes no state (20_memory.md R66). It shows in `portAccesses`. -/
def execVsts (va : Reg) (addr : Word) (s : State) : Result :=
  whenAligned 16 [addr] s (s.withMem (s.mem.writeVec addr (s.operand 0 va)))

/-- MCOPY (R134). -/
def execMcopy (dst src : Word) (s : State) : Result :=
  whenAligned 16 [dst, src] s (s.withMem (s.mem.writeVec dst (s.mem.readVec src)))

/-- MSWAP (R135): both reads before both writes. Two aligned blocks are identical or disjoint, and for
identical ones both writes carry the same block (20_memory.md R67). -/
def execMswap (p q : Word) (s : State) : Result :=
  whenAligned 16 [p, q] s
    (s.withMem ((s.mem.writeVec p (s.mem.readVec q)).writeVec q (s.mem.readVec p)))

/-- LD4X1TR (R137): no alignment. -/
def execLd4x1tr (va : Reg) (ptrs : Quad Word) (s : State) : Result :=
  .next (s.putReg va (s.gather ptrs 0))

/-- LD4X2TR (R138). -/
def execLd4x2tr (va vb : Reg) (ptrs : Quad Word) (s : State) : Result :=
  whenAligned 8 ptrs.toList s ((s.putReg va (s.gather ptrs 0)).putReg vb (s.gather ptrs 1))

/-- LD4X3TR (R139). The fourth word of each structure is read and discarded. -/
def execLd4x3tr (va vb vc : Reg) (ptrs : Quad Word) (s : State) : Result :=
  whenAligned 16 ptrs.toList s
    (((s.putReg va (s.gather ptrs 0)).putReg vb (s.gather ptrs 1)).putReg vc (s.gather ptrs 2))

/-- LD4X4TR (R140). -/
def execLd4x4tr (va vb vc vd : Reg) (ptrs : Quad Word) (s : State) : Result :=
  whenAligned 16 ptrs.toList s
    ((((s.putReg va (s.gather ptrs 0)).putReg vb (s.gather ptrs 1)).putReg vc
      (s.gather ptrs 2)).putReg vd (s.gather ptrs 3))

/-- ST4X1TR (R141): no alignment. -/
def execSt4x1tr (va : Reg) (ptrs : Quad Word) (s : State) : Result :=
  .next (s.scatter (scatterWrites ptrs [s.operand 0 va]))

/-- ST4X2TR (R142). -/
def execSt4x2tr (va vb : Reg) (ptrs : Quad Word) (s : State) : Result :=
  whenAligned 8 ptrs.toList s (s.scatter (scatterWrites ptrs [s.operand 0 va, s.operand 1 vb]))

/-- ST4X3TR (R143). The fourth word of each structure keeps its value. -/
def execSt4x3tr (va vb vc : Reg) (ptrs : Quad Word) (s : State) : Result :=
  whenAligned 16 ptrs.toList s
    (s.scatter (scatterWrites ptrs [s.operand 0 va, s.operand 1 vb, s.operand 2 vc]))

/-- ST4X4TR (R144). -/
def execSt4x4tr (va vb vc vd : Reg) (ptrs : Quad Word) (s : State) : Result :=
  whenAligned 16 ptrs.toList s
    (s.scatter (scatterWrites ptrs [s.operand 0 va, s.operand 1 vb, s.operand 2 vc, s.operand 3 vd]))

end Sys2Proof.Machine
end

