-- ==== Sys2Proof/Machine/Dispatch.lean ====
section
/-! DEFINITION. One arm for each instruction of the opcode map (30_encoding.md R86). -/

namespace Sys2Proof.Machine

def exec (i : Instr) (s : State) : Host.Outcome State Fault Refusal :=
  match i with
  | .vany va => Sys2Proof.Machine.execVany va s
  | .vall va => Sys2Proof.Machine.execVall va s
  | .vsplat vd va n => Sys2Proof.Machine.execVsplat vd va n s
  | .vshuf vd va sel => Sys2Proof.Machine.execVshuf vd va sel s
  | .vswap va vb => Sys2Proof.Machine.execVswap va vb s
  | .vtrn va vb vc vd => Sys2Proof.Machine.execVtrn va vb vc vd s
  | .vmov vd va => Sys2Proof.Machine.execVmov vd va s
  | .vset vd x => Sys2Proof.Machine.execVset vd x s
  | .vbcast vd x => Sys2Proof.Machine.execVbcast vd x s
  | .lget va n => Sys2Proof.Machine.execLget va n s
  | .lset vd n x => Sys2Proof.Machine.execLset vd n x s
  | .vld vd addr => Sys2Proof.Machine.execVld vd addr s
  | .vst va addr => Sys2Proof.Machine.execVst va addr s
  | .vsts va addr => Sys2Proof.Machine.execVsts va addr s
  | .mcopy dst src => Sys2Proof.Machine.execMcopy dst src s
  | .mswap p q => Sys2Proof.Machine.execMswap p q s
  | .minc va addr => Sys2Proof.Machine.execMinc va addr s
  | .mdec va addr => Sys2Proof.Machine.execMdec va addr s
  | .mscale va addr => Sys2Proof.Machine.execMscale va addr s
  | .ld4x1tr va ptrs => Sys2Proof.Machine.execLd4x1tr va ptrs s
  | .ld4x2tr va vb ptrs => Sys2Proof.Machine.execLd4x2tr va vb ptrs s
  | .ld4x3tr va vb vc ptrs => Sys2Proof.Machine.execLd4x3tr va vb vc ptrs s
  | .ld4x4tr va vb vc vd ptrs => Sys2Proof.Machine.execLd4x4tr va vb vc vd ptrs s
  | .st4x1tr va ptrs => Sys2Proof.Machine.execSt4x1tr va ptrs s
  | .st4x2tr va vb ptrs => Sys2Proof.Machine.execSt4x2tr va vb ptrs s
  | .st4x3tr va vb vc ptrs => Sys2Proof.Machine.execSt4x3tr va vb vc ptrs s
  | .st4x4tr va vb vc vd ptrs => Sys2Proof.Machine.execSt4x4tr va vb vc vd ptrs s
  | .iadd vd va vb => Sys2Proof.Machine.execIadd vd va vb s
  | .isub vd va vb => Sys2Proof.Machine.execIsub vd va vb s
  | .imul vd va vb => Sys2Proof.Machine.execImul vd va vb s
  | .idiv vd va vb => Sys2Proof.Machine.execIdiv vd va vb s
  | .imod vd va vb => Sys2Proof.Machine.execImod vd va vb s
  | .iand vd va vb => Sys2Proof.Machine.execIand vd va vb s
  | .ior vd va vb => Sys2Proof.Machine.execIor vd va vb s
  | .ixor vd va vb => Sys2Proof.Machine.execIxor vd va vb s
  | .inot vd va => Sys2Proof.Machine.execInot vd va s
  | .ishl vd va vb => Sys2Proof.Machine.execIshl vd va vb s
  | .ishr vd va vb => Sys2Proof.Machine.execIshr vd va vb s
  | .iabs vd va => Sys2Proof.Machine.execIabs vd va s
  | .ipreinc vd va => Sys2Proof.Machine.execIpreinc vd va s
  | .ipostinc vd va => Sys2Proof.Machine.execIpostinc vd va s
  | .ipredec vd va => Sys2Proof.Machine.execIpredec vd va s
  | .ipostdec vd va => Sys2Proof.Machine.execIpostdec vd va s
  | .iclt vd va vb => Sys2Proof.Machine.execIclt vd va vb s
  | .icgt vd va vb => Sys2Proof.Machine.execIcgt vd va vb s
  | .iceq vd va vb => Sys2Proof.Machine.execIceq vd va vb s
  | .icne vd va vb => Sys2Proof.Machine.execIcne vd va vb s
  | .icle vd va vb => Sys2Proof.Machine.execIcle vd va vb s
  | .icge vd va vb => Sys2Proof.Machine.execIcge vd va vb s
  | .iland vd va vb => Sys2Proof.Machine.execIland vd va vb s
  | .ilor vd va vb => Sys2Proof.Machine.execIlor vd va vb s
  | .czero vd vm va => Sys2Proof.Machine.execCzero vd vm va s
  | .notczero vd vm va => Sys2Proof.Machine.execNotczero vd vm va s
  | .merge vd vm vt vf => Sys2Proof.Machine.execMerge vd vm vt vf s
  | .fadd vd va vb => Sys2Proof.Machine.execFadd vd va vb s
  | .fsub vd va vb => Sys2Proof.Machine.execFsub vd va vb s
  | .fmul vd va vb => Sys2Proof.Machine.execFmul vd va vb s
  | .fdiv vd va vb => Sys2Proof.Machine.execFdiv vd va vb s
  | .frcpa vd va => Sys2Proof.Machine.execFrcpa vd va s
  | .frcp vd va => Sys2Proof.Machine.execFrcp vd va s
  | .frsqrta vd va => Sys2Proof.Machine.execFrsqrta vd va s
  | .frsqrt vd va => Sys2Proof.Machine.execFrsqrt vd va s
  | .fsqrt vd va => Sys2Proof.Machine.execFsqrt vd va s
  | .fabs vd va => Sys2Proof.Machine.execFabs vd va s
  | .fcpsgn vd va vb => Sys2Proof.Machine.execFcpsgn vd va vb s
  | .fma vd va vb vc => Sys2Proof.Machine.execFma vd va vb vc s
  | .fnms vd va vb vc => Sys2Proof.Machine.execFnms vd va vb vc s
  | .fms vd va vb vc => Sys2Proof.Machine.execFms vd va vb vc s
  | .fclt vd va vb => Sys2Proof.Machine.execFclt vd va vb s
  | .fcgt vd va vb => Sys2Proof.Machine.execFcgt vd va vb s
  | .fceq vd va vb => Sys2Proof.Machine.execFceq vd va vb s
  | .fcne vd va vb => Sys2Proof.Machine.execFcne vd va vb s
  | .fcle vd va vb => Sys2Proof.Machine.execFcle vd va vb s
  | .fcge vd va vb => Sys2Proof.Machine.execFcge vd va vb s
  | .fclrb vd vm va => Sys2Proof.Machine.execFclrb vd vm va s
  | .fsetb vd vm va => Sys2Proof.Machine.execFsetb vd vm va s
  | .ftglb vd vm va => Sys2Proof.Machine.execFtglb vd vm va s

end Sys2Proof.Machine
end

