-- ==== Sys2Proof/Machine/Step.lean ====
section
/-! DEFINITION. One step: the datapath takes the next host input (10_state.md R24, R34). Commands do
not come from memory (20_memory.md R65). -/

namespace Sys2Proof.Machine

/-- Run one beat: discarded in the faulted state (60_exceptions.md R285), else decoded, an undecodable
word raising ILLEGAL with `FINFO = W` (R281), and executed (R286). -/
def runBeat (b : Beat) (s : State) : Result :=
  if s.faulted then .next s
  else match decode b with
    | .error _ => .next (s.raiseFault .illegal b.w)
    | .ok i => exec i s

/-- One step. With no input waiting the run is over and nothing changes (R24, 70_reset_and_hazards.md
R315). Log 8. -/
def step (s : State) : Host.Outcome State Fault Refusal :=
  match s.inputs with
  | [] => .next s
  | .reset :: rest => .next (s.takeInput rest).resetInput
  | .beat b :: rest => runBeat b (s.takeInput rest)

/-- The state in which the beat whose bits are `w` is the next input. -/
def State.withFetchWord (s : State) (nbits w : Nat) : State :=
  { s with inputs := .beat (beatOfBits nbits w) :: s.inputs }

/-- The start of a run: the reset state, the memory the host supplies, and a finite list of beats
(R315). -/
def State.start (m : Memory) (program : List Beat) : State :=
  { State.reset with mem := m, inputs := program.map .beat }

end Sys2Proof.Machine
end

