-- ==== Sys2Proof/Machine/Footprint.lean ====
section
/-! DEFINITION. What each instruction may touch: the registers it writes (10_state.md R23) and the lanes
it reads, the pointers and their alignment (20_memory.md R53), the fault it raises in a state
(60_exceptions.md R286), and the accesses it makes on the memory port (R55). Claims about what an
instruction leaves alone are stated with these. -/

namespace Sys2Proof

/-- The vector registers an instruction writes when it completes (R23). -/
def Instr.dests : Instr → List Reg
  | .vany .. | .vall .. | .lget .. | .vst .. | .vsts .. | .mcopy .. | .mswap .. | .minc ..
  | .mdec .. | .mscale .. | .st4x1tr .. | .st4x2tr .. | .st4x3tr .. | .st4x4tr .. => []
  | .vsplat vd _ _ | .vshuf vd _ _ | .vmov vd _ | .vset vd _ | .vbcast vd _ | .lset vd _ _
  | .vld vd _ | .iadd vd _ _ | .isub vd _ _ | .imul vd _ _ | .idiv vd _ _ | .imod vd _ _
  | .iand vd _ _ | .ior vd _ _ | .ixor vd _ _ | .inot vd _ | .ishl vd _ _ | .ishr vd _ _
  | .iabs vd _ | .iclt vd _ _ | .icgt vd _ _ | .iceq vd _ _ | .icne vd _ _ | .icle vd _ _
  | .icge vd _ _ | .iland vd _ _ | .ilor vd _ _ | .czero vd _ _ | .notczero vd _ _
  | .merge vd _ _ _ | .fadd vd _ _ | .fsub vd _ _ | .fmul vd _ _ | .fdiv vd _ _
  | .frcpa vd _ | .frcp vd _ | .frsqrta vd _ | .frsqrt vd _ | .fsqrt vd _ | .fabs vd _
  | .fcpsgn vd _ _ | .fma vd _ _ _ | .fnms vd _ _ _ | .fms vd _ _ _ | .fclt vd _ _
  | .fcgt vd _ _ | .fceq vd _ _ | .fcne vd _ _ | .fcle vd _ _ | .fcge vd _ _
  | .fclrb vd _ _ | .fsetb vd _ _ | .ftglb vd _ _ => [vd]
  | .vswap va vb | .ld4x2tr va vb _ => [va, vb]
  | .vtrn va vb vc vd | .ld4x4tr va vb vc vd _ => [va, vb, vc, vd]
  | .ld4x1tr va _ => [va]
  | .ld4x3tr va vb vc _ => [va, vb, vc]
  | .ipreinc vd va | .ipostinc vd va | .ipredec vd va | .ipostdec vd va => [vd, va]

/-- Every lane of each register. -/
def allLanes (rs : List Reg) : List (Reg × Fin 4) := rs.flatMap fun r => (List.finRange 4).map (r, ·)

/-- The register lanes an instruction reads. -/
def Instr.sources : Instr → List (Reg × Fin 4)
  | .vsplat _ va n | .lget va n => [(va, n)]
  | .vshuf _ va sel => (List.finRange 4).map fun k => (va, Machine.selectorIndex sel k)
  | .vany va | .vall va | .vmov _ va | .vst va _ | .vsts va _ | .minc va _ | .mdec va _
  | .mscale va _ | .st4x1tr va _ | .inot _ va | .iabs _ va | .ipreinc _ va | .ipostinc _ va
  | .ipredec _ va | .ipostdec _ va | .frcpa _ va | .frcp _ va | .frsqrta _ va
  | .frsqrt _ va | .fsqrt _ va | .fabs _ va => allLanes [va]
  | .vswap va vb | .st4x2tr va vb _ | .iadd _ va vb | .isub _ va vb | .imul _ va vb
  | .idiv _ va vb | .imod _ va vb | .iand _ va vb | .ior _ va vb | .ixor _ va vb
  | .ishl _ va vb | .ishr _ va vb | .iclt _ va vb | .icgt _ va vb | .iceq _ va vb
  | .icne _ va vb | .icle _ va vb | .icge _ va vb | .iland _ va vb | .ilor _ va vb
  | .fadd _ va vb | .fsub _ va vb | .fmul _ va vb | .fdiv _ va vb | .fcpsgn _ va vb
  | .fclt _ va vb | .fcgt _ va vb | .fceq _ va vb | .fcne _ va vb | .fcle _ va vb
  | .fcge _ va vb => allLanes [va, vb]
  | .vtrn va vb vc vd | .st4x4tr va vb vc vd _ => allLanes [va, vb, vc, vd]
  | .vset .. | .vbcast .. | .lset .. | .vld .. | .mcopy .. | .mswap .. | .ld4x1tr ..
  | .ld4x2tr .. | .ld4x3tr .. | .ld4x4tr .. => []
  | .st4x3tr va vb vc _ | .fma _ va vb vc | .fnms _ va vb vc | .fms _ va vb vc => allLanes [va, vb, vc]
  | .czero _ vm va | .notczero _ vm va | .fclrb _ vm va | .fsetb _ vm va | .ftglb _ vm va => allLanes [vm, va]
  | .merge _ vm vt vf => allLanes [vm, vt, vf]

/-- The operand words an instruction uses as addresses, in operand order (30_encoding.md R85). -/
def Instr.pointers : Instr → List Word
  | .vany .. | .vall .. | .vsplat .. | .vshuf .. | .vswap .. | .vtrn .. | .vmov ..
  | .vset .. | .vbcast .. | .lget .. | .lset .. | .iadd .. | .isub .. | .imul .. | .idiv ..
  | .imod .. | .iand .. | .ior .. | .ixor .. | .inot .. | .ishl .. | .ishr .. | .iabs ..
  | .ipreinc .. | .ipostinc .. | .ipredec .. | .ipostdec .. | .iclt .. | .icgt ..
  | .iceq .. | .icne .. | .icle .. | .icge .. | .iland .. | .ilor .. | .czero ..
  | .notczero .. | .merge .. | .fadd .. | .fsub .. | .fmul .. | .fdiv .. | .frcpa ..
  | .frcp .. | .frsqrta .. | .frsqrt .. | .fsqrt .. | .fabs .. | .fcpsgn .. | .fma ..
  | .fnms .. | .fms .. | .fclt .. | .fcgt .. | .fceq .. | .fcne .. | .fcle .. | .fcge ..
  | .fclrb .. | .fsetb .. | .ftglb .. => []
  | .vld _ addr | .vst _ addr | .vsts _ addr | .minc _ addr | .mdec _ addr | .mscale _ addr => [addr]
  | .mcopy dst src => [dst, src]
  | .mswap p q => [p, q]
  | .ld4x1tr _ ptrs | .ld4x2tr _ _ ptrs | .ld4x3tr _ _ _ ptrs | .ld4x4tr _ _ _ _ ptrs
  | .st4x1tr _ ptrs | .st4x2tr _ _ ptrs | .st4x3tr _ _ _ ptrs | .st4x4tr _ _ _ _ ptrs => ptrs.toList

/-- The alignment an instruction needs of its pointers (20_memory.md R53); 1 is none. -/
def Instr.alignment : Instr → Nat
  | .vany .. | .vall .. | .vsplat .. | .vshuf .. | .vswap .. | .vtrn .. | .vmov ..
  | .vset .. | .vbcast .. | .lget .. | .lset .. | .ld4x1tr .. | .st4x1tr .. | .iadd ..
  | .isub .. | .imul .. | .idiv .. | .imod .. | .iand .. | .ior .. | .ixor .. | .inot ..
  | .ishl .. | .ishr .. | .iabs .. | .ipreinc .. | .ipostinc .. | .ipredec ..
  | .ipostdec .. | .iclt .. | .icgt .. | .iceq .. | .icne .. | .icle .. | .icge ..
  | .iland .. | .ilor .. | .czero .. | .notczero .. | .merge .. | .fadd .. | .fsub ..
  | .fmul .. | .fdiv .. | .frcpa .. | .frcp .. | .frsqrta .. | .frsqrt .. | .fsqrt ..
  | .fabs .. | .fcpsgn .. | .fma .. | .fnms .. | .fms .. | .fclt .. | .fcgt .. | .fceq ..
  | .fcne .. | .fcle .. | .fcge .. | .fclrb .. | .fsetb .. | .ftglb .. => 1
  | .vld .. | .vst .. | .vsts .. | .mcopy .. | .mswap .. | .minc .. | .mdec .. | .mscale ..
  | .ld4x3tr .. | .ld4x4tr .. | .st4x3tr .. | .st4x4tr .. => 16
  | .ld4x2tr .. | .st4x2tr .. => 8

/-- The divisor register of IDIV and IMOD (60_exceptions.md R283). -/
def Instr.divisor : Instr → Option Reg
  | .idiv _ _ vb | .imod _ _ vb => some vb
  | .vany .. | .vall .. | .vsplat .. | .vshuf .. | .vswap .. | .vtrn .. | .vmov ..
  | .vset .. | .vbcast .. | .lget .. | .lset .. | .vld .. | .vst .. | .vsts .. | .mcopy ..
  | .mswap .. | .minc .. | .mdec .. | .mscale .. | .ld4x1tr .. | .ld4x2tr .. | .ld4x3tr ..
  | .ld4x4tr .. | .st4x1tr .. | .st4x2tr .. | .st4x3tr .. | .st4x4tr .. | .iadd ..
  | .isub .. | .imul .. | .iand .. | .ior .. | .ixor .. | .inot .. | .ishl .. | .ishr ..
  | .iabs .. | .ipreinc .. | .ipostinc .. | .ipredec .. | .ipostdec .. | .iclt ..
  | .icgt .. | .iceq .. | .icne .. | .icle .. | .icge .. | .iland .. | .ilor .. | .czero ..
  | .notczero .. | .merge .. | .fadd .. | .fsub .. | .fmul .. | .fdiv .. | .frcpa ..
  | .frcp .. | .frsqrta .. | .frsqrt .. | .fsqrt .. | .fabs .. | .fcpsgn .. | .fma ..
  | .fnms .. | .fms .. | .fclt .. | .fcgt .. | .fceq .. | .fcne .. | .fcle .. | .fcge ..
  | .fclrb .. | .fsetb .. | .ftglb .. => none

/-- The transposed stores: the instructions whose writes may overlap (20_memory.md R67). -/
def Instr.scatters : Instr → Bool
  | .st4x1tr .. | .st4x2tr .. | .st4x3tr .. | .st4x4tr .. => true
  | .vany .. | .vall .. | .vsplat .. | .vshuf .. | .vswap .. | .vtrn .. | .vmov ..
  | .vset .. | .vbcast .. | .lget .. | .lset .. | .vld .. | .vst .. | .vsts .. | .mcopy ..
  | .mswap .. | .minc .. | .mdec .. | .mscale .. | .ld4x1tr .. | .ld4x2tr .. | .ld4x3tr ..
  | .ld4x4tr .. | .iadd .. | .isub .. | .imul .. | .idiv .. | .imod .. | .iand .. | .ior ..
  | .ixor .. | .inot .. | .ishl .. | .ishr .. | .iabs .. | .ipreinc .. | .ipostinc ..
  | .ipredec .. | .ipostdec .. | .iclt .. | .icgt .. | .iceq .. | .icne .. | .icle ..
  | .icge .. | .iland .. | .ilor .. | .czero .. | .notczero .. | .merge .. | .fadd ..
  | .fsub .. | .fmul .. | .fdiv .. | .frcpa .. | .frcp .. | .frsqrta .. | .frsqrt ..
  | .fsqrt .. | .fabs .. | .fcpsgn .. | .fma .. | .fnms .. | .fms .. | .fclt .. | .fcgt ..
  | .fceq .. | .fcne .. | .fcle .. | .fcge .. | .fclrb .. | .fsetb .. | .ftglb .. => false

namespace Machine

/-- The fault a decoded instruction raises in a state, if any: MISALIGNED with the first offending
pointer, else DIVZERO with the map of zero divisors (60_exceptions.md R282, R283, R286). -/
def State.faultOf (s : State) (i : Instr) : Option (FaultCause × Word) :=
  match firstMisaligned i.alignment i.pointers with
  | some p => some (.misaligned, p)
  | none =>
    match i.divisor with
    | some vb =>
      if zeroLaneMap (s.operand 1 vb) != 0 then some (.divzero, zeroLaneMap (s.operand 1 vb)) else none
    | none => none

/-- One access on the memory port: its direction, address, size in bytes and the non-temporal hint
(10_state.md R34). -/
structure PortAccess where
  write : Bool
  addr : Word
  size : Nat
  hint : Bool
deriving DecidableEq, Repr

/-- A read of `size` bytes. -/
def portRead (addr : Word) (size : Nat) : PortAccess := ⟨false, addr, size, false⟩

/-- A write of `size` bytes without the hint. -/
def portWrite (addr : Word) (size : Nat) : PortAccess := ⟨true, addr, size, false⟩

/-- The accesses of an instruction on the memory port, reads first (20_memory.md R55, R61). The order
inside the reads and inside the writes means nothing. Log 16. -/
def portAccesses : Instr → List PortAccess
  | .vld _ addr => [portRead addr 16]
  | .vst _ addr => [portWrite addr 16]
  | .vsts _ addr => [⟨true, addr, 16, true⟩]
  | .mcopy dst src => [portRead src 16, portWrite dst 16]
  | .mswap p q => [portRead p 16, portRead q 16, portWrite p 16, portWrite q 16]
  | .ld4x1tr _ ptrs => ptrs.toList.map (portRead · 4)
  | .ld4x2tr _ _ ptrs => ptrs.toList.map (portRead · 8)
  | .ld4x3tr _ _ _ ptrs | .ld4x4tr _ _ _ _ ptrs => ptrs.toList.map (portRead · 16)
  | .st4x1tr _ ptrs => ptrs.toList.map (portWrite · 4)
  | .st4x2tr _ _ ptrs => ptrs.toList.map (portWrite · 8)
  | .st4x3tr _ _ _ ptrs =>
    ptrs.toList.flatMap fun p => [portWrite p 8, portWrite (elementAddr p 2) 4]
  | .st4x4tr _ _ _ _ ptrs => ptrs.toList.map (portWrite · 16)
  | .minc _ addr | .mdec _ addr | .mscale _ addr => [portRead addr 16, portWrite addr 16]
  | .vany .. | .vall .. | .vsplat .. | .vshuf .. | .vswap .. | .vtrn .. | .vmov ..
  | .vset .. | .vbcast .. | .lget .. | .lset .. | .iadd .. | .isub .. | .imul .. | .idiv ..
  | .imod .. | .iand .. | .ior .. | .ixor .. | .inot .. | .ishl .. | .ishr .. | .iabs ..
  | .ipreinc .. | .ipostinc .. | .ipredec .. | .ipostdec .. | .iclt .. | .icgt ..
  | .iceq .. | .icne .. | .icle .. | .icge .. | .iland .. | .ilor .. | .czero ..
  | .notczero .. | .merge .. | .fadd .. | .fsub .. | .fmul .. | .fdiv .. | .frcpa ..
  | .frcp .. | .frsqrta .. | .frsqrt .. | .fsqrt .. | .fabs .. | .fcpsgn .. | .fma ..
  | .fnms .. | .fms .. | .fclt .. | .fcgt .. | .fceq .. | .fcne .. | .fcle .. | .fcge ..
  | .fclrb .. | .fsetb .. | .ftglb .. => []

/-- The access touches a byte address. -/
def PortAccess.covers (p : PortAccess) (a : Word) : Bool := decide ((a - p.addr).toNat < p.size)

/-- The byte addresses an instruction may store to: those its write accesses cover (R55). -/
def mayStore (i : Instr) (a : Word) : Bool :=
  (portAccesses i).any fun p => p.write && p.covers a

/-- One access with what it carries: the data that a read returns or that a write request sends, the byte
at the lowest address first (10_state.md R34). -/
structure PortTransfer where
  access : PortAccess
  data : List Byte
deriving DecidableEq, Repr

/-- The data of an instruction's write requests, in the order of `portAccesses` (20_memory.md R55). -/
def State.writeData (s : State) : Instr → List (List Byte)
  | .vst va _ | .vsts va _ => [vecBytes (s.operand 0 va)]
  | .mcopy _ src => [vecBytes (s.mem.readVec src)]
  | .mswap p q => [vecBytes (s.mem.readVec q), vecBytes (s.mem.readVec p)]
  | .minc va addr => [vecBytes (s.rmwResult fadd va addr)]
  | .mdec va addr => [vecBytes (s.rmwResult fsub va addr)]
  | .mscale va addr => [vecBytes (s.rmwResult fmul va addr)]
  | .st4x1tr va _ => (s.operand 0 va).toList.map wordBytes
  | .st4x2tr va vb _ =>
    (List.finRange 4).map fun p =>
      wordBytes ((s.operand 0 va).lane p) ++ wordBytes ((s.operand 1 vb).lane p)
  | .st4x3tr va vb vc _ =>
    (List.finRange 4).flatMap fun p =>
      [wordBytes ((s.operand 0 va).lane p) ++ wordBytes ((s.operand 1 vb).lane p),
       wordBytes ((s.operand 2 vc).lane p)]
  | .st4x4tr va vb vc vd _ =>
    (transpose ⟨s.operand 0 va, s.operand 1 vb, s.operand 2 vc, s.operand 3 vd⟩).toList.map vecBytes
  | .vany .. | .vall .. | .vsplat .. | .vshuf .. | .vswap .. | .vtrn .. | .vmov ..
  | .vset .. | .vbcast .. | .lget .. | .lset .. | .vld .. | .ld4x1tr .. | .ld4x2tr ..
  | .ld4x3tr .. | .ld4x4tr .. | .iadd .. | .isub .. | .imul .. | .idiv .. | .imod ..
  | .iand .. | .ior .. | .ixor .. | .inot .. | .ishl .. | .ishr .. | .iabs ..
  | .ipreinc .. | .ipostinc .. | .ipredec .. | .ipostdec .. | .iclt .. | .icgt ..
  | .iceq .. | .icne .. | .icle .. | .icge .. | .iland .. | .ilor .. | .czero ..
  | .notczero .. | .merge .. | .fadd .. | .fsub .. | .fmul .. | .fdiv .. | .frcpa ..
  | .frcp .. | .frsqrta .. | .frsqrt .. | .fsqrt .. | .fabs .. | .fcpsgn .. | .fma ..
  | .fnms .. | .fms .. | .fclt .. | .fcgt .. | .fceq .. | .fcne .. | .fcle .. | .fcge ..
  | .fclrb .. | .fsetb .. | .ftglb .. => []

/-- The accesses of an instruction in a state, with their data: a read returns the bytes that memory
holds before the command (R61). -/
def State.portTransfers (s : State) (i : Instr) : List PortTransfer :=
  ((portAccesses i).filter (!·.write)).map (fun p => ⟨p, s.mem.readBytes p.addr p.size⟩) ++
    ((portAccesses i).filter (·.write)).zipWith PortTransfer.mk (s.writeData i)

/-- What the next step does on the memory port: nothing for a discarded beat (60_exceptions.md R285) or
one that faults (R284), else the transfers of the instruction. -/
def State.stepTransfers (s : State) : List PortTransfer :=
  match s.inputs with
  | [] | .reset :: _ => []
  | .beat b :: rest =>
    if s.faulted then []
    else match decode b with
      | .error _ => []
      | .ok i =>
        if ((s.takeInput rest).faultOf i).isSome then [] else (s.takeInput rest).portTransfers i

/-- The accesses that the next step makes, without their data. -/
def State.stepAccesses (s : State) : List PortAccess := s.stepTransfers.map (·.access)

end Machine

end Sys2Proof
end

