-- ==== Sys2Proof/Safety.lean ====
section
/-! DEFINITION. The terms that claims use: the invariant of the machine, what a program must respect
for a defined result (70_reset_and_hazards.md R313), agreement of two states on what has been written
(10_state.md R33), and equality of states apart from named parts. -/

namespace Sys2Proof.Machine

/-! ## The invariant -/

/-- `FINFO` holds what its cause says (10_state.md R28): with no fault 0; for ILLEGAL a word that is
no instruction; for MISALIGNED an address that some alignment refuses; for DIVZERO a nonzero lane map
in bits 3:0. -/
def faultInfoLegal (fsr finfo : Word) : Prop :=
  (fsr = 0 ∧ finfo = 0) ∨
  (fsr = faultStatus .illegal ∧ legalWord finfo = false) ∨
  (fsr = faultStatus .misaligned ∧ finfo.toNat % 16 ≠ 0) ∨
  (fsr = faultStatus .divzero ∧ finfo ≠ 0 ∧ finfo.toNat < 16)

/-- The invariant of every reachable state: memory in its canonical form, and the fault registers
legal (R27, R28), so that `FSR` is 0, 3, 5 or 7 and its reserved bits are 0. -/
def State.Inv (s : State) : Prop := s.mem.wf = true ∧ faultInfoLegal s.fsr s.finfo

/-! ## What a program must respect (R313) -/

/-- The byte ranges of `n` bytes at the four pointers are pairwise disjoint, modulo 2^32. -/
def pointersDisjoint (n : Nat) (ptrs : Quad Word) : Prop :=
  ∀ p q : Fin 4, p ≠ q → ∀ i j : Fin n,
    ptrs.lane p + BitVec.ofNat 32 i ≠ ptrs.lane q + BitVec.ofNat 32 j

/-- (a) The write ranges of a transposed store are pairwise disjoint (R313, 20_memory.md R67). -/
def writesDisjoint : Instr → Prop
  | .st4x1tr _ ptrs => pointersDisjoint 4 ptrs
  | .st4x2tr _ _ ptrs => pointersDisjoint 8 ptrs
  | .st4x3tr _ _ _ ptrs => pointersDisjoint 12 ptrs
  | .st4x4tr _ _ _ _ ptrs => pointersDisjoint 16 ptrs
  | .vany .. | .vall .. | .vsplat .. | .vshuf .. | .vswap .. | .vtrn .. | .vmov ..
  | .vset .. | .vbcast .. | .lget .. | .lset .. | .vld .. | .vst .. | .vsts .. | .mcopy ..
  | .mswap .. | .minc .. | .mdec .. | .mscale .. | .ld4x1tr .. | .ld4x2tr .. | .ld4x3tr ..
  | .ld4x4tr .. | .iadd .. | .isub .. | .imul .. | .idiv .. | .imod .. | .iand .. | .ior ..
  | .ixor .. | .inot .. | .ishl .. | .ishr .. | .iabs .. | .ipreinc .. | .ipostinc ..
  | .ipredec .. | .ipostdec .. | .iclt .. | .icgt .. | .iceq .. | .icne .. | .icle ..
  | .icge .. | .iland .. | .ilor .. | .czero .. | .notczero .. | .merge .. | .fadd ..
  | .fsub .. | .fmul .. | .fdiv .. | .frcpa .. | .frcp .. | .frsqrta .. | .frsqrt ..
  | .fsqrt .. | .fabs .. | .fcpsgn .. | .fma .. | .fnms .. | .fms .. | .fclt .. | .fcgt ..
  | .fceq .. | .fcne .. | .fcle .. | .fcge .. | .fclrb .. | .fsetb .. | .ftglb .. => True

/-- (c) Every lane the instruction reads has been written since reset (R313, R33). -/
def State.readsWritten (s : State) (i : Instr) : Bool :=
  i.sources.all fun rk => (s.marks rk.1).lane rk.2

/-- (d) The `vm` operand of CZERO, NOTCZERO and MERGE is a Mask (R313, 43_integer_compare_mask.md
R202). -/
def State.maskOperandOk (s : State) : Instr → Bool
  | .czero _ vm _ | .notczero _ vm _ | .merge _ vm _ _ => Vec.isMask (s.operand 0 vm)
  | .vany .. | .vall .. | .vsplat .. | .vshuf .. | .vswap .. | .vtrn .. | .vmov ..
  | .vset .. | .vbcast .. | .lget .. | .lset .. | .vld .. | .vst .. | .vsts .. | .mcopy ..
  | .mswap .. | .minc .. | .mdec .. | .mscale .. | .ld4x1tr .. | .ld4x2tr .. | .ld4x3tr ..
  | .ld4x4tr .. | .st4x1tr .. | .st4x2tr .. | .st4x3tr .. | .st4x4tr .. | .iadd ..
  | .isub .. | .imul .. | .idiv .. | .imod .. | .iand .. | .ior .. | .ixor .. | .inot ..
  | .ishl .. | .ishr .. | .iabs .. | .ipreinc .. | .ipostinc .. | .ipredec ..
  | .ipostdec .. | .iclt .. | .icgt .. | .iceq .. | .icne .. | .icle .. | .icge ..
  | .iland .. | .ilor .. | .fadd .. | .fsub .. | .fmul .. | .fdiv .. | .frcpa .. | .frcp ..
  | .frsqrta .. | .frsqrt .. | .fsqrt .. | .fabs .. | .fcpsgn .. | .fma .. | .fnms ..
  | .fms .. | .fclt .. | .fcgt .. | .fceq .. | .fcne .. | .fcle .. | .fcge .. | .fclrb ..
  | .fsetb .. | .ftglb .. => true

/-- A finite, nonzero operand in the range where the reciprocal estimator is bound (R231). -/
def accurateOperand (b : Word) : Bool := isFinite b && rcpAccurateRange b

/-- A positive normal operand, where the reciprocal square root estimator is bound (R232). -/
def accurateRadicand (a : Word) : Bool := isFinite a && !signBit a && expo a != 0

/-- (e) The operands of the refined family are finite, nonzero and in the range of R231 (the numerator of
FDIV too) or, for the square roots, positive and in that of R232 (R313). -/
def State.accurateOperands (s : State) : Instr → Bool
  | .frcp _ va => (s.operand 0 va).toList.all accurateOperand
  | .fdiv _ va vb =>
    (s.operand 0 va).toList.all accurateOperand && (s.operand 1 vb).toList.all accurateOperand
  | .frsqrt _ va | .fsqrt _ va => (s.operand 0 va).toList.all accurateRadicand
  | .vany .. | .vall .. | .vsplat .. | .vshuf .. | .vswap .. | .vtrn .. | .vmov ..
  | .vset .. | .vbcast .. | .lget .. | .lset .. | .vld .. | .vst .. | .vsts .. | .mcopy ..
  | .mswap .. | .minc .. | .mdec .. | .mscale .. | .ld4x1tr .. | .ld4x2tr .. | .ld4x3tr ..
  | .ld4x4tr .. | .st4x1tr .. | .st4x2tr .. | .st4x3tr .. | .st4x4tr .. | .iadd ..
  | .isub .. | .imul .. | .idiv .. | .imod .. | .iand .. | .ior .. | .ixor .. | .inot ..
  | .ishl .. | .ishr .. | .iabs .. | .ipreinc .. | .ipostinc .. | .ipredec ..
  | .ipostdec .. | .iclt .. | .icgt .. | .iceq .. | .icne .. | .icle .. | .icge ..
  | .iland .. | .ilor .. | .czero .. | .notczero .. | .merge .. | .fadd .. | .fsub ..
  | .fmul .. | .frcpa .. | .frsqrta .. | .fabs .. | .fcpsgn .. | .fma .. | .fnms ..
  | .fms .. | .fclt .. | .fcgt .. | .fceq .. | .fcne .. | .fcle .. | .fcge .. | .fclrb ..
  | .fsetb .. | .ftglb .. => true

/-- The preconditions of R313 for one instruction in one state. Point (b), other agents, is outside the
model (log 12). -/
def State.respects (s : State) (i : Instr) : Prop :=
  writesDisjoint i ∧ s.readsWritten i = true ∧ s.maskOperandOk i = true ∧
    s.accurateOperands i = true

/-! ## Comparing states -/

/-- Two registers with the same marks that agree in every written lane. -/
def VReg.agree (v w : VReg) : Prop :=
  v.written = w.written ∧ ∀ k, v.written.lane k = true → v.val.lane k = w.val.lane k

/-- Two states that differ at most in what no command has written since reset (R33), unwritten lanes, an
unwritten `CF`, an unwritten `XR`, and in the count that free values are drawn by. -/
def State.agreeOnWritten (s t : State) : Prop :=
  (∀ r, VReg.agree (s.regs.get r) (t.regs.get r)) ∧
  (s.cfWritten = t.cfWritten ∧ (s.cfWritten = true → s.cf = t.cf)) ∧
  (s.xrWritten = t.xrWritten ∧ (s.xrWritten = true → s.xr = t.xr)) ∧
  s.fsr = t.fsr ∧ s.finfo = t.finfo ∧ s.mem = t.mem ∧ s.inputs = t.inputs

/-- Every byte of memory reads as before but for those whose addresses `p` holds of. -/
def State.bytesKept (s t : State) (p : Word → Bool) : Prop :=
  ∀ a, p a = false → t.mem.byteAt a = s.mem.byteAt a

/-- `t` differs from `s` in the vector registers `rs` alone: every other register keeps its value and
marks, every byte of memory reads as before, and `CF`, `XR`, `FSR`, `FINFO` and the model's own fields
are unchanged. -/
def State.changesOnly (s t : State) (rs : List Reg) : Prop :=
  { t with regs := s.regs } = s ∧ (∀ r, r ∉ rs → t.regs.get r = s.regs.get r) ∧
  s.bytesKept t fun _ => false

/-- `t` differs from `s` in the bytes of memory that `p` holds of alone: every register, `CF`,
`XR`, `FSR` and `FINFO` is unchanged. -/
def State.storesOnly (s t : State) (p : Word → Bool) : Prop :=
  { t with mem := s.mem } = s ∧ s.bytesKept t p

/-! ## Rows of the opcode map -/

/-- The beat with these fields and operand words (30_encoding.md R80, R81, R82). -/
def beatOf (op : Nat) (a b c d : Reg) (i : BitVec 8) (x : Quad Word) : Beat :=
  ⟨assembleWord op ⟨a, b, c, d, i, x⟩, x⟩

/-- Whatever the operand words, a beat with these fields is this instruction, or raises ILLEGAL if its
register combination is reserved (R86, R88). -/
def encodesRow (op : Nat) (a b c d : Reg) (i : BitVec 8) (ins : Quad Word → Instr) : Prop :=
  ∀ x, decode (beatOf op a b c d i x) =
    if (ins x).wellFormed then .ok (ins x) else .error .reservedRegisters

/-- The bits of the command word that a format reserves (R82). -/
def reservedMask : Format → Word
  | .z => 0x00FFFFFF#32
  | .r1 => 0x000FFFFF#32
  | .r2 => 0x0000FFFF#32
  | .r3 => 0x00000FFF#32
  | .r4 => 0x000000FF#32
  | .r1i => 0x000FFFFC#32
  | .r2i2 => 0x0000FFFC#32
  | .r2i8 => 0x0000FF00#32

/-- The unassigned opcodes, as 30_encoding.md R87 lists them. -/
def unassignedOpcode (op : Nat) : Bool :=
  op == 0x00 || (0x0C ≤ op && op ≤ 0x0F) || (0x3B ≤ op && op ≤ 0x3F) || op == 0x4E || op == 0x4F
    || op == 0x56 || op == 0x57 || (0x5B ≤ op && op ≤ 0x5F) || (0x60 ≤ op && op ≤ 0xFF)

/-- A row of format R2 that acts lane by lane: its encoding, that it completes in every state, what
each lane of `vd` becomes, and that nothing else changes. -/
def lanewiseUnary (op : Nat) (ins : Reg → Reg → Instr) (f : Word → Word) : Prop :=
  ∀ (vd va : Reg) (s : State), encodesRow op vd va 0 0 0 (fun _ => ins vd va) ∧
    ∃ t, exec (ins vd va) s = .next t ∧ s.changesOnly t [vd] ∧ t.marks vd = .splat true ∧
      ∀ k, (t.readReg vd).lane k = f ((s.operand 0 va).lane k)

/-- A row of format R3 that acts lane by lane. -/
def lanewiseBinary (op : Nat) (ins : Reg → Reg → Reg → Instr) (f : Word → Word → Word) : Prop :=
  ∀ (vd va vb : Reg) (s : State), encodesRow op vd va vb 0 0 (fun _ => ins vd va vb) ∧
    ∃ t, exec (ins vd va vb) s = .next t ∧ s.changesOnly t [vd] ∧ t.marks vd = .splat true ∧
      ∀ k, (t.readReg vd).lane k = f ((s.operand 0 va).lane k) ((s.operand 1 vb).lane k)

/-- A row of format R4 that acts lane by lane. -/
def lanewiseTernary (op : Nat) (ins : Reg → Reg → Reg → Reg → Instr)
    (f : Word → Word → Word → Word) : Prop :=
  ∀ (vd va vb vc : Reg) (s : State), encodesRow op vd va vb vc 0 (fun _ => ins vd va vb vc) ∧
    ∃ t, exec (ins vd va vb vc) s = .next t ∧ s.changesOnly t [vd] ∧ t.marks vd = .splat true ∧
      ∀ k, (t.readReg vd).lane k =
        f ((s.operand 0 va).lane k) ((s.operand 1 vb).lane k) ((s.operand 2 vc).lane k)

/-- A row of format R3 that acts on all 128 bits of its second and third register fields. -/
def bitwiseRow (op : Nat) (ins : Reg → Reg → Reg → Instr)
    (f : BitVec 128 → BitVec 128 → BitVec 128) : Prop :=
  ∀ (vd va vb : Reg) (s : State), encodesRow op vd va vb 0 0 (fun _ => ins vd va vb) ∧
    ∃ t, exec (ins vd va vb) s = .next t ∧ s.changesOnly t [vd] ∧ t.marks vd = .splat true ∧
      (t.readReg vd).bits = f (s.operand 0 va).bits (s.operand 1 vb).bits

/-- Byte `j` of a word, the least significant first (20_memory.md R51). -/
def byteOf (x : Word) (j : Fin 4) : Byte := x.extractLsb' (8 * j.val) 8

/-- The four bytes at an address are those of a word, in little-endian order (R51). -/
def Memory.holds (m : Memory) (a x : Word) : Prop :=
  ∀ j : Fin 4, m.byteAt (a + BitVec.ofNat 32 j) = byteOf x j

/-- The host or a command has written all four bytes at an address (70_reset_and_hazards.md R311). -/
def Memory.defined (m : Memory) (a : Word) : Prop :=
  ∀ j : Fin 4, (m.find (a + BitVec.ofNat 32 j).toNat).isSome = true

/-- Lane `p` of a register is the word at element `k` of pointer `p` (41_vector_memory.md R136). -/
def loadsField (s t : State) (ptrs : Quad Word) (r : Reg) (k : Nat) : Prop :=
  ∀ p : Fin 4, s.mem.holds (elementAddr (ptrs.lane p) k) ((t.readReg r).lane p)

/-- Lane `p` of a register is marked written exactly if all four bytes of element `k` of pointer `p`
have been (70_reset_and_hazards.md R311, log 15). -/
def marksField (s t : State) (ptrs : Quad Word) (r : Reg) (k : Nat) : Prop :=
  ∀ p : Fin 4, (t.marks r).lane p = true ↔ s.mem.defined (elementAddr (ptrs.lane p) k)

/-- Element `k` of each structure becomes that structure's lane of the register that is operand `k` (R136).
-/
def storesField (s t : State) (ptrs : Quad Word) (r : Reg) (k : Nat) : Prop :=
  ∀ p : Fin 4, t.mem.holds (elementAddr (ptrs.lane p) k) ((s.operand k r).lane p)

/-- The byte addresses of `n` bytes at `a`. -/
def within (a : Word) (n : Nat) (b : Word) : Bool := decide ((b - a).toNat < n)

/-- The byte address is one of the `n` bytes of one of the four structures. -/
def inStructures (n : Nat) (ptrs : Quad Word) (a : Word) : Bool :=
  ptrs.toList.any fun p => within p n a

/-- How many operand words an opcode uses, counted from `X[0]` (30_encoding.md R85). -/
def operandWordsUsed (op : Nat) : Nat :=
  if op = 0x08 then 4                                        -- VSET
  else if op = 0x09 ∨ op = 0x0B then 1                       -- VBCAST, LSET
  else if op = 0x10 ∨ op = 0x11 ∨ op = 0x12 then 1           -- VLD, VST, VSTS
  else if op = 0x13 ∨ op = 0x14 then 2                       -- MCOPY, MSWAP
  else if op = 0x15 ∨ op = 0x16 ∨ op = 0x17 then 1           -- MINC, MDEC, MSCALE
  else if 0x18 ≤ op ∧ op ≤ 0x1F then 4                       -- LD4XnTR, ST4XnTR
  else 0

/-- The instruction checks its pointers: with one misaligned, the whole effect is the MISALIGNED fault
with the first offending pointer (60_exceptions.md R282). -/
def checksAlignment (i : Instr) (n : Nat) (ps : List Word) : Prop :=
  ∀ (s : State) (p : Word), firstMisaligned n ps = some p →
    exec i s = .next (s.raiseFault .misaligned p)

/-- Every pointer is a multiple of `n`. -/
def allAligned (n : Nat) (ps : List Word) : Prop := ∀ p ∈ ps, p.toNat % n = 0

/-! ## Real values of binary32 words -/

/-- The value of a finite word, by the table of 44_float_arith.md R210. -/
def ratValue (x : Word) : ℚ :=
  (if signBit x then -1 else 1) *
    (if expo x = 0 then ((frac x).toNat : ℚ) * (2 : ℚ) ^ (-149 : ℤ)
     else (2 ^ 23 + ((frac x).toNat : ℚ)) * (2 : ℚ) ^ (((expo x).toNat : ℤ) - 150))

/-- The value of a word that is no NaN, as an extended number. -/
def extRat (x : Word) : WithBot (WithTop ℚ) :=
  if isInf x then (if signBit x then ⊥ else ⊤) else ((ratValue x : WithTop ℚ) : WithBot (WithTop ℚ))

/-- `y` is `round(r)` for a nonzero `r` (R211): the sign of `r`; the infinity where `|r|` reaches
`2^128 - 2^103`; else a finite value nearest to `r` among all finite values, the one with the even
fraction where two are equally near. -/
def isRoundingOf (r : ℚ) (y : Word) : Prop :=
  signBit y = decide (r < 0) ∧
  (2 ^ 128 - 2 ^ 103 ≤ |r| → isInf y = true) ∧
  (|r| < 2 ^ 128 - 2 ^ 103 → isFinite y = true ∧
    ∀ z, isFinite z = true → |r - ratValue y| ≤ |r - ratValue z| ∧
      (|r - ratValue y| = |r - ratValue z| → ratValue z ≠ ratValue y → (frac y).toNat % 2 = 0))

end Sys2Proof.Machine
end

