-- ==== Sys2Proof/Certificates/Slice0/Obligations.lean ====
section
/-! DEFINITION. The statements for the provers. Each says which rule of spec/ it formalises, or which
sections it rests on. A register's value at reset, what a never-written lane or byte reads as and the
free choices are the model's (logs 1 to 5): no statement rests on one. In a statement `s.operand j r` is
what a command reads in its operand number `j`, and `t.readReg r` is the value that a register holds
(10_state.md R33). -/

open Sys2Proof Sys2Proof.Machine

/-! ## Encoding -/

/-- Decoding an encoded instruction gives it back, for every well-formed instruction of the command set
and every value of its fields (30_encoding.md R80 to R89). -/
def Obligations.DecodeEncodeAgree : Prop :=
  ∀ i : Instr, i.wellFormed = true → decode (encode i) = .ok i

/-- Every command word that decodes is the one command word of its instruction (R82, R83, R89). -/
def Obligations.EncodeDecodeAgree : Prop :=
  ∀ (b : Beat) (i : Instr), decode b = .ok i → i.wellFormed = true ∧ (encode i).w = b.w

/-- An operand word that the instruction does not use is ignored (R80, the table of R85). -/
def Obligations.UnusedOperandWordsIgnored : Prop :=
  ∀ (w : Word) (x y : Quad Word),
    (∀ j : Fin 4, j.val < operandWordsUsed (opcodeOf w) → x.lane j = y.lane j) →
      decode ⟨w, x⟩ = decode ⟨w, y⟩

/-- R87: the unassigned opcodes are the listed ones, and a word with one raises ILLEGAL, the all-zero
and the all-ones word among them. -/
def Obligations.UnassignedOpcodesIllegal : Prop :=
  (∀ op < 256, unassignedOpcode op = true ↔ opcodeRow op = none) ∧
  (∀ (b : Beat) (s : State), unassignedOpcode (b.w.toNat / 2 ^ 24) = true → s.faulted = false →
    runBeat b s = .next (s.raiseFault .illegal b.w)) ∧
  ∀ (x : Quad Word) (s : State), s.faulted = false →
    runBeat ⟨0x00000000#32, x⟩ s = .next (s.raiseFault .illegal 0x00000000#32) ∧
    runBeat ⟨0xFFFFFFFF#32, x⟩ s = .next (s.raiseFault .illegal 0xFFFFFFFF#32)

/-- R83: a command word with a reserved bit of its format set raises ILLEGAL whatever its other bits
are. -/
def Obligations.ReservedBitsIllegal : Prop :=
  ∀ (b : Beat) (fmt : Format) (make : Fields → Instr) (s : State),
    opcodeRow (b.w.toNat / 2 ^ 24) = some (fmt, make) → b.w &&& reservedMask fmt ≠ 0 →
      s.faulted = false → runBeat b s = .next (s.raiseFault .illegal b.w)

/-- R88: the reserved register combinations of the six instructions raise ILLEGAL; with different
registers they decode, and every other instruction decodes with any registers. -/
def Obligations.ReservedRegistersIllegal : Prop :=
  (∀ (a b c d : Reg) (x : Quad Word) (s : State), s.faulted = false →
    (¬ [a, b, c, d].Nodup →
      (runBeat (beatOf 0x06 a b c d 0 x) s =
        .next (s.raiseFault .illegal (beatOf 0x06 a b c d 0 x).w)) ∧
      (runBeat (beatOf 0x1B a b c d 0 x) s =
        .next (s.raiseFault .illegal (beatOf 0x1B a b c d 0 x).w))) ∧
    (¬ [a, b, c].Nodup → runBeat (beatOf 0x1A a b c 0 0 x) s =
      .next (s.raiseFault .illegal (beatOf 0x1A a b c 0 0 x).w)) ∧
    (a = b →
      (runBeat (beatOf 0x19 a b 0 0 0 x) s =
        .next (s.raiseFault .illegal (beatOf 0x19 a b 0 0 0 x).w)) ∧
      (runBeat (beatOf 0x2D a b 0 0 0 x) s =
        .next (s.raiseFault .illegal (beatOf 0x2D a b 0 0 0 x).w)) ∧
      (runBeat (beatOf 0x2F a b 0 0 0 x) s =
        .next (s.raiseFault .illegal (beatOf 0x2F a b 0 0 0 x).w)))) ∧
  (∀ (a b c d : Reg) (x : Quad Word),
    ([a, b, c, d].Nodup → decode (beatOf 0x06 a b c d 0 x) = .ok (.vtrn a b c d) ∧
      decode (beatOf 0x1B a b c d 0 x) = .ok (.ld4x4tr a b c d x)) ∧
    ([a, b, c].Nodup → decode (beatOf 0x1A a b c 0 0 x) = .ok (.ld4x3tr a b c x)) ∧
    (a ≠ b → decode (beatOf 0x19 a b 0 0 0 x) = .ok (.ld4x2tr a b x) ∧
      decode (beatOf 0x2D a b 0 0 0 x) = .ok (.ipostinc a b) ∧
      decode (beatOf 0x2F a b 0 0 0 x) = .ok (.ipostdec a b))) ∧
  ∀ i : Instr, i.opcode ∉ [0x06, 0x19, 0x1A, 0x1B, 0x2D, 0x2F] → decode (encode i) = .ok i

/-- R281: a word that is no instruction raises ILLEGAL with that word in `FINFO`; the operand words and
the state's contents play no part, and a word that is one decodes with any operand words. A word is none
for one of three reasons: its opcode is unassigned, a reserved bit is 1, or its register combination is
reserved. -/
def Obligations.IllegalRecordsCommandWord : Prop :=
  (∀ (b : Beat) (s : State), legalWord b.w = false → s.faulted = false →
    runBeat b s = .next (s.raiseFault .illegal b.w)) ∧
  (∀ b : Beat, legalWord b.w = true ↔ ∃ i, decode b = .ok i) ∧
  ∀ b : Beat, legalWord b.w = false ↔ unassignedOpcode (b.w.toNat / 2 ^ 24) = true ∨
    ∃ fmt make, opcodeRow (b.w.toNat / 2 ^ 24) = some (fmt, make) ∧
      (b.w &&& reservedMask fmt ≠ 0 ∨ (make (fieldsOf b)).wellFormed = false)

/-- The four beats that 30_encoding.md R90 writes out decode to the instructions it gives them for. -/
def Obligations.WrittenOutBeatsDecode : Prop :=
  decode ⟨0x20201000#32, ⟨0, 0, 0, 0⟩⟩ = .ok (.iadd 2 0 1) ∧
  decode ⟨0x0410001B#32, ⟨0, 0, 0, 0⟩⟩ = .ok (.vshuf 1 0 (3 + 4 * 2 + 16 * 1 + 64 * 0)) ∧
  decode ⟨0x08000000#32, ⟨1, 2, 3, 4⟩⟩ = .ok (.vset 0 ⟨1, 2, 3, 4⟩) ∧
  decode ⟨0x1B012300#32, ⟨0x100, 0x110, 0x120, 0x130⟩⟩ =
    .ok (.ld4x4tr 0 1 2 3 ⟨0x100, 0x110, 0x120, 0x130⟩)

/-! ## The step, faults and reset -/

/-- The next step is `exec` of the instruction that the next beat decodes to, in the state without that
beat and with one more input counted. A step adds nothing else. -/
def Obligations.StepRunsDecodedInstruction : Prop :=
  (∀ (s : State) (b : Beat) (rest : List HostInput) (i : Instr), s.inputs = .beat b :: rest →
    s.faulted = false → decode b = .ok i →
    step s = exec i { s with inputs := rest, taken := s.taken + 1 }) ∧
  ∀ (s : State) (b : Beat) (rest : List HostInput), s.inputs = .beat b :: rest →
    step s = runBeat b { s with inputs := rest, taken := s.taken + 1 }

/-- No step of the machine stops: every state has a next state. It is the model's own reading (log 14):
60_exceptions.md R284 and R285 make a fault a recorded state, R290 and R292 say what never faults, and the
model runs what R33 and R67 would let it refuse (logs 3 and 5), idles with no input (log 8) and answers for
terms that no beat decodes to (log 17). -/
def Obligations.EveryStepHasNextState : Prop :=
  (∀ s : State, ∃ t, step s = .next t) ∧ ∀ (i : Instr) (s : State), ∃ t, exec i s = .next t

/-- R284: a beat that records a fault changes `FSR` and `FINFO` as the rule gives them and nothing
else, and makes no memory access. -/
def Obligations.FaultEntryIsWholeChange : Prop :=
  (∀ (s : State) (c : FaultCause) (info : Word),
    (s.raiseFault c info).fsr.toNat = c.code.toNat * 2 + 1 ∧ (s.raiseFault c info).finfo = info ∧
    { s.raiseFault c info with fsr := s.fsr, finfo := s.finfo } = s) ∧
  ∀ (s t : State) (b : Beat) (rest : List HostInput), s.inputs = .beat b :: rest →
    s.faulted = false → step s = .next t → t.faulted = true →
      (∃ c info, t = (s.takeInput rest).raiseFault c info) ∧ s.stepTransfers = []

/-- R285: in the faulted state every list of beats is discarded with no change but the beats' going (and
their count) and no memory access, and the only step that leaves it takes the reset input. -/
def Obligations.FaultedStateDiscardsBeats : Prop :=
  (∀ (bs : List Beat) (s : State), s.faulted = true → s.inputs = bs.map .beat →
    Host.Core.run Sys2Proof.core bs.length s =
      .next { s with inputs := [], taken := s.taken + bs.length }) ∧
  (∀ s : State, s.faulted = true → s.stepTransfers = []) ∧
  ∀ s t : State, s.faulted = true → step s = .next t → t.faulted = false →
    ∃ rest, s.inputs = .reset :: rest

/-- R286: a beat's fault is ILLEGAL if it does not decode, else MISALIGNED with the first
failing pointer, else DIVZERO, else there is none and the instruction completes with `FSR` and `FINFO`
as they were; no divide has a pointer. -/
def Obligations.FaultsExactlyInPriorityOrder : Prop :=
  ∀ (b : Beat) (s : State), s.faulted = false →
    (∀ e, decode b = .error e → runBeat b s = .next (s.raiseFault .illegal b.w)) ∧
    ∀ i, decode b = .ok i →
      (∀ p, firstMisaligned i.alignment i.pointers = some p →
        runBeat b s = .next (s.raiseFault .misaligned p)) ∧
      (firstMisaligned i.alignment i.pointers = none →
        (∀ vb, i.divisor = some vb → (∃ k, (s.operand 1 vb).lane k = 0) →
          ∃ z, runBeat b s = .next (s.raiseFault .divzero z)) ∧
        ((∀ vb, i.divisor = some vb → ∀ k, (s.operand 1 vb).lane k ≠ 0) →
          ∃ t, runBeat b s = .next t ∧ t.fsr = s.fsr ∧ t.finfo = s.finfo)) ∧
      (i.divisor ≠ none → i.pointers = [])

/-- R282: the fourteen memory instructions with an alignment raise MISALIGNED with the first misaligned
pointer before any effect, and LD4X1TR and ST4X1TR never do. -/
def Obligations.MisalignedPointerFaults : Prop :=
  (∀ (r r' r'' r''' : Reg) (a a' : Word) (x : Quad Word),
    checksAlignment (.vld r a) 16 [a] ∧ checksAlignment (.vst r a) 16 [a] ∧
    checksAlignment (.vsts r a) 16 [a] ∧ checksAlignment (.mcopy a a') 16 [a, a'] ∧
    checksAlignment (.mswap a a') 16 [a, a'] ∧ checksAlignment (.minc r a) 16 [a] ∧
    checksAlignment (.mdec r a) 16 [a] ∧ checksAlignment (.mscale r a) 16 [a] ∧
    checksAlignment (.ld4x2tr r r' x) 8 x.toList ∧ checksAlignment (.st4x2tr r r' x) 8 x.toList ∧
    checksAlignment (.ld4x3tr r r' r'' x) 16 x.toList ∧
    checksAlignment (.st4x3tr r r' r'' x) 16 x.toList ∧
    checksAlignment (.ld4x4tr r r' r'' r''' x) 16 x.toList ∧
    checksAlignment (.st4x4tr r r' r'' r''' x) 16 x.toList) ∧
  ∀ (r : Reg) (x : Quad Word) (s : State),
    (∃ t, exec (.ld4x1tr r x) s = .next t ∧ t.fsr = s.fsr ∧ t.finfo = s.finfo) ∧
    ∃ t, exec (.st4x1tr r x) s = .next t ∧ t.fsr = s.fsr ∧ t.finfo = s.finfo

/-- R310: the reset input clears `FSR` and `FINFO`, marks every lane, `CF` and `XR` never-written,
leaves memory unchanged and makes no access, in the faulted state as in any other; the beat that
follows is executed. -/
def Obligations.ResetInputEffect : Prop :=
  ∀ (s : State) (rest : List HostInput), s.inputs = .reset :: rest →
    s.stepTransfers = [] ∧
    ∃ t, step s = .next t ∧ t.fsr = 0 ∧ t.finfo = 0 ∧ (∀ r, t.marks r = .splat false) ∧
      t.cfWritten = false ∧ t.xrWritten = false ∧ t.mem = s.mem ∧ t.inputs = rest ∧
      ∀ (b : Beat) (i : Instr) (more : List HostInput), rest = .beat b :: more →
        decode b = .ok i → step t = exec i (t.takeInput more)

/-- R32, the values the spec gives: after reset `FSR` and `FINFO` are 0 in every field, and no lane of a
register, nor `CF` nor `XR`, has been written; the start of a run keeps the memory the host placed. -/
def Obligations.ResetStateValues : Prop :=
  State.reset.faulted = false ∧ State.reset.faultCause = 0 ∧
  State.reset.fsr.extractLsb' 4 28 = 0 ∧ State.reset.finfo = 0 ∧
  (∀ r, State.reset.marks r = .splat false) ∧ State.reset.cfWritten = false ∧
  State.reset.xrWritten = false ∧
  ∀ (m : Memory) (bs : List Beat), (State.start m bs).mem = m ∧ (State.start m bs).fsr = 0

/-- Every step keeps the invariant: memory in its canonical form, `FSR` one of the four values that R27
allows and `FINFO` what its cause says (R28). -/
def Obligations.InvariantKeptByEveryStep : Prop :=
  ∀ s t : State, s.Inv → step s = .next t → t.Inv

/-- The invariant holds after reset, and at the start of a run from any canonical memory. -/
def Obligations.InvariantHoldsAtReset : Prop :=
  State.reset.Inv ∧ ∀ (m : Memory) (bs : List Beat), m.wf = true → (State.start m bs).Inv

/-! ## What an instruction may touch -/

/-- A register that the instruction does not name as a destination keeps its value and its marks, by
R23; LSET keeps the other three lanes of its destination. -/
def Obligations.OnlyDestinationsWritten : Prop :=
  (∀ (i : Instr) (s t : State), exec i s = .next t →
    ∀ r, r ∉ i.dests → t.regs.get r = s.regs.get r) ∧
  ∀ (vd : Reg) (n k : Fin 4) (x : Word) (s t : State), exec (.lset vd n x) s = .next t → k ≠ n →
    (t.readReg vd).lane k = (s.readReg vd).lane k ∧ (t.marks vd).lane k = (s.marks vd).lane k

/-- `CF` is written only by VANY and VALL and `XR` only by LGET, and no instruction reads either: what
an instruction does to the rest of the state is the same whatever they hold (10_state.md R25, R26). -/
def Obligations.FlagsWrittenAndReadAsStated : Prop :=
  ∀ (i : Instr) (s t : State), exec i s = .next t →
    ((t.cf ≠ s.cf ∨ t.cfWritten ≠ s.cfWritten) → ∃ va, i = .vany va ∨ i = .vall va) ∧
    ((t.xr ≠ s.xr ∨ t.xrWritten ≠ s.xrWritten) → ∃ va n, i = .lget va n) ∧
    ∀ (c : Bool) (x : Word), ∃ t', exec i { s with cf := c, xr := x } = .next t' ∧
      { t' with cf := t.cf, xr := t.xr } = t

/-- What an instruction does on the memory port is what it does to memory (R55, 10_state.md R34). A byte
that no write access covers keeps its value and whether it has been written; a byte that one covers ends
with the byte that such an access carries; a read carries the bytes that memory held before; every access
carries as many bytes as its size. No instruction touches the host's waiting inputs or their count. -/
def Obligations.StoresOnlyWhereWriteAccessesCover : Prop :=
  (∀ (i : Instr) (s t : State), exec i s = .next t →
    t.inputs = s.inputs ∧ t.taken = s.taken ∧
    ∀ a : Word, mayStore i a = false →
      t.mem.byteAt a = s.mem.byteAt a ∧ t.mem.find a.toNat = s.mem.find a.toNat) ∧
  (∀ (i : Instr) (s t : State), s.faultOf i = none → exec i s = .next t →
    ∀ a : Word, mayStore i a = true → ∃ x ∈ s.portTransfers i, ∃ j : Nat, x.access.write = true ∧
      a = x.access.addr + BitVec.ofNat 32 j ∧ x.data[j]? = some (t.mem.byteAt a)) ∧
  ∀ (i : Instr) (s : State), (s.portTransfers i).map (·.access) = portAccesses i ∧
    ∀ x ∈ s.portTransfers i, x.data.length = x.access.size ∧
      (x.access.write = false → ∀ j < x.access.size,
        x.data[j]? = some (s.mem.byteAt (x.access.addr + BitVec.ofNat 32 j)))

/-- R55: the accesses of the next step on the memory port, for each memory instruction that does not
fault, and none for any other instruction. -/
def Obligations.MemoryPortAccesses : Prop :=
  (∀ (s : State) (b : Beat) (rest : List HostInput) (i : Instr), s.inputs = .beat b :: rest →
    s.faulted = false → decode b = .ok i → (s.takeInput rest).faultOf i = none →
      s.stepAccesses = portAccesses i ∧ s.stepTransfers = (s.takeInput rest).portTransfers i) ∧
  (∀ (r r' r'' r''' : Reg) (a a' p0 p1 p2 p3 : Word),
    portAccesses (.vld r a) = [⟨false, a, 16, false⟩] ∧
    portAccesses (.vst r a) = [⟨true, a, 16, false⟩] ∧
    portAccesses (.vsts r a) = [⟨true, a, 16, true⟩] ∧
    portAccesses (.mcopy a a') = [⟨false, a', 16, false⟩, ⟨true, a, 16, false⟩] ∧
    portAccesses (.mswap a a') = [⟨false, a, 16, false⟩, ⟨false, a', 16, false⟩,
      ⟨true, a, 16, false⟩, ⟨true, a', 16, false⟩] ∧
    portAccesses (.ld4x1tr r ⟨p0, p1, p2, p3⟩) = [p0, p1, p2, p3].map (⟨false, ·, 4, false⟩) ∧
    portAccesses (.ld4x2tr r r' ⟨p0, p1, p2, p3⟩) = [p0, p1, p2, p3].map (⟨false, ·, 8, false⟩) ∧
    portAccesses (.ld4x3tr r r' r'' ⟨p0, p1, p2, p3⟩) =
      [p0, p1, p2, p3].map (⟨false, ·, 16, false⟩) ∧
    portAccesses (.ld4x4tr r r' r'' r''' ⟨p0, p1, p2, p3⟩) =
      [p0, p1, p2, p3].map (⟨false, ·, 16, false⟩) ∧
    portAccesses (.st4x1tr r ⟨p0, p1, p2, p3⟩) = [p0, p1, p2, p3].map (⟨true, ·, 4, false⟩) ∧
    portAccesses (.st4x2tr r r' ⟨p0, p1, p2, p3⟩) = [p0, p1, p2, p3].map (⟨true, ·, 8, false⟩) ∧
    portAccesses (.st4x3tr r r' r'' ⟨p0, p1, p2, p3⟩) =
      [⟨true, p0, 8, false⟩, ⟨true, p0 + 8, 4, false⟩, ⟨true, p1, 8, false⟩, ⟨true, p1 + 8, 4, false⟩,
       ⟨true, p2, 8, false⟩, ⟨true, p2 + 8, 4, false⟩, ⟨true, p3, 8, false⟩, ⟨true, p3 + 8, 4, false⟩] ∧
    portAccesses (.st4x4tr r r' r'' r''' ⟨p0, p1, p2, p3⟩) =
      [p0, p1, p2, p3].map (⟨true, ·, 16, false⟩) ∧
    portAccesses (.minc r a) = [⟨false, a, 16, false⟩, ⟨true, a, 16, false⟩] ∧
    portAccesses (.mdec r a) = [⟨false, a, 16, false⟩, ⟨true, a, 16, false⟩] ∧
    portAccesses (.mscale r a) = [⟨false, a, 16, false⟩, ⟨true, a, 16, false⟩]) ∧
  ∀ i : Instr, i.opcode ∉ [0x10, 0x11, 0x12, 0x13, 0x14, 0x15, 0x16, 0x17, 0x18, 0x19, 0x1A, 0x1B,
    0x1C, 0x1D, 0x1E, 0x1F] → portAccesses i = []

/-- What no command has written cannot reach what a command writes (10_state.md R33,
70_reset_and_hazards.md R313 (a) and (c)). A written lane reads as it is stored. Two states that differ in
the storage of unwritten lanes, `CF` and `XR` alone do so after every step. Where they may also differ in
the free values, they do so after an instruction that reads written lanes only and whose writes do not
overlap. -/
def Obligations.DefinedResultsIgnoreUnwritten : Prop :=
  (∀ (s : State) (j : Nat) (r : Reg) (k : Fin 4), (s.marks r).lane k = true →
    (s.operand j r).lane k = (s.readReg r).lane k) ∧
  (∀ s s' t : State, s.agreeOnWritten t → s.taken = t.taken → step s = .next s' →
    ∃ t', step t = .next t' ∧ s'.agreeOnWritten t' ∧ s'.taken = t'.taken) ∧
  ∀ (i : Instr) (s s' t : State), s.agreeOnWritten t → s.readsWritten i = true →
    writesDisjoint i → exec i s = .next s' → ∃ t', exec i t = .next t' ∧ s'.agreeOnWritten t'

/-! ## Vector base -/

/-- R110, R111 and R121: VANY and VALL write `CF` with whether some lane, or every lane, is a nonzero
pattern, LGET writes `XR` with one lane, and none of them writes anything else; VANY gives 0 exactly for
the all-zero register. -/
def Obligations.ScalarResultRows : Prop :=
  ∀ (va : Reg) (n : Fin 4) (s : State),
    encodesRow 0x01 va 0 0 0 0 (fun _ => .vany va) ∧ encodesRow 0x02 va 0 0 0 0 (fun _ => .vall va) ∧
    encodesRow 0x0A va 0 0 0 (BitVec.ofNat 8 n) (fun _ => .lget va n) ∧
    exec (.vany va) s =
      .next { s with cf := decide (∃ k, (s.operand 0 va).lane k ≠ 0), cfWritten := true } ∧
    exec (.vall va) s =
      .next { s with cf := decide (∀ k, (s.operand 0 va).lane k ≠ 0), cfWritten := true } ∧
    ((∃ k, (s.operand 0 va).lane k ≠ 0) ↔ (s.operand 0 va).bits ≠ 0) ∧
    exec (.lget va n) s = .next { s with xr := (s.operand 0 va).lane n, xrWritten := true }

/-- R112, R113 and R118: VSPLAT, VSHUF with `i_k = sel[2k+1:2k]`, and VMOV. -/
def Obligations.LaneMovesWithinRegister : Prop :=
  ∀ (vd va : Reg) (s : State),
    (∀ n : Fin 4, encodesRow 0x03 vd va 0 0 (BitVec.ofNat 8 n) (fun _ => .vsplat vd va n) ∧
      ∃ t, exec (.vsplat vd va n) s = .next t ∧ s.changesOnly t [vd] ∧
        t.marks vd = .splat true ∧ ∀ k, (t.readReg vd).lane k = (s.operand 0 va).lane n) ∧
    (∀ sel : BitVec 8, encodesRow 0x04 vd va 0 0 sel (fun _ => .vshuf vd va sel) ∧
      ∃ t, exec (.vshuf vd va sel) s = .next t ∧ s.changesOnly t [vd] ∧
        t.marks vd = .splat true ∧
        ∀ k : Fin 4, (t.readReg vd).lane k =
          (s.operand 0 va).lane (sel.extractLsb' (2 * k.val) 2).toFin) ∧
    encodesRow 0x07 vd va 0 0 0 (fun _ => .vmov vd va) ∧
    ∃ t, exec (.vmov vd va) s = .next t ∧ s.changesOnly t [vd] ∧ t.marks vd = .splat true ∧
      t.readReg vd = s.operand 0 va

/-- R119, R120 and R122: VSET puts operand word `j` in lane `j`, VBCAST operand word 0 in every lane, and
LSET operand word 0 in lane `n`, the other three lanes and their marks as they were. -/
def Obligations.OperandWordsIntoLanes : Prop :=
  ∀ (vd : Reg) (s : State),
    encodesRow 0x08 vd 0 0 0 0 (fun x => .vset vd x) ∧
    (∀ x : Vec, ∃ t, exec (.vset vd x) s = .next t ∧ s.changesOnly t [vd] ∧
      t.marks vd = .splat true ∧ t.readReg vd = x) ∧
    encodesRow 0x09 vd 0 0 0 0 (fun x => .vbcast vd (x.lane 0)) ∧
    (∀ x : Word, ∃ t, exec (.vbcast vd x) s = .next t ∧ s.changesOnly t [vd] ∧
      t.marks vd = .splat true ∧ ∀ k, (t.readReg vd).lane k = x) ∧
    ∀ n : Fin 4, encodesRow 0x0B vd 0 0 0 (BitVec.ofNat 8 n) (fun x => .lset vd n (x.lane 0)) ∧
      ∀ x : Word, ∃ t, exec (.lset vd n x) s = .next t ∧ s.changesOnly t [vd] ∧
        (∀ k, (t.readReg vd).lane k = if k = n then x else (s.readReg vd).lane k) ∧
        ∀ k, (t.marks vd).lane k = if k = n then true else (s.marks vd).lane k

/-- R115 and R116: VSWAP exchanges two registers, and with `va = vb` every written lane keeps its value.
VTRN replaces the four registers, as rows, by the columns, and applied twice restores what it read in every
register. -/
def Obligations.RegisterExchangeRows : Prop :=
  ∀ (va vb vc vd : Reg) (s : State),
    encodesRow 0x05 va vb 0 0 0 (fun _ => .vswap va vb) ∧
    encodesRow 0x06 va vb vc vd 0 (fun _ => .vtrn va vb vc vd) ∧
    (∃ t, exec (.vswap va vb) s = .next t ∧ s.changesOnly t [va, vb] ∧
      t.readReg va = (if va = vb then s.operand 0 va else s.operand 1 vb) ∧
      t.readReg vb = s.operand 0 va ∧ t.marks va = .splat true ∧ t.marks vb = .splat true ∧
      (va = vb → ∀ k, (s.marks va).lane k = true →
        (t.readReg va).lane k = (s.readReg va).lane k)) ∧
    ([va, vb, vc, vd].Nodup →
      ∃ t u, exec (.vtrn va vb vc vd) s = .next t ∧ s.changesOnly t [va, vb, vc, vd] ∧
        (∀ r ∈ [va, vb, vc, vd], t.marks r = .splat true) ∧
        (∀ k p : Fin 4, (t.readReg ((⟨va, vb, vc, vd⟩ : Quad Reg).lane k)).lane p =
          (s.operand p ((⟨va, vb, vc, vd⟩ : Quad Reg).lane p)).lane k) ∧
        exec (.vtrn va vb vc vd) t = .next u ∧ s.changesOnly u [va, vb, vc, vd] ∧
        ∀ p : Fin 4, u.readReg ((⟨va, vb, vc, vd⟩ : Quad Reg).lane p) =
          s.operand p ((⟨va, vb, vc, vd⟩ : Quad Reg).lane p))

/-- R114 and R117: the shuffle moves bytes as the permutation table says, and the two-stage interleave
network gives the transpose. -/
def Obligations.ShuffleAndTransposeWiring : Prop :=
  (∀ (v : Vec) (sel : BitVec 8) (b : Fin 16),
    (Vec.shuffle v sel).bits.extractLsb' (8 * b.val) 8 =
      v.bits.extractLsb' (8 * permutationTable sel b) 8) ∧
  (∀ (sel : BitVec 8) (k j : Fin 4), permutationTable sel (Fin.ofNat 16 (4 * k.val + j.val)) =
    4 * (sel.extractLsb' (2 * k.val) 2).toNat + j.val) ∧
  ∀ rows : Quad Vec, transposeNetwork rows = transpose rows

/-! ## Vector memory -/

/-- R131: VLD reads lane `k` from `X[0] + 4k`, little-endian, into one register and nothing else. -/
def Obligations.VldLoadsVector : Prop :=
  ∀ (vd : Reg) (addr : Word) (s : State),
    encodesRow 0x10 vd 0 0 0 0 (fun x => .vld vd (x.lane 0)) ∧
    checksAlignment (.vld vd addr) 16 [addr] ∧
    (addr.toNat % 16 = 0 → ∃ t, exec (.vld vd addr) s = .next t ∧ s.changesOnly t [vd] ∧
      ∀ k : Fin 4, s.mem.holds (elementAddr addr k) ((t.readReg vd).lane k))

/-- R132 and R133: VST and VSTS write lane `k` to `X[0] + 4k` and nothing else; they differ only in the
hint on the memory port. -/
def Obligations.VstVstsStoreVector : Prop :=
  ∀ (va : Reg) (addr : Word) (s : State),
    encodesRow 0x11 va 0 0 0 0 (fun x => .vst va (x.lane 0)) ∧
    encodesRow 0x12 va 0 0 0 0 (fun x => .vsts va (x.lane 0)) ∧
    checksAlignment (.vst va addr) 16 [addr] ∧ checksAlignment (.vsts va addr) 16 [addr] ∧
    portAccesses (.vst va addr) = [⟨true, addr, 16, false⟩] ∧
    portAccesses (.vsts va addr) = [⟨true, addr, 16, true⟩] ∧
    (addr.toNat % 16 = 0 → ∃ t, exec (.vst va addr) s = .next t ∧ exec (.vsts va addr) s = .next t ∧
      s.storesOnly t (within addr 16) ∧
      ∀ k : Fin 4, t.mem.holds (elementAddr addr k) ((s.operand 0 va).lane k))

/-- R134 and R135: MCOPY copies the 16 bytes at `X[1]` to `X[0]`, MSWAP exchanges the 16 bytes at `X[0]`
and `X[1]`, both reads before both writes, and no other byte changes; with equal addresses memory reads
as before. -/
def Obligations.BlockCopyAndSwapRows : Prop :=
  ∀ (p q : Word) (s : State),
    encodesRow 0x13 0 0 0 0 0 (fun x => .mcopy (x.lane 0) (x.lane 1)) ∧
    encodesRow 0x14 0 0 0 0 0 (fun x => .mswap (x.lane 0) (x.lane 1)) ∧
    checksAlignment (.mcopy p q) 16 [p, q] ∧ checksAlignment (.mswap p q) 16 [p, q] ∧
    (allAligned 16 [p, q] →
      (∃ t, exec (.mcopy p q) s = .next t ∧ s.storesOnly t (within p 16) ∧
        (∀ j : Fin 16, t.mem.byteAt (p + BitVec.ofNat 32 j) =
          s.mem.byteAt (q + BitVec.ofNat 32 j)) ∧
        (p = q → ∀ a, t.mem.byteAt a = s.mem.byteAt a)) ∧
      ∃ t, exec (.mswap p q) s = .next t ∧
        s.storesOnly t (fun a => within p 16 a || within q 16 a) ∧
        (∀ j : Fin 16, t.mem.byteAt (p + BitVec.ofNat 32 j) = s.mem.byteAt (q + BitVec.ofNat 32 j) ∧
          t.mem.byteAt (q + BitVec.ofNat 32 j) = s.mem.byteAt (p + BitVec.ofNat 32 j)) ∧
        (p = q → ∀ a, t.mem.byteAt a = s.mem.byteAt a))

/-- R137, R138 and R139: the transposed loads of 1, 2 and 3 fields put element `k` of structure `p` in
lane `p` of register `k`, and change nothing else. -/
def Obligations.TransposedLoads : Prop :=
  ∀ (va vb vc : Reg) (ptrs : Quad Word) (s : State),
    (encodesRow 0x18 va 0 0 0 0 (fun x => .ld4x1tr va x) ∧
      ∃ t, exec (.ld4x1tr va ptrs) s = .next t ∧ s.changesOnly t [va] ∧ loadsField s t ptrs va 0) ∧
    (encodesRow 0x19 va vb 0 0 0 (fun x => .ld4x2tr va vb x) ∧
      checksAlignment (.ld4x2tr va vb ptrs) 8 ptrs.toList ∧
      ([va, vb].Nodup → allAligned 8 ptrs.toList →
        ∃ t, exec (.ld4x2tr va vb ptrs) s = .next t ∧ s.changesOnly t [va, vb] ∧
          loadsField s t ptrs va 0 ∧ loadsField s t ptrs vb 1)) ∧
    (encodesRow 0x1A va vb vc 0 0 (fun x => .ld4x3tr va vb vc x) ∧
      checksAlignment (.ld4x3tr va vb vc ptrs) 16 ptrs.toList ∧
      ([va, vb, vc].Nodup → allAligned 16 ptrs.toList →
        ∃ t, exec (.ld4x3tr va vb vc ptrs) s = .next t ∧ s.changesOnly t [va, vb, vc] ∧
          loadsField s t ptrs va 0 ∧ loadsField s t ptrs vb 1 ∧ loadsField s t ptrs vc 2))

/-- Which lanes a load leaves marked written: those whose four bytes the host or a command has written.
70_reset_and_hazards.md R311 says it of memory that has never been written; that one such byte is enough is
the model's reading (log 15, DEDUCED). -/
def Obligations.LoadedLaneMarks : Prop :=
  ∀ (va vb vc vd : Reg) (addr : Word) (ptrs : Quad Word) (s : State),
    (addr.toNat % 16 = 0 → ∃ t, exec (.vld va addr) s = .next t ∧
      ∀ k : Fin 4, (t.marks va).lane k = true ↔ s.mem.defined (elementAddr addr k)) ∧
    (∃ t, exec (.ld4x1tr va ptrs) s = .next t ∧ marksField s t ptrs va 0) ∧
    ([va, vb].Nodup → allAligned 8 ptrs.toList → ∃ t, exec (.ld4x2tr va vb ptrs) s = .next t ∧
      marksField s t ptrs va 0 ∧ marksField s t ptrs vb 1) ∧
    ([va, vb, vc].Nodup → allAligned 16 ptrs.toList →
      ∃ t, exec (.ld4x3tr va vb vc ptrs) s = .next t ∧ marksField s t ptrs va 0 ∧
        marksField s t ptrs vb 1 ∧ marksField s t ptrs vc 2) ∧
    ([va, vb, vc, vd].Nodup → allAligned 16 ptrs.toList →
      ∃ t, exec (.ld4x4tr va vb vc vd ptrs) s = .next t ∧ marksField s t ptrs va 0 ∧
        marksField s t ptrs vb 1 ∧ marksField s t ptrs vc 2 ∧ marksField s t ptrs vd 3)

/-- R141 to R144 where the write ranges are disjoint: lane `p` of register `k` becomes element `k` of
structure `p`, and no other byte changes; ST4X3TR keeps the fourth element. -/
def Obligations.TransposedStores : Prop :=
  ∀ (va vb vc vd : Reg) (ptrs : Quad Word) (s : State),
    (encodesRow 0x1C va 0 0 0 0 (fun x => .st4x1tr va x) ∧
      (pointersDisjoint 4 ptrs →
        ∃ t, exec (.st4x1tr va ptrs) s = .next t ∧ s.storesOnly t (inStructures 4 ptrs) ∧
          storesField s t ptrs va 0)) ∧
    (encodesRow 0x1D va vb 0 0 0 (fun x => .st4x2tr va vb x) ∧
      checksAlignment (.st4x2tr va vb ptrs) 8 ptrs.toList ∧
      (pointersDisjoint 8 ptrs → allAligned 8 ptrs.toList →
        ∃ t, exec (.st4x2tr va vb ptrs) s = .next t ∧ s.storesOnly t (inStructures 8 ptrs) ∧
          storesField s t ptrs va 0 ∧ storesField s t ptrs vb 1)) ∧
    (encodesRow 0x1E va vb vc 0 0 (fun x => .st4x3tr va vb vc x) ∧
      checksAlignment (.st4x3tr va vb vc ptrs) 16 ptrs.toList ∧
      (pointersDisjoint 12 ptrs → allAligned 16 ptrs.toList →
        ∃ t, exec (.st4x3tr va vb vc ptrs) s = .next t ∧ s.storesOnly t (inStructures 12 ptrs) ∧
          storesField s t ptrs va 0 ∧ storesField s t ptrs vb 1 ∧ storesField s t ptrs vc 2)) ∧
    (encodesRow 0x1F va vb vc vd 0 (fun x => .st4x4tr va vb vc vd x) ∧
      checksAlignment (.st4x4tr va vb vc vd ptrs) 16 ptrs.toList ∧
      (pointersDisjoint 16 ptrs → allAligned 16 ptrs.toList →
        ∃ t, exec (.st4x4tr va vb vc vd ptrs) s = .next t ∧ s.storesOnly t (inStructures 16 ptrs) ∧
          storesField s t ptrs va 0 ∧ storesField s t ptrs vb 1 ∧ storesField s t ptrs vc 2 ∧
          storesField s t ptrs vd 3))

/-- 20_memory.md R67 where ranges overlap, where the model runs the command (log 5): each byte of the
structures ends with the byte of one of the writes that cover it, whatever choices are left open, and no
other byte changes. -/
def Obligations.OverlappingStoresKeepOneWrite : Prop :=
  ∀ (va vb vc vd : Reg) (ptrs : Quad Word) (s : State),
    (∃ t, exec (.st4x1tr va ptrs) s = .next t ∧ s.storesOnly t (inStructures 4 ptrs) ∧
      ∀ a, inStructures 4 ptrs a = true → ∃ p j : Fin 4,
        a = ptrs.lane p + BitVec.ofNat 32 j ∧
        t.mem.byteAt a = byteOf ((s.operand 0 va).lane p) j) ∧
    (allAligned 8 ptrs.toList → ∃ t, exec (.st4x2tr va vb ptrs) s = .next t ∧
      s.storesOnly t (inStructures 8 ptrs) ∧
      ∀ a, inStructures 8 ptrs a = true → ∃ (p j : Fin 4) (k : Fin 2),
        a = elementAddr (ptrs.lane p) k + BitVec.ofNat 32 j ∧
        t.mem.byteAt a = byteOf ((s.operand k (if k = 0 then va else vb)).lane p) j) ∧
    (allAligned 16 ptrs.toList → ∃ t, exec (.st4x3tr va vb vc ptrs) s = .next t ∧
      s.storesOnly t (inStructures 12 ptrs) ∧
      ∀ a, inStructures 12 ptrs a = true → ∃ (p j : Fin 4) (k : Fin 3),
        a = elementAddr (ptrs.lane p) k + BitVec.ofNat 32 j ∧
        t.mem.byteAt a =
          byteOf ((s.operand k (if k = 0 then va else if k = 1 then vb else vc)).lane p) j) ∧
    (allAligned 16 ptrs.toList → ∃ t, exec (.st4x4tr va vb vc vd ptrs) s = .next t ∧
      s.storesOnly t (inStructures 16 ptrs) ∧
      ∀ a, inStructures 16 ptrs a = true → ∃ p j k : Fin 4,
        a = elementAddr (ptrs.lane p) k + BitVec.ofNat 32 j ∧
        t.mem.byteAt a = byteOf ((s.operand k ((⟨va, vb, vc, vd⟩ : Quad Reg).lane k)).lane p) j)

/-- R145: a transposed store followed by the transposed load of the same pointers gives back what the
store read in every register, bit for bit, for structures of 1, 2, 3 and 4 fields whose ranges are
disjoint. -/
def Obligations.TransposedRoundTrip : Prop :=
  ∀ (va vb vc vd wa wb wc wd : Reg) (ptrs : Quad Word) (s : State),
    (pointersDisjoint 4 ptrs → ∃ t u, exec (.st4x1tr va ptrs) s = .next t ∧
      exec (.ld4x1tr wa ptrs) t = .next u ∧ u.readReg wa = s.operand 0 va) ∧
    (pointersDisjoint 8 ptrs → allAligned 8 ptrs.toList → [wa, wb].Nodup →
      ∃ t u, exec (.st4x2tr va vb ptrs) s = .next t ∧ exec (.ld4x2tr wa wb ptrs) t = .next u ∧
        u.readReg wa = s.operand 0 va ∧ u.readReg wb = s.operand 1 vb) ∧
    (pointersDisjoint 12 ptrs → allAligned 16 ptrs.toList → [wa, wb, wc].Nodup →
      ∃ t u, exec (.st4x3tr va vb vc ptrs) s = .next t ∧
        exec (.ld4x3tr wa wb wc ptrs) t = .next u ∧ u.readReg wa = s.operand 0 va ∧
        u.readReg wb = s.operand 1 vb ∧ u.readReg wc = s.operand 2 vc) ∧
    (pointersDisjoint 16 ptrs → allAligned 16 ptrs.toList → [wa, wb, wc, wd].Nodup →
      ∃ t u, exec (.st4x4tr va vb vc vd ptrs) s = .next t ∧
        exec (.ld4x4tr wa wb wc wd ptrs) t = .next u ∧ u.readReg wa = s.operand 0 va ∧
        u.readReg wb = s.operand 1 vb ∧ u.readReg wc = s.operand 2 vc ∧ u.readReg wd = s.operand 3 vd)

/-- R140: LD4X4TR puts element `k` of structure `p` in lane `p` of register `k`, and changes nothing else.
It is four VLD into the rows followed by VTRN, where the structures have been written: of a byte that
nothing has written, VTRN would read a lane that counts as never-written (10_state.md R33). -/
def Obligations.LoadTransposeIsLoadsThenVtrn : Prop :=
  ∀ (va vb vc vd : Reg) (ptrs : Quad Word) (s : State),
    encodesRow 0x1B va vb vc vd 0 (fun x => .ld4x4tr va vb vc vd x) ∧
    checksAlignment (.ld4x4tr va vb vc vd ptrs) 16 ptrs.toList ∧
    ([va, vb, vc, vd].Nodup → allAligned 16 ptrs.toList →
      ∃ t, exec (.ld4x4tr va vb vc vd ptrs) s = .next t ∧ s.changesOnly t [va, vb, vc, vd] ∧
        loadsField s t ptrs va 0 ∧ loadsField s t ptrs vb 1 ∧ loadsField s t ptrs vc 2 ∧
        loadsField s t ptrs vd 3 ∧
        ((∀ p k : Fin 4, s.mem.defined (elementAddr (ptrs.lane p) k)) →
          ∃ s1 s2 s3 s4, exec (.vld va (ptrs.lane 0)) s = .next s1 ∧
            exec (.vld vb (ptrs.lane 1)) s1 = .next s2 ∧ exec (.vld vc (ptrs.lane 2)) s2 = .next s3 ∧
            exec (.vld vd (ptrs.lane 3)) s3 = .next s4 ∧ exec (.vtrn va vb vc vd) s4 = .next t))

/-! ## Integer arithmetic -/

/-- R161, R162, R163 and R172: IADD, ISUB, IMUL and IABS on the signed values, reduced modulo 2^32. -/
def Obligations.IntegerArithmeticRows : Prop :=
  lanewiseBinary 0x20 .iadd (fun a b => w32 (a.toInt + b.toInt)) ∧
  lanewiseBinary 0x21 .isub (fun a b => w32 (a.toInt - b.toInt)) ∧
  lanewiseBinary 0x22 .imul (fun a b => w32 (a.toInt * b.toInt)) ∧
  lanewiseUnary 0x2B .iabs (fun a => w32 (if a.toInt < 0 then -a.toInt else a.toInt))

/-- R177: the low 32 bits of a sum, difference or product are the same for signed and unsigned
operands, and a result that fits is exact. -/
def Obligations.WrapAroundLaws : Prop :=
  (∀ a b : Word, w32 (a.toInt + b.toInt) = w32 (a.toNat + b.toNat) ∧
    w32 (a.toInt - b.toInt) = w32 ((a.toNat : Int) - b.toNat) ∧
    w32 (a.toInt * b.toInt) = w32 (a.toNat * b.toNat)) ∧
  (∀ n : Int, -2 ^ 31 ≤ n → n < 2 ^ 31 → (w32 n).toInt = n) ∧
  ∀ n : Int, ((w32 n).toNat : Int) = n % 2 ^ 32

/-- R164, R165 and R283: IDIV and IMOD with a zero lane in the divisor raise DIVZERO with the map of the
zero lanes and write no lane (FDIV and FRCP do not); where no lane is zero they give the quotient
rounded toward zero and the remainder that goes with it. -/
def Obligations.DivisionRows : Prop :=
  ∀ (vd va vb : Reg) (s : State),
    encodesRow 0x23 vd va vb 0 0 (fun _ => .idiv vd va vb) ∧
    encodesRow 0x24 vd va vb 0 0 (fun _ => .imod vd va vb) ∧
    ((∃ k, (s.operand 1 vb).lane k = 0) → ∃ z : Word,
      exec (.idiv vd va vb) s = .next (s.raiseFault .divzero z) ∧
      exec (.imod vd va vb) s = .next (s.raiseFault .divzero z) ∧ z.toNat < 16 ∧
      ∀ k : Fin 4, z.getLsbD k = true ↔ (s.operand 1 vb).lane k = 0) ∧
    (∃ t u, exec (.fdiv vd va vb) s = .next t ∧ exec (.frcp vd vb) s = .next u ∧
      t.fsr = s.fsr ∧ u.fsr = s.fsr) ∧
    ((∀ k, (s.operand 1 vb).lane k ≠ 0) →
      (∃ t, exec (.idiv vd va vb) s = .next t ∧ s.changesOnly t [vd] ∧ t.marks vd = .splat true ∧
        ∀ k, (t.readReg vd).lane k =
          w32 (((s.operand 0 va).lane k).toInt.tdiv ((s.operand 1 vb).lane k).toInt)) ∧
      ∃ t, exec (.imod vd va vb) s = .next t ∧ s.changesOnly t [vd] ∧ t.marks vd = .splat true ∧
        ∀ k, (t.readReg vd).lane k =
          w32 (((s.operand 0 va).lane k).toInt - ((s.operand 0 va).lane k).toInt.tdiv
            ((s.operand 1 vb).lane k).toInt * ((s.operand 1 vb).lane k).toInt))

/-- R178: for a nonzero divisor `(a/b)*b + a%b = a` under the wrapping multiply and add, the remainder is
smaller than the divisor and zero or of the dividend's sign, the quotient is exact but for
`-2^31 / -1`, which wraps to `-2^31` with remainder 0; IDIV and IMOD give these in every lane, or the
DIVZERO fault. -/
def Obligations.DivisionLaws : Prop :=
  (∀ (vd va vb : Reg) (s : State),
    ((∃ k, (s.operand 1 vb).lane k = 0) → ∃ z, exec (.idiv vd va vb) s =
      .next (s.raiseFault .divzero z) ∧ exec (.imod vd va vb) s =
      .next (s.raiseFault .divzero z)) ∧
    ((∀ k, (s.operand 1 vb).lane k ≠ 0) → ∃ t u, exec (.idiv vd va vb) s = .next t ∧
      exec (.imod vd va vb) s = .next u ∧ ∀ k,
        (t.readReg vd).lane k = divLane ((s.operand 0 va).lane k) ((s.operand 1 vb).lane k) ∧
        (u.readReg vd).lane k = modLane ((s.operand 0 va).lane k) ((s.operand 1 vb).lane k))) ∧
  ∀ a b : Word, b ≠ 0 →
    addLane (mulLane (divLane a b) b) (modLane a b) = a ∧
    (modLane a b).toInt.natAbs < b.toInt.natAbs ∧
    ((modLane a b).toInt < 0 → a.toInt < 0) ∧ (0 < (modLane a b).toInt → 0 < a.toInt) ∧
    (¬ (a = 0x80000000#32 ∧ b = 0xFFFFFFFF#32) →
      (divLane a b).toInt * b.toInt + (modLane a b).toInt = a.toInt) ∧
    (a = 0x80000000#32 → b = 0xFFFFFFFF#32 → divLane a b = 0x80000000#32 ∧ modLane a b = 0)

/-- R166 to R169 and R257 to R259: the bitwise instructions on all 128 bits. IXOR of a register with
itself gives zero in every lane that has been written; of a lane that has not, the two operands need not
agree (10_state.md R33). -/
def Obligations.BitwiseRows : Prop :=
  bitwiseRow 0x25 .iand (fun x y => x &&& y) ∧ bitwiseRow 0x26 .ior (fun x y => x ||| y) ∧
  bitwiseRow 0x27 .ixor (fun x y => x ^^^ y) ∧
  (∀ (vd va : Reg) (s : State), ∃ t, exec (.ixor vd va va) s = .next t ∧
    ∀ k, (s.marks va).lane k = true → (t.readReg vd).lane k = 0) ∧
  (∀ (vd va : Reg) (s : State), encodesRow 0x28 vd va 0 0 0 (fun _ => .inot vd va) ∧
    ∃ t, exec (.inot vd va) s = .next t ∧ s.changesOnly t [vd] ∧ t.marks vd = .splat true ∧
      (t.readReg vd).bits = ~~~ (s.operand 0 va).bits) ∧
  bitwiseRow 0x58 .fclrb (fun m a => a &&& ~~~ m) ∧ bitwiseRow 0x59 .fsetb (fun m a => a ||| m) ∧
  bitwiseRow 0x5A .ftglb (fun m a => a ^^^ m)

/-- R170 and R171: ISHL and ISHR shift each lane by the low 5 bits of the right operand's lane, ISHR with
copies of the sign bit. -/
def Obligations.ShiftRows : Prop :=
  lanewiseBinary 0x29 .ishl (fun a b => a <<< (b.toNat % 32)) ∧
  lanewiseBinary 0x2A .ishr (fun a b => a.sshiftRight (b.toNat % 32)) ∧
  ∀ a b : Word, a <<< (b.toNat % 32) = w32 (a.toNat * 2 ^ (b.toNat % 32)) ∧
    a.sshiftRight (b.toNat % 32) = w32 (a.toInt.fdiv (2 ^ (b.toNat % 32)))

/-- R173 to R176: the prefix forms leave the new value in both registers, also where they are one
register; the postfix forms leave the old value in `vd` and the new one in `va`. -/
def Obligations.IncrementDecrementRows : Prop :=
  ∀ (vd va : Reg) (s : State),
    encodesRow 0x2C vd va 0 0 0 (fun _ => .ipreinc vd va) ∧
    encodesRow 0x2D vd va 0 0 0 (fun _ => .ipostinc vd va) ∧
    encodesRow 0x2E vd va 0 0 0 (fun _ => .ipredec vd va) ∧
    encodesRow 0x2F vd va 0 0 0 (fun _ => .ipostdec vd va) ∧
    (∃ t, exec (.ipreinc vd va) s = .next t ∧ s.changesOnly t [vd, va] ∧
      t.marks vd = .splat true ∧ t.marks va = .splat true ∧
      ∀ k, (t.readReg va).lane k = w32 (((s.operand 0 va).lane k).toInt + 1) ∧
        (t.readReg vd).lane k = w32 (((s.operand 0 va).lane k).toInt + 1)) ∧
    (∃ t, exec (.ipredec vd va) s = .next t ∧ s.changesOnly t [vd, va] ∧
      t.marks vd = .splat true ∧ t.marks va = .splat true ∧
      ∀ k, (t.readReg va).lane k = w32 (((s.operand 0 va).lane k).toInt - 1) ∧
        (t.readReg vd).lane k = w32 (((s.operand 0 va).lane k).toInt - 1)) ∧
    (vd ≠ va → ∃ t, exec (.ipostinc vd va) s = .next t ∧ s.changesOnly t [vd, va] ∧
      t.marks vd = .splat true ∧ t.marks va = .splat true ∧
      ∀ k, (t.readReg va).lane k = w32 (((s.operand 0 va).lane k).toInt + 1) ∧
        (t.readReg vd).lane k = (s.operand 0 va).lane k) ∧
    (vd ≠ va → ∃ t, exec (.ipostdec vd va) s = .next t ∧ s.changesOnly t [vd, va] ∧
      t.marks vd = .splat true ∧ t.marks va = .splat true ∧
      ∀ k, (t.readReg va).lane k = w32 (((s.operand 0 va).lane k).toInt - 1) ∧
        (t.readReg vd).lane k = (s.operand 0 va).lane k)

/-! ## Integer comparison and mask select -/

/-- R191 to R198: each comparison and logical operator gives ALL1 where its predicate holds and ALL0
where it does not. -/
def Obligations.IntegerCompareRows : Prop :=
  lanewiseBinary 0x30 .iclt (fun a b => if a.toInt < b.toInt then ALL1 else ALL0) ∧
  lanewiseBinary 0x31 .icgt (fun a b => if a.toInt > b.toInt then ALL1 else ALL0) ∧
  lanewiseBinary 0x32 .iceq (fun a b => if a = b then ALL1 else ALL0) ∧
  lanewiseBinary 0x33 .icne (fun a b => if a ≠ b then ALL1 else ALL0) ∧
  lanewiseBinary 0x34 .icle (fun a b => if a.toInt ≤ b.toInt then ALL1 else ALL0) ∧
  lanewiseBinary 0x35 .icge (fun a b => if a.toInt ≥ b.toInt then ALL1 else ALL0) ∧
  lanewiseBinary 0x36 .iland (fun a b => if a ≠ 0 ∧ b ≠ 0 then ALL1 else ALL0) ∧
  lanewiseBinary 0x37 .ilor (fun a b => if a ≠ 0 ∨ b ≠ 0 then ALL1 else ALL0)

/-- The fourteen comparison and logical instructions always give a Mask, and IAND, IOR, IXOR and INOT of
Masks are Masks (43_integer_compare_mask.md R203). -/
def Obligations.ComparisonsGiveMasks : Prop :=
  (∀ (vd va vb : Reg) (s t : State),
    ∀ i ∈ [Instr.iclt vd va vb, .icgt vd va vb, .iceq vd va vb, .icne vd va vb, .icle vd va vb,
      .icge vd va vb, .iland vd va vb, .ilor vd va vb, .fclt vd va vb, .fcgt vd va vb,
      .fceq vd va vb, .fcne vd va vb, .fcle vd va vb, .fcge vd va vb],
      exec i s = .next t → Vec.isMask (t.readReg vd) = true) ∧
  ∀ (vd va vb : Reg) (s t : State), Vec.isMask (s.operand 0 va) = true →
    Vec.isMask (s.operand 1 vb) = true →
    ∀ i ∈ [Instr.iand vd va vb, .ior vd va vb, .ixor vd va vb, .inot vd va],
      exec i s = .next t → Vec.isMask (t.readReg vd) = true

/-- R199 to R202: CZERO, NOTCZERO and MERGE on all 128 bits, for every mask operand; MERGE is the union of
NOTCZERO and CZERO (where `vf`, which CZERO and MERGE both read, has been written) and takes each bit from
`vt` where the mask bit is 1 and from `vf` where it is 0; a mask lane that is ALL1 or ALL0 selects the whole
lane. -/
def Obligations.MaskSelectRows : Prop :=
  bitwiseRow 0x38 .czero (fun m a => a &&& ~~~ m) ∧ bitwiseRow 0x39 .notczero (fun m a => a &&& m) ∧
  ∀ (vd vm vt vf : Reg) (s : State),
    encodesRow 0x3A vd vm vt vf 0 (fun _ => .merge vd vm vt vf) ∧
    ∃ t tn tc, exec (.merge vd vm vt vf) s = .next t ∧ exec (.notczero vd vm vt) s = .next tn ∧
      exec (.czero vd vm vf) s = .next tc ∧ s.changesOnly t [vd] ∧ t.marks vd = .splat true ∧
      (t.readReg vd).bits = ((s.operand 1 vt).bits &&& (s.operand 0 vm).bits) |||
        ((s.operand 2 vf).bits &&& ~~~ (s.operand 0 vm).bits) ∧
      ((∀ k, (s.marks vf).lane k = true) →
        (t.readReg vd).bits = (tn.readReg vd).bits ||| (tc.readReg vd).bits) ∧
      (∀ j < 128, (t.readReg vd).bits.getLsbD j =
        if (s.operand 0 vm).bits.getLsbD j then (s.operand 1 vt).bits.getLsbD j
        else (s.operand 2 vf).bits.getLsbD j) ∧
      ∀ k, ((s.operand 0 vm).lane k = ALL1 →
          (tc.readReg vd).lane k = 0 ∧ (tn.readReg vd).lane k = (s.operand 1 vt).lane k ∧
          (t.readReg vd).lane k = (s.operand 1 vt).lane k) ∧
        ((s.operand 0 vm).lane k = ALL0 →
          (tc.readReg vd).lane k = (s.operand 1 vf).lane k ∧ (tn.readReg vd).lane k = 0 ∧
          (t.readReg vd).lane k = (s.operand 2 vf).lane k)

/-! ## Floating point -/

/-- 44_float_arith.md R211: the rounding of the model is round to nearest, ties to even, for every
nonzero rational, with overflow to infinity from `2^128 - 2^103` and signed zero below. -/
def Obligations.RoundingIsNearestEven : Prop :=
  ∀ (num : Int) (den : Nat), num ≠ 0 → 0 < den →
    isRoundingOf ((num : ℚ) / den * (2 : ℚ) ^ (-149 : ℤ)) (roundUnits num den)

/-- R212 and R213: `fadd` case by case, with the exact real sum rounded once, and `fsub` as `fadd` of the
operand with bit 31 inverted. -/
def Obligations.FaddFsubAreIeee : Prop :=
  (∀ x y : Word,
    (isNaN x = true ∨ isNaN y = true → fadd x y = canonNaN) ∧
    (isInf x = true → isInf y = true →
      fadd x y = if signBit x = signBit y then x else canonNaN) ∧
    (isInf x = true → isFinite y = true → fadd x y = x) ∧
    (isFinite x = true → isInf y = true → fadd x y = y) ∧
    (isZero x = true → isZero y = true →
      fadd x y = if x = 0x80000000#32 ∧ y = 0x80000000#32 then 0x80000000#32 else 0x00000000#32) ∧
    (isFinite x = true → isFinite y = true → ¬ (isZero x = true ∧ isZero y = true) →
      if ratValue x + ratValue y = 0 then fadd x y = 0x00000000#32
      else isRoundingOf (ratValue x + ratValue y) (fadd x y)) ∧
    (isZero x = true → isFinite y = true → isZero y = false → fadd x y = y ∧ fadd y x = y)) ∧
  ∀ x y : Word, fsub x y = fadd x (y ^^^ 0x80000000#32)

/-- R214: `fmul` case by case, with the exact real product rounded once. -/
def Obligations.FmulIsIeee : Prop :=
  ∀ x y : Word,
    (isNaN x = true ∨ isNaN y = true → fmul x y = canonNaN) ∧
    ((isZero x = true ∧ isInf y = true) ∨ (isInf x = true ∧ isZero y = true) →
      fmul x y = canonNaN) ∧
    (isInf x = true ∧ (isInf y = true ∨ (isFinite y = true ∧ isZero y = false)) ∨
      isInf y = true ∧ (isFinite x = true ∧ isZero x = false) →
      fmul x y = if signBit x = signBit y then 0x7F800000#32 else 0xFF800000#32) ∧
    (isZero x = true ∧ isFinite y = true ∨ isFinite x = true ∧ isZero y = true →
      fmul x y = if signBit x = signBit y then 0x00000000#32 else 0x80000000#32) ∧
    (isFinite x = true → isFinite y = true → isZero x = false → isZero y = false →
      isRoundingOf (ratValue x * ratValue y) (fmul x y))

/-- R215: `ffma` case by case, with the exact real value of `x*y + z` rounded once. -/
def Obligations.FfmaRoundsOnce : Prop :=
  ∀ x y z : Word,
    (isNaN x = true ∨ isNaN y = true ∨ isNaN z = true → ffma x y z = canonNaN) ∧
    ((isZero x = true ∧ isInf y = true) ∨ (isInf x = true ∧ isZero y = true) →
      ffma x y z = canonNaN) ∧
    (isInf x = true ∧ (isInf y = true ∨ (isFinite y = true ∧ isZero y = false)) ∨
      isInf y = true ∧ (isFinite x = true ∧ isZero x = false) → isNaN z = false →
      ffma x y z = if isInf z = true ∧ signBit z ≠ (signBit x ^^ signBit y) then canonNaN
        else if signBit x = signBit y then 0x7F800000#32 else 0xFF800000#32) ∧
    (isFinite x = true → isFinite y = true → isInf z = true → ffma x y z = z) ∧
    (isFinite x = true → isFinite y = true → isZero x = true ∨ isZero y = true →
      isZero z = true → ffma x y z =
        if signBit x ≠ signBit y ∧ z = 0x80000000#32 then 0x80000000#32 else 0x00000000#32) ∧
    (isFinite x = true → isFinite y = true → isZero x = true ∨ isZero y = true →
      isFinite z = true → isZero z = false → ffma x y z = z) ∧
    (isFinite x = true → isFinite y = true → isZero x = false → isZero y = false →
      isFinite z = true →
      if ratValue x * ratValue y + ratValue z = 0 then ffma x y z = 0x00000000#32
      else isRoundingOf (ratValue x * ratValue y + ratValue z) (ffma x y z))

/-- The NaN rule of R216, for every quiet NaN that `canonNaN` may be: `canonNaN` is one; every operation,
estimate and refinement with a NaN operand gives it; and every NaN that one of them gives is it. -/
def Obligations.NanResultsAreCanonical : Prop :=
  isNaN canonNaN = true ∧ isQuietNaN canonNaN = true ∧
  (∀ x y z : Word, isNaN x = true →
    fadd x y = canonNaN ∧ fadd y x = canonNaN ∧ fsub x y = canonNaN ∧ fsub y x = canonNaN ∧
    fmul x y = canonNaN ∧ fmul y x = canonNaN ∧ ffma x y z = canonNaN ∧ ffma y x z = canonNaN ∧
    ffma y z x = canonNaN) ∧
  (∀ x y : Word, isNaN x = true →
    rcpEst x = canonNaN ∧ rsqrtEst x = canonNaN ∧ nrRcp x y = canonNaN ∧ nrRcp y x = canonNaN ∧
    nrRsq x y = canonNaN ∧ nrRsq y x = canonNaN ∧ rcpLane x = canonNaN ∧ rsqrtLane x = canonNaN ∧
    fdivLane x y = canonNaN ∧ fdivLane y x = canonNaN ∧ fsqrtLane x = canonNaN) ∧
  (∀ x y : Word, ∀ z ∈ [fadd x y, fsub x y, fmul x y, rcpEst x, rsqrtEst x, nrRcp x y, nrRsq x y,
    rcpLane x, rsqrtLane x, fdivLane x y, fsqrtLane x], isNaN z = true → z = canonNaN) ∧
  ∀ x y z : Word, isNaN (ffma x y z) = true → ffma x y z = canonNaN

/-- R225: `ffma(x, y, -0)` is `fmul(x, y)` in every case; `ffma(x, y, +0)` is too but for an exact zero
product of negative sign, where it gives `+0` and `fmul` gives `-0`. -/
def Obligations.FmulThroughFusedUnit : Prop :=
  ∀ x y : Word,
    ffma x y 0x80000000#32 = fmul x y ∧
    (isFinite x = true → isFinite y = true → isZero x = true ∨ isZero y = true →
      signBit x ≠ signBit y →
      ffma x y 0x00000000#32 = 0x00000000#32 ∧ fmul x y = 0x80000000#32) ∧
    (¬ (isFinite x = true ∧ isFinite y = true ∧ (isZero x = true ∨ isZero y = true) ∧
      signBit x ≠ signBit y) → ffma x y 0x00000000#32 = fmul x y)

/-- R217 to R224: FADD, FSUB, FMUL, FMA, FNMS and FMS apply `fadd`, `fsub`, `fmul` and `ffma` to each
lane, FABS clears and FCPSGN replaces the sign bit. -/
def Obligations.FloatArithmeticRows : Prop :=
  lanewiseBinary 0x40 .fadd fadd ∧ lanewiseBinary 0x41 .fsub fsub ∧
  lanewiseBinary 0x42 .fmul fmul ∧
  lanewiseUnary 0x49 .fabs (fun a => a &&& 0x7FFFFFFF#32) ∧
  lanewiseBinary 0x4A .fcpsgn (fun a b => (a &&& 0x7FFFFFFF#32) ||| (b &&& 0x80000000#32)) ∧
  lanewiseTernary 0x4B .fma ffma ∧
  lanewiseTernary 0x4C .fnms (fun a b c => ffma (a ^^^ 0x80000000#32) b c) ∧
  lanewiseTernary 0x4D .fms (fun a b c => ffma a b (c ^^^ 0x80000000#32))

/-- R231: what the reciprocal estimator may answer, for every estimator the model leaves open. -/
def Obligations.ReciprocalEstimatorAdmissible : Prop :=
  rcpEst 0x00000000#32 = 0x7F800000#32 ∧ rcpEst 0x80000000#32 = 0xFF800000#32 ∧
  rcpEst 0x7F800000#32 = 0x00000000#32 ∧ rcpEst 0xFF800000#32 = 0x80000000#32 ∧
  ∀ b : Word,
    (isNaN b = true → rcpEst b = canonNaN) ∧
    (isFinite b = true → (2 : ℚ) ^ (-126 : ℤ) ≤ |ratValue b| → |ratValue b| ≤ 2 ^ 126 →
      isFinite (rcpEst b) = true ∧ isZero (rcpEst b) = false ∧
      signBit (rcpEst b) = signBit b ∧
      |ratValue (rcpEst b) * ratValue b - 1| ≤ (2 : ℚ) ^ (-12 : ℤ)) ∧
    (isFinite b = true → isZero b = false → signBit (rcpEst b) = signBit b ∧
      isNaN (rcpEst b) = false)

/-- R232: what the reciprocal square root estimator may answer, for every estimator the model leaves
open. -/
def Obligations.RsqrtEstimatorAdmissible : Prop :=
  rsqrtEst 0x00000000#32 = 0x7F800000#32 ∧ rsqrtEst 0x80000000#32 = 0xFF800000#32 ∧
  rsqrtEst 0x7F800000#32 = 0x00000000#32 ∧
  ∀ a : Word,
    (isNaN a = true → rsqrtEst a = canonNaN) ∧
    (isNaN a = false → isZero a = false → signBit a = true → rsqrtEst a = canonNaN) ∧
    (isFinite a = true → signBit a = false → expo a ≠ 0 →
      isFinite (rsqrtEst a) = true ∧ isZero (rsqrtEst a) = false ∧
      signBit (rsqrtEst a) = false ∧
      |ratValue (rsqrtEst a) * ratValue (rsqrtEst a) * ratValue a - 1| ≤ (2 : ℚ) ^ (-11 : ℤ)) ∧
    (expo a = 0 → signBit a = false → isZero a = false →
      signBit (rsqrtEst a) = false ∧ isZero (rsqrtEst a) = false ∧ isNaN (rsqrtEst a) = false)

/-- R233 to R240: each instruction of the estimate-and-refine family is its estimate and exactly two
refinements, each operation rounded, for every estimator. -/
def Obligations.EstimateAndRefineRows : Prop :=
  (∀ b r : Word, nrRcp b r = fmul r (fsub 0x40000000#32 (fmul b r))) ∧
  (∀ a r : Word, nrRsq a r =
    fmul (fmul r 0x3F000000#32) (fsub 0x40400000#32 (fmul a (fmul r r)))) ∧
  lanewiseUnary 0x44 .frcpa rcpEst ∧
  lanewiseUnary 0x45 .frcp (fun b => nrRcp b (nrRcp b (rcpEst b))) ∧
  lanewiseUnary 0x46 .frsqrta rsqrtEst ∧
  lanewiseUnary 0x47 .frsqrt (fun a => nrRsq a (nrRsq a (rsqrtEst a))) ∧
  lanewiseBinary 0x43 .fdiv (fun a b => fmul a (nrRcp b (nrRcp b (rcpEst b)))) ∧
  lanewiseUnary 0x48 .fsqrt (fun a => fmul a (nrRsq a (nrRsq a (rsqrtEst a))))

/-- R241: the results at the special operands, as the estimators' required values and the arithmetic give
them, whatever the estimators answer elsewhere. `x` is the operand of the unary instructions and `y` the
divisor of FDIV. -/
def Obligations.PolesOfRefinedFamily : Prop :=
  ∀ (vd va vb : Reg) (s : State) (k : Fin 4),
    ∃ ta tr td qa tq ts, exec (.frcpa vd va) s = .next ta ∧ exec (.frcp vd va) s = .next tr ∧
      exec (.fdiv vd vb va) s = .next td ∧ exec (.frsqrta vd va) s = .next qa ∧
      exec (.frsqrt vd va) s = .next tq ∧ exec (.fsqrt vd va) s = .next ts ∧
      let x := (s.operand 0 va).lane k
      let y := (s.operand 1 va).lane k
      (x = 0x00000000#32 →
        (ta.readReg vd).lane k = 0x7F800000#32 ∧ (qa.readReg vd).lane k = 0x7F800000#32) ∧
      (x = 0x80000000#32 →
        (ta.readReg vd).lane k = 0xFF800000#32 ∧ (qa.readReg vd).lane k = 0xFF800000#32) ∧
      (x = 0x7F800000#32 →
        (ta.readReg vd).lane k = 0x00000000#32 ∧ (qa.readReg vd).lane k = 0x00000000#32) ∧
      (x = 0xFF800000#32 →
        (ta.readReg vd).lane k = 0x80000000#32 ∧ (qa.readReg vd).lane k = canonNaN) ∧
      (isNaN x = true → (ta.readReg vd).lane k = canonNaN ∧ (qa.readReg vd).lane k = canonNaN) ∧
      (isZero x = true ∨ isInf x = true ∨ isNaN x = true → (tr.readReg vd).lane k = canonNaN ∧
        (tq.readReg vd).lane k = canonNaN ∧ (ts.operand 3 vd).lane k = canonNaN) ∧
      (isZero y = true ∨ isInf y = true ∨ isNaN y = true → (td.readReg vd).lane k = canonNaN) ∧
      (isFinite x = true → isZero x = false → signBit x = true →
        (qa.readReg vd).lane k = canonNaN ∧ (tq.readReg vd).lane k = canonNaN ∧
        (ts.operand 3 vd).lane k = canonNaN) ∧
      (isNaN ((s.operand 0 vb).lane k) = true → (td.readReg vd).lane k = canonNaN)

/-- R250 to R256: the float predicates compare the values as extended reals and are false, `fne` true,
where either operand is a NaN; each comparison gives ALL1 where its predicate holds and ALL0 where it
does not. -/
def Obligations.FloatCompareRows : Prop :=
  (∀ x y : Word,
    (isNaN x = true ∨ isNaN y = true →
      flt x y = false ∧ fgt x y = false ∧ feq x y = false ∧ fne x y = true ∧ fle x y = false ∧
      fge x y = false) ∧
    (isNaN x = false → isNaN y = false →
      (flt x y = true ↔ extRat x < extRat y) ∧ (fgt x y = true ↔ extRat x > extRat y) ∧
      (feq x y = true ↔ extRat x = extRat y) ∧ (fne x y = true ↔ extRat x ≠ extRat y) ∧
      (fle x y = true ↔ extRat x ≤ extRat y) ∧ (fge x y = true ↔ extRat x ≥ extRat y)) ∧
    fne x y = !feq x y ∧ fle x y = (flt x y || feq x y) ∧ fge x y = (fgt x y || feq x y)) ∧
  lanewiseBinary 0x50 .fclt (fun x y => if flt x y = true then ALL1 else ALL0) ∧
  lanewiseBinary 0x51 .fcgt (fun x y => if fgt x y = true then ALL1 else ALL0) ∧
  lanewiseBinary 0x52 .fceq (fun x y => if feq x y = true then ALL1 else ALL0) ∧
  lanewiseBinary 0x53 .fcne (fun x y => if fne x y = true then ALL1 else ALL0) ∧
  lanewiseBinary 0x54 .fcle (fun x y => if fle x y = true then ALL1 else ALL0) ∧
  lanewiseBinary 0x55 .fcge (fun x y => if fge x y = true then ALL1 else ALL0)

/-- R270 to R272: MINC, MDEC and MSCALE replace lane `k` of memory by memory plus, minus or times the
register's lane, and change nothing else. -/
def Obligations.MemoryUpdateRows : Prop :=
  ∀ (va : Reg) (addr : Word) (s : State),
    encodesRow 0x15 va 0 0 0 0 (fun x => .minc va (x.lane 0)) ∧
    encodesRow 0x16 va 0 0 0 0 (fun x => .mdec va (x.lane 0)) ∧
    encodesRow 0x17 va 0 0 0 0 (fun x => .mscale va (x.lane 0)) ∧
    checksAlignment (.minc va addr) 16 [addr] ∧ checksAlignment (.mdec va addr) 16 [addr] ∧
    checksAlignment (.mscale va addr) 16 [addr] ∧
    (addr.toNat % 16 = 0 → ∀ m : Vec, (∀ k : Fin 4, s.mem.holds (elementAddr addr k) (m.lane k)) →
      (∃ t, exec (.minc va addr) s = .next t ∧ s.storesOnly t (within addr 16) ∧
        ∀ k : Fin 4, t.mem.holds (elementAddr addr k) (fadd (m.lane k) ((s.operand 0 va).lane k))) ∧
      (∃ t, exec (.mdec va addr) s = .next t ∧ s.storesOnly t (within addr 16) ∧
        ∀ k : Fin 4, t.mem.holds (elementAddr addr k) (fsub (m.lane k) ((s.operand 0 va).lane k))) ∧
      ∃ t, exec (.mscale va addr) s = .next t ∧ s.storesOnly t (within addr 16) ∧
        ∀ k : Fin 4, t.mem.holds (elementAddr addr k) (fmul (m.lane k) ((s.operand 0 va).lane k)))
end

