-- ==== Sys2Proof/Laws/Decode.lean ====
section
/-! SUPPORT. The fields of an assembled command word are the fields it was assembled from. -/

namespace Sys2Proof

/-- The value of a command word is the sum of its fields, with no carry between them. -/
theorem assembleWord_toNat {op : Nat} (h : op < 256) (f : Fields) :
    (assembleWord op f).toNat = op * 2 ^ 24 + f.a.val * 2 ^ 20 + f.b.val * 2 ^ 16
      + f.c.val * 2 ^ 12 + f.d.val * 2 ^ 8 + f.i.toNat := by
  have ha := f.a.isLt
  have hb := f.b.isLt
  have hc := f.c.isLt
  have hd := f.d.isLt
  have hi := f.i.isLt
  simp only [assembleWord, BitVec.toNat_ofNat]
  omega

/-- The opcode of an assembled command word. -/
theorem opcodeOf_assembleWord {op : Nat} (h : op < 256) (f : Fields) :
    opcodeOf (assembleWord op f) = op := by
  have ha := f.a.isLt
  have hb := f.b.isLt
  have hc := f.c.isLt
  have hd := f.d.isLt
  have hi := f.i.isLt
  rw [opcodeOf, assembleWord_toNat h]
  omega

/-- The fields of an assembled command word. -/
theorem fieldsOf_assembleWord {op : Nat} (h : op < 256) (f : Fields) :
    fieldsOf ⟨assembleWord op f, f.x⟩ = f := by
  obtain ⟨⟨a, ha⟩, ⟨b, hb⟩, ⟨c, hc⟩, ⟨d, hd⟩, i, x⟩ := f
  have hi := i.isLt
  simp only [fieldsOf, assembleWord_toNat h, Fin.ofNat, Fields.mk.injEq, Fin.mk.injEq, and_true]
  refine ⟨by omega, by omega, by omega, by omega, ?_⟩
  apply BitVec.eq_of_toNat_eq
  simp only [BitVec.toNat_ofNat]
  omega

/-- Every opcode fits its field. -/
theorem Instr.opcode_lt (i : Instr) : i.opcode < 256 := by
  cases i <;> exact of_decide_eq_true rfl

/-- The opcode of an encoded instruction. -/
theorem opcodeOf_encode (i : Instr) : opcodeOf (encode i).w = i.opcode :=
  opcodeOf_assembleWord i.opcode_lt i.fields

/-- The fields of an encoded instruction. -/
theorem fieldsOf_encode (i : Instr) : fieldsOf (encode i) = i.fields :=
  fieldsOf_assembleWord i.opcode_lt i.fields

/-- The decoder accepts a word only in a format whose reserved bits it has zero. -/
theorem decode_ok_iff (b : Beat) (i : Instr) :
    decode b = .ok i ↔ ∃ fmt make, opcodeRow (opcodeOf b.w) = some (fmt, make) ∧
      reservedBitsZero fmt b.w = true ∧ make (fieldsOf b) = i ∧ i.wellFormed = true := by
  unfold decode
  cases h : opcodeRow (opcodeOf b.w) with
  | none => simp
  | some p =>
    obtain ⟨fmt, make⟩ := p
    by_cases h1 : reservedBitsZero fmt b.w = true
    · by_cases h2 : (make (fieldsOf b)).wellFormed = true
      · simp only [h1, h2, if_true, Except.ok.injEq, Option.some.injEq, Prod.mk.injEq]
        exact ⟨fun e => ⟨fmt, make, ⟨rfl, rfl⟩, h1, e, e ▸ h2⟩,
          fun ⟨_, _, ⟨e1, e2⟩, _, e3, _⟩ => by rw [e2]; exact e3⟩
      · simp only [h1, h2, if_true, Option.some.injEq, Prod.mk.injEq]
        constructor
        · intro e; simp at e
        · rintro ⟨_, _, ⟨_, rfl⟩, _, rfl, h4⟩
          exact absurd h4 h2
    · simp only [h1, Option.some.injEq, Prod.mk.injEq]
      constructor
      · intro e; simp at e
      · rintro ⟨_, _, ⟨rfl, _⟩, h3, _⟩
        exact absurd h3 h1

/-- A decoded instruction is well formed. -/
theorem wellFormed_of_decode {b : Beat} {i : Instr} (h : decode b = .ok i) : i.wellFormed = true := by
  obtain ⟨_, _, _, _, _, h⟩ := (decode_ok_iff b i).mp h
  exact h

end Sys2Proof
end

