-- ==== Sys2Proof/Laws/Encoding.lean ====
section
/-! SUPPORT. How an assembled beat decodes: its reserved bits are zero, and it is the instruction its row
makes of the fields. One lemma for each format gives `encodesRow`. -/

namespace Sys2Proof.Machine

/-- A beat whose opcode is assigned and whose reserved bits are zero decodes to what its row makes, or
is refused for its registers. -/
theorem decode_of_row {b : Beat} {fmt : Format} {make : Fields → Instr}
    (hr : opcodeRow (opcodeOf b.w) = some (fmt, make)) (hz : reservedBitsZero fmt b.w = true) :
    decode b = if (make (fieldsOf b)).wellFormed then .ok (make (fieldsOf b))
      else .error .reservedRegisters := by
  unfold decode
  rw [hr]
  simp only [hz, if_true]

/-- The same for an assembled beat, whose fields are the ones it was assembled from. -/
theorem decode_beatOf {op : Nat} (h : op < 256) {a b c d : Reg} {i : BitVec 8} {x : Quad Word}
    {fmt : Format} {make : Fields → Instr} (hr : opcodeRow op = some (fmt, make))
    (hz : reservedBitsZero fmt (assembleWord op ⟨a, b, c, d, i, x⟩) = true) :
    decode (beatOf op a b c d i x) =
      if (make ⟨a, b, c, d, i, x⟩).wellFormed then .ok (make ⟨a, b, c, d, i, x⟩)
      else .error .reservedRegisters := by
  have hf : fieldsOf (beatOf op a b c d i x) = ⟨a, b, c, d, i, x⟩ :=
    fieldsOf_assembleWord h ⟨a, b, c, d, i, x⟩
  have ho : opcodeOf (beatOf op a b c d i x).w = op :=
    opcodeOf_assembleWord h ⟨a, b, c, d, i, x⟩
  have := decode_of_row (b := beatOf op a b c d i x) (by rw [ho]; exact hr) hz
  rwa [hf] at this

section Formats

variable {op : Nat} {make : Fields → Instr} {ins : Quad Word → Instr}

/-- Rows of format Z. -/
theorem encodesRow_z (h : op < 256) (hr : opcodeRow op = some (.z, make))
    (hm : ∀ x, make ⟨0, 0, 0, 0, 0, x⟩ = ins x) : encodesRow op 0 0 0 0 0 ins := fun x => by
  rw [decode_beatOf h hr (by rw [reservedBitsZero, assembleWord_toNat h]; simp), hm]

/-- Rows of format R1. -/
theorem encodesRow_r1 (h : op < 256) {a : Reg} (hr : opcodeRow op = some (.r1, make))
    (hm : ∀ x, make ⟨a, 0, 0, 0, 0, x⟩ = ins x) : encodesRow op a 0 0 0 0 ins := fun x => by
  have ha := a.isLt
  rw [decode_beatOf h hr (by rw [reservedBitsZero, assembleWord_toNat h]; simp; omega), hm]

/-- Rows of format R2. -/
theorem encodesRow_r2 (h : op < 256) {a b : Reg} (hr : opcodeRow op = some (.r2, make))
    (hm : ∀ x, make ⟨a, b, 0, 0, 0, x⟩ = ins x) : encodesRow op a b 0 0 0 ins := fun x => by
  rw [decode_beatOf h hr (by rw [reservedBitsZero, assembleWord_toNat h]; simp; omega), hm]

/-- Rows of format R3. -/
theorem encodesRow_r3 (h : op < 256) {a b c : Reg} (hr : opcodeRow op = some (.r3, make))
    (hm : ∀ x, make ⟨a, b, c, 0, 0, x⟩ = ins x) : encodesRow op a b c 0 0 ins := fun x => by
  rw [decode_beatOf h hr (by rw [reservedBitsZero, assembleWord_toNat h]; simp; omega), hm]

/-- Rows of format R4. -/
theorem encodesRow_r4 (h : op < 256) {a b c d : Reg} (hr : opcodeRow op = some (.r4, make))
    (hm : ∀ x, make ⟨a, b, c, d, 0, x⟩ = ins x) : encodesRow op a b c d 0 ins := fun x => by
  rw [decode_beatOf h hr (by rw [reservedBitsZero, assembleWord_toNat h]; simp; omega), hm]

/-- Rows of format R1I. -/
theorem encodesRow_r1i (h : op < 256) {a : Reg} {n : Fin 4} (hr : opcodeRow op = some (.r1i, make))
    (hm : ∀ x, make ⟨a, 0, 0, 0, BitVec.ofNat 8 n, x⟩ = ins x) :
    encodesRow op a 0 0 0 (BitVec.ofNat 8 n) ins := fun x => by
  have hn := n.isLt
  rw [decode_beatOf h hr (by rw [reservedBitsZero, assembleWord_toNat h]; simp; omega), hm]

/-- Rows of format R2I2. -/
theorem encodesRow_r2i2 (h : op < 256) {a b : Reg} {n : Fin 4}
    (hr : opcodeRow op = some (.r2i2, make))
    (hm : ∀ x, make ⟨a, b, 0, 0, BitVec.ofNat 8 n, x⟩ = ins x) :
    encodesRow op a b 0 0 (BitVec.ofNat 8 n) ins := fun x => by
  have hn := n.isLt
  rw [decode_beatOf h hr (by rw [reservedBitsZero, assembleWord_toNat h]; simp; omega), hm]

/-- Rows of format R2I8. -/
theorem encodesRow_r2i8 (h : op < 256) {a b : Reg} {i : BitVec 8}
    (hr : opcodeRow op = some (.r2i8, make))
    (hm : ∀ x, make ⟨a, b, 0, 0, i, x⟩ = ins x) : encodesRow op a b 0 0 i ins := fun x => by
  have hi := i.isLt
  rw [decode_beatOf h hr (by rw [reservedBitsZero, assembleWord_toNat h]; simp; omega), hm]

end Formats

/-- The lane index that a 2-bit immediate field carries is read back (30_encoding.md R84). -/
theorem laneIndex_ofNat (a b c d : Reg) (n : Fin 4) (x : Quad Word) :
    (⟨a, b, c, d, BitVec.ofNat 8 n, x⟩ : Fields).laneIndex = n := by
  have hn := n.isLt
  simp only [Fields.laneIndex, BitVec.toNat_ofNat]
  apply Fin.ext
  simp only [Fin.ofNat]
  omega

end Sys2Proof.Machine
end

