-- ==== Sys2Proof/Laws/Float.lean ====
section
/-! SUPPORT. Facts about the free NaN that hold for every value it may take. -/

namespace Sys2Proof.Machine

theorem expo_or (x y : Word) : expo (x ||| y) = expo x ||| expo y := by
  simp only [expo]; ext i hi; simp

theorem frac_or (x y : Word) : frac (x ||| y) = frac x ||| frac y := by
  simp only [frac]; ext i hi; simp

theorem expo_xor (x y : Word) : expo (x ^^^ y) = expo x ^^^ expo y := by
  simp only [expo]; ext i hi; simp

theorem frac_xor (x y : Word) : frac (x ^^^ y) = frac x ^^^ frac y := by
  simp only [frac]; ext i hi; simp

/-- The exponent of `canonNaN` is all ones. -/
@[simp] theorem expo_canonNaN : expo canonNaN = 255 := by
  rw [canonNaN, expo_or, show expo 0x7FC00000#32 = BitVec.allOnes 8 from rfl, BitVec.or_allOnes]
  rfl

/-- Bit 22 of `canonNaN` is 1: it is quiet. -/
@[simp] theorem quietBit_canonNaN : canonNaN.getLsbD 22 = true := by
  simp [canonNaN]

/-- A word with bit 22 set has a nonzero fraction. -/
theorem frac_ne_zero_of_bit {x : Word} (h : x.getLsbD 22 = true) : frac x ≠ 0 := fun e => by
  have h' : (frac x).getLsbD 22 = true := by
    rw [frac, BitVec.getLsbD_extractLsb', Nat.zero_add, h]; rfl
  rw [e] at h'
  exact absurd h' (by decide)

/-- `canonNaN` is a NaN. -/
@[simp] theorem isNaN_canonNaN : isNaN canonNaN = true := by
  rw [isNaN, expo_canonNaN]
  simpa using frac_ne_zero_of_bit quietBit_canonNaN

/-- The sign of a word does not decide whether it is a NaN. -/
theorem isNaN_neg (x : Word) : isNaN (neg x) = isNaN x := by
  have he : expo (neg x) = expo x := by
    rw [neg, expo_xor, show expo 0x80000000#32 = 0#_ from rfl, BitVec.xor_zero]
  have hf : frac (neg x) = frac x := by
    rw [neg, frac_xor, show frac 0x80000000#32 = 0#_ from rfl, BitVec.xor_zero]
  simp only [isNaN, he, hf]

theorem isNaN_neg_canonNaN : isNaN (neg canonNaN) = true := by
  rw [isNaN_neg, isNaN_canonNaN]

end Sys2Proof.Machine
end

