-- ==== Sys2Proof/Laws/Lanes.lean ====
section
/-! SUPPORT. The small lemmas of four-lane values: what each lane of a built value is, and that a value
is its four lanes. -/

namespace Sys2Proof

namespace Quad

variable {α β γ δ : Type}

/-- A value is its four lanes. -/
theorem ext_lane {v w : Quad α} (h : ∀ k, v.lane k = w.lane k) : v = w := by
  have h0 := h 0
  have h1 := h 1
  have h2 := h 2
  have h3 := h 3
  cases v
  cases w
  simp_all [lane]

@[simp] theorem lane_ofFn (f : Fin 4 → α) (k : Fin 4) : (ofFn f).lane k = f k := by
  match k with
  | 0 | 1 | 2 | 3 => rfl

@[simp] theorem lane_splat (x : α) (k : Fin 4) : (splat x).lane k = x := by
  match k with
  | 0 | 1 | 2 | 3 => rfl

@[simp] theorem lane_map (f : α → β) (v : Quad α) (k : Fin 4) : (v.map f).lane k = f (v.lane k) := by
  match k with
  | 0 | 1 | 2 | 3 => rfl

@[simp] theorem lane_map₂ (f : α → β → γ) (v : Quad α) (w : Quad β) (k : Fin 4) :
    (v.map₂ f w).lane k = f (v.lane k) (w.lane k) := by
  match k with
  | 0 | 1 | 2 | 3 => rfl

@[simp] theorem lane_map₃ (f : α → β → γ → δ) (u : Quad α) (v : Quad β) (w : Quad γ) (k : Fin 4) :
    (map₃ f u v w).lane k = f (u.lane k) (v.lane k) (w.lane k) := by
  match k with
  | 0 | 1 | 2 | 3 => rfl

@[simp] theorem lane_setLane_same (v : Quad α) (k : Fin 4) (x : α) : (v.setLane k x).lane k = x := by
  match k with
  | 0 | 1 | 2 | 3 => rfl

theorem lane_setLane_of_ne (v : Quad α) {k j : Fin 4} (h : k ≠ j) (x : α) :
    (v.setLane k x).lane j = v.lane j := by
  match k, j with
  | 0, 1 | 0, 2 | 0, 3 | 1, 0 | 1, 2 | 1, 3 | 2, 0 | 2, 1 | 2, 3 | 3, 0 | 3, 1 | 3, 2 => rfl
  | 0, 0 | 1, 1 | 2, 2 | 3, 3 => exact absurd rfl h

/-- The list of the lanes holds each lane. -/
theorem mem_toList {v : Quad α} {x : α} : x ∈ v.toList ↔ ∃ k, v.lane k = x := by
  constructor
  · intro h
    simp only [toList, List.mem_cons, List.not_mem_nil, or_false] at h
    rcases h with h | h | h | h
    · exact ⟨0, h.symm⟩
    · exact ⟨1, h.symm⟩
    · exact ⟨2, h.symm⟩
    · exact ⟨3, h.symm⟩
  · rintro ⟨k, rfl⟩
    match k with
    | 0 | 1 | 2 | 3 => simp [toList, lane]

end Quad

namespace Machine

@[simp] theorem lane_and (v w : Vec) (k : Fin 4) : (Vec.and v w).lane k = v.lane k &&& w.lane k :=
  Quad.lane_map₂ _ v w k

@[simp] theorem lane_or (v w : Vec) (k : Fin 4) : (Vec.or v w).lane k = v.lane k ||| w.lane k :=
  Quad.lane_map₂ _ v w k

@[simp] theorem lane_xor (v w : Vec) (k : Fin 4) : (Vec.xor v w).lane k = v.lane k ^^^ w.lane k :=
  Quad.lane_map₂ _ v w k

@[simp] theorem lane_not (v : Vec) (k : Fin 4) : (Vec.not v).lane k = ~~~ v.lane k :=
  Quad.lane_map _ v k

@[simp] theorem lane_shuffle (v : Vec) (sel : BitVec 8) (k : Fin 4) :
    (Vec.shuffle v sel).lane k = v.lane (selectorIndex sel k) :=
  Quad.lane_ofFn _ k

@[simp] theorem lane_transpose {α : Type} (rows : Quad (Quad α)) (k p : Fin 4) :
    ((transpose rows).lane k).lane p = (rows.lane p).lane k := by
  simp [transpose]

@[simp] theorem lane_readVec (m : Memory) (a : Word) (k : Fin 4) :
    (m.readVec a).lane k = m.readWord (elementAddr a k) :=
  Quad.lane_ofFn _ k

@[simp] theorem lane_gather_val (s : State) (ptrs : Quad Word) (k : Nat) (p : Fin 4) :
    (s.gather ptrs k).val.lane p = s.mem.readWord (elementAddr (ptrs.lane p) k) :=
  Quad.lane_map _ ptrs p

end Machine

end Sys2Proof
end

