-- ==== Sys2Proof/Laws/Memory.lean ====
section
/-! SUPPORT. What each memory operation does to what a byte reads as, and that each keeps the canonical
form. -/

namespace Sys2Proof.Machine

/-! ## One byte -/

/-- Everything a byte write does: that address finds the new byte, every other what it found. -/
theorem Memory.find_put (m : Memory) (a : Nat) (b : Byte) (a' : Nat) :
    (m.put a b).find a' = if a = a' then some b else m.find a' := by
  induction m with
  | nil => simp [Memory.put, Memory.find]
  | cons c m ih =>
    obtain ⟨k, v⟩ := c
    simp only [Memory.put]
    split
    · simp [Memory.find]
    · split
      · rename_i h; subst h
        simp only [Memory.find]
        split <;> rfl
      · rename_i h
        simp only [Memory.find, ih]
        split
        · rename_i hk
          have : a ≠ a' := fun e => h (e.trans hk.symm)
          simp [this]
        · rfl

theorem Memory.byteAt_put (m : Memory) (a : Word) (b : Byte) (a' : Word) :
    (m.put a.toNat b).byteAt a' = if a = a' then b else m.byteAt a' := by
  simp only [Memory.byteAt, Memory.find_put, BitVec.toNat_inj]
  split <;> rfl

/-- The canonical form, as a proposition. -/
theorem Memory.wf_iff (m : Memory) :
    m.wf = true ↔ m.Pairwise (fun c d => c.1 < d.1) ∧ ∀ c ∈ m, c.1 < 2 ^ 32 := by
  simp [Memory.wf]

theorem Memory.mem_put {m : Memory} {a : Nat} {b : Byte} {c : Host.Cell} (h : c ∈ m.put a b) :
    c = (a, b) ∨ c ∈ m := by
  induction m with
  | nil => simpa [Memory.put] using h
  | cons d m ih =>
    obtain ⟨k, v⟩ := d
    simp only [Memory.put] at h
    split at h
    · simpa using h
    · split at h
      · rcases List.mem_cons.mp h with h | h
        · exact .inl h
        · exact .inr (List.mem_cons_of_mem _ h)
      · rcases List.mem_cons.mp h with h | h
        · exact .inr (h ▸ List.mem_cons_self ..)
        · exact (ih h).imp id (List.mem_cons_of_mem _)

/-- A byte write keeps the canonical form. -/
theorem Memory.wf_put {m : Memory} (h : m.wf = true) {a : Nat} (ha : a < 2 ^ 32) (b : Byte) :
    (m.put a b).wf = true := by
  rw [Memory.wf_iff] at h ⊢
  refine ⟨?_, fun c hc => ?_⟩
  · induction m with
    | nil => simp [Memory.put]
    | cons d m ih =>
      obtain ⟨k, v⟩ := d
      obtain ⟨hp, hb⟩ := h
      rw [List.pairwise_cons] at hp
      simp only [Memory.put]
      split
      · rename_i hlt
        refine List.pairwise_cons.mpr ⟨fun c hc => ?_, List.pairwise_cons.mpr hp⟩
        rcases List.mem_cons.mp hc with rfl | hc
        · exact hlt
        · exact hlt.trans (hp.1 c hc)
      · split
        · rename_i heq; subst heq
          exact List.pairwise_cons.mpr hp
        · rename_i h1 h2
          refine List.pairwise_cons.mpr ⟨fun c hc => ?_, ih ⟨hp.2, fun c hc => hb c (by simp [hc])⟩⟩
          rcases Memory.mem_put hc with rfl | hc
          · exact Nat.lt_of_le_of_ne (Nat.le_of_not_lt h1) (Ne.symm h2)
          · exact hp.1 c hc
  · rcases Memory.mem_put hc with rfl | hc
    · exact ha
    · exact h.2 c hc

/-! ## Consecutive bytes -/

theorem Memory.wf_writeBytes {m : Memory} (h : m.wf = true) (a : Word) (bs : List Byte) :
    (m.writeBytes a bs).wf = true := by
  induction bs generalizing m a with
  | nil => exact h
  | cons b bs ih => exact ih (Memory.wf_put h a.isLt b) (a + 1)

/-- The step from an address to the next, seen as an offset. -/
theorem offset_succ {a a' : Word} (h : a ≠ a') : (a' - a).toNat = (a' - (a + 1)).toNat + 1 := by
  have : a.toNat ≠ a'.toNat := fun e => h (BitVec.toNat_inj.mp e)
  bv_omega

/-- Everything a write of consecutive bytes does to one byte: an address at offset `i` inside the range
reads byte `i` of the list, every other address as before. Addresses wrap at 2^32. -/
theorem Memory.byteAt_writeBytes (m : Memory) (a : Word) (bs : List Byte) (hl : bs.length ≤ 2 ^ 32)
    (a' : Word) :
    (m.writeBytes a bs).byteAt a' = (bs[(a' - a).toNat]?).getD (m.byteAt a') := by
  induction bs generalizing m a with
  | nil => simp [Memory.writeBytes]
  | cons b bs ih =>
    have hl' : bs.length + 1 ≤ 2 ^ 32 := by simpa using hl
    rw [Memory.writeBytes, ih _ _ (by omega), Memory.byteAt_put]
    by_cases h : a = a'
    · subst h
      have hn : bs.length ≤ (a - (a + 1)).toNat := by
        have : (a - (a + 1)).toNat = 2 ^ 32 - 1 := by bv_omega
        omega
      rw [List.getElem?_eq_none hn]
      simp
    · rw [offset_succ h, List.getElem?_cons_succ, if_neg h]

/-- A byte outside the written range reads as before. -/
theorem Memory.byteAt_writeBytes_outside (m : Memory) (a : Word) (bs : List Byte)
    (hl : bs.length ≤ 2 ^ 32) {a' : Word} (h : bs.length ≤ (a' - a).toNat) :
    (m.writeBytes a bs).byteAt a' = m.byteAt a' := by
  rw [Memory.byteAt_writeBytes m a bs hl, List.getElem?_eq_none h, Option.getD_none]

/-! ## Words and vectors -/

@[simp] theorem wordBytes_length (x : Word) : (wordBytes x).length = 4 := rfl

@[simp] theorem vecBytes_length (v : Vec) : (vecBytes v).length = 16 := rfl

/-- The four bytes of a word put back together. -/
theorem wordBytes_append (x : Word) :
    x.extractLsb' 24 8 ++ x.extractLsb' 16 8 ++ x.extractLsb' 8 8 ++ x.extractLsb' 0 8 = x := by
  ext i hi
  simp only [BitVec.getElem_append, BitVec.getElem_extractLsb']
  split
  · simp [BitVec.getLsbD_eq_getElem hi]
  · split
    · rw [show 8 + (i - 8) = i by omega, BitVec.getLsbD_eq_getElem hi]
    · split
      · rw [show 16 + (i - 8 - 8) = i by omega, BitVec.getLsbD_eq_getElem hi]
      · rw [show 24 + (i - 8 - 8 - 8) = i by omega, BitVec.getLsbD_eq_getElem hi]

theorem Memory.wf_writeWord {m : Memory} (h : m.wf = true) (a x : Word) :
    (m.writeWord a x).wf = true :=
  Memory.wf_writeBytes h a _

theorem Memory.wf_writeVec {m : Memory} (h : m.wf = true) (a : Word) (v : Vec) :
    (m.writeVec a v).wf = true :=
  Memory.wf_writeBytes h a _

/-- Everything a word write does to one byte. -/
theorem Memory.byteAt_writeWord (m : Memory) (a x a' : Word) :
    (m.writeWord a x).byteAt a' = ((wordBytes x)[(a' - a).toNat]?).getD (m.byteAt a') :=
  Memory.byteAt_writeBytes m a _ (by simp) a'

/-- Everything a vector write does to one byte. -/
theorem Memory.byteAt_writeVec (m : Memory) (a : Word) (v : Vec) (a' : Word) :
    (m.writeVec a v).byteAt a' =
      ((vecBytes v)[(a' - a).toNat]?).getD (m.byteAt a') :=
  Memory.byteAt_writeBytes m a _ (by rw [vecBytes_length]; decide) a'

/-- Reading back a vector that was just written gives it. -/
theorem Memory.readVec_writeVec_same (m : Memory) (a : Word) (v : Vec) :
    (m.writeVec a v).readVec a = v := by
  have off : ∀ (e j : Nat), e < 4 → j < 4 →
      (elementAddr a e + BitVec.ofNat 32 j - a).toNat = 4 * e + j := by
    intro e j he hj
    have : elementAddr a e + BitVec.ofNat 32 j - a = BitVec.ofNat 32 (4 * e + j) := by
      simp only [elementAddr, BitVec.ofNat_add]
      bv_omega
    rw [this, BitVec.toNat_ofNat]
    omega
  apply Quad.ext_lane
  intro k
  rw [lane_readVec]
  have h0 := off k 0 k.isLt (by omega)
  have h1 := off k 1 k.isLt (by omega)
  have h2 := off k 2 k.isLt (by omega)
  have h3 := off k 3 k.isLt (by omega)
  rw [show BitVec.ofNat 32 0 = 0#32 from rfl, BitVec.add_zero] at h0
  simp only [Memory.readWord, Memory.byteAt_writeVec]
  rw [show (3 : Word) = BitVec.ofNat 32 3 from rfl, show (2 : Word) = BitVec.ofNat 32 2 from rfl,
    show (1 : Word) = BitVec.ofNat 32 1 from rfl, h0, h1, h2, h3]
  match k with
  | 0 => exact wordBytes_append v.l0
  | 1 => exact wordBytes_append v.l1
  | 2 => exact wordBytes_append v.l2
  | 3 => exact wordBytes_append v.l3

/-! ## The writes of a transposed store -/

/-- Writes that give every address a value of its own do so in any order. -/
theorem Memory.byteAt_foldl_put (f : Word → Byte) (cs : List (Word × Byte)) (m : Memory) (a : Word) :
    (cs.foldl (fun m c => m.put c.1.toNat (f c.1)) m).byteAt a =
      if a ∈ cs.map Prod.fst then f a else m.byteAt a := by
  induction cs generalizing m with
  | nil => simp
  | cons c cs ih =>
    simp only [List.foldl_cons, ih, Memory.byteAt_put, List.map_cons, List.mem_cons]
    by_cases h1 : a ∈ cs.map Prod.fst
    · simp [h1]
    · by_cases h2 : c.1 = a
      · subst h2; simp
      · simp [h1, h2, Ne.symm h2]

/-- Everything a transposed store's writes do to one byte: a covered byte gets the resolved value,
every other byte reads as before. -/
theorem Memory.byteAt_scatter (m : Memory) (n : Nat) (ws : List (Word × Word)) (a : Word) :
    (m.scatter n ws).byteAt a =
      if a ∈ (byteWrites ws).map Prod.fst then resolveByte n (byteWrites ws) a else m.byteAt a :=
  Memory.byteAt_foldl_put (resolveByte n (byteWrites ws)) (byteWrites ws) m a

theorem Memory.wf_scatter {m : Memory} (h : m.wf = true) (n : Nat) (ws : List (Word × Word)) :
    (m.scatter n ws).wf = true := by
  unfold Memory.scatter
  generalize byteWrites ws = cs
  suffices ∀ (l : List (Word × Byte)) (m : Memory), m.wf = true →
      (l.foldl (fun m c => m.put c.1.toNat (resolveByte n cs c.1)) m).wf = true from this cs m h
  intro l
  induction l with
  | nil => intro m h; exact h
  | cons c l ih => intro m h; exact ih _ (Memory.wf_put h c.1.isLt _)

/-- A resolved byte is one that a write covering the address carries (20_memory.md R67). -/
theorem resolveByte_mem (n : Nat) {cs : List (Word × Byte)} {a : Word}
    (h : a ∈ cs.map Prod.fst) : resolveByte n cs a ∈ coveringBytes cs a := by
  have hne : coveringBytes cs a ≠ [] := by
    obtain ⟨c, hc, rfl⟩ := List.mem_map.mp h
    have : c.2 ∈ coveringBytes cs c.1 :=
      List.mem_map.mpr ⟨c, List.mem_filter.mpr ⟨hc, by simp⟩, rfl⟩
    exact List.ne_nil_of_mem this
  unfold resolveByte
  split
  · rename_i b hb; simp [hb]
  · have hlt : Config.writePick n a.toNat % (coveringBytes cs a).length <
        (coveringBytes cs a).length := Nat.mod_lt _ (List.length_pos_of_ne_nil hne)
    rw [List.getD_eq_getElem _ _ hlt]
    exact List.getElem_mem hlt

/-- Memory lists nothing after reset, which is the canonical form. -/
theorem reset_memory_wf : State.reset.mem.wf = true := rfl

end Sys2Proof.Machine
end

