-- ==== Sys2Proof/Laws/State.lean ====
section
/-! SUPPORT. One lemma for each field and each update of the state, true by `rfl`, so that no proof
unfolds a record update. -/

namespace Sys2Proof.Machine

variable (s : State)

@[simp] theorem State.putReg_regs (r : Reg) (v : VReg) :
    (s.putReg r v).regs = s.regs.set r.val v r.isLt := rfl
@[simp] theorem State.putReg_cf (r : Reg) (v : VReg) : (s.putReg r v).cf = s.cf := rfl
@[simp] theorem State.putReg_cfWritten (r : Reg) (v : VReg) :
    (s.putReg r v).cfWritten = s.cfWritten := rfl
@[simp] theorem State.putReg_xr (r : Reg) (v : VReg) : (s.putReg r v).xr = s.xr := rfl
@[simp] theorem State.putReg_xrWritten (r : Reg) (v : VReg) :
    (s.putReg r v).xrWritten = s.xrWritten := rfl
@[simp] theorem State.putReg_fsr (r : Reg) (v : VReg) : (s.putReg r v).fsr = s.fsr := rfl
@[simp] theorem State.putReg_finfo (r : Reg) (v : VReg) : (s.putReg r v).finfo = s.finfo := rfl
@[simp] theorem State.putReg_mem (r : Reg) (v : VReg) : (s.putReg r v).mem = s.mem := rfl
@[simp] theorem State.putReg_inputs (r : Reg) (v : VReg) : (s.putReg r v).inputs = s.inputs := rfl
@[simp] theorem State.putReg_taken (r : Reg) (v : VReg) :
    (s.putReg r v).taken = s.taken := rfl

@[simp] theorem State.writeReg_cf (r : Reg) (v : Vec) : (s.writeReg r v).cf = s.cf := rfl
@[simp] theorem State.writeReg_cfWritten (r : Reg) (v : Vec) :
    (s.writeReg r v).cfWritten = s.cfWritten := rfl
@[simp] theorem State.writeReg_xr (r : Reg) (v : Vec) : (s.writeReg r v).xr = s.xr := rfl
@[simp] theorem State.writeReg_xrWritten (r : Reg) (v : Vec) :
    (s.writeReg r v).xrWritten = s.xrWritten := rfl
@[simp] theorem State.writeReg_fsr (r : Reg) (v : Vec) : (s.writeReg r v).fsr = s.fsr := rfl
@[simp] theorem State.writeReg_finfo (r : Reg) (v : Vec) : (s.writeReg r v).finfo = s.finfo := rfl
@[simp] theorem State.writeReg_mem (r : Reg) (v : Vec) : (s.writeReg r v).mem = s.mem := rfl
@[simp] theorem State.writeReg_inputs (r : Reg) (v : Vec) :
    (s.writeReg r v).inputs = s.inputs := rfl
@[simp] theorem State.writeReg_taken (r : Reg) (v : Vec) :
    (s.writeReg r v).taken = s.taken := rfl

@[simp] theorem State.writeLane_cf (r : Reg) (k : Fin 4) (x : Word) :
    (s.writeLane r k x).cf = s.cf := rfl
@[simp] theorem State.writeLane_cfWritten (r : Reg) (k : Fin 4) (x : Word) :
    (s.writeLane r k x).cfWritten = s.cfWritten := rfl
@[simp] theorem State.writeLane_xr (r : Reg) (k : Fin 4) (x : Word) :
    (s.writeLane r k x).xr = s.xr := rfl
@[simp] theorem State.writeLane_xrWritten (r : Reg) (k : Fin 4) (x : Word) :
    (s.writeLane r k x).xrWritten = s.xrWritten := rfl
@[simp] theorem State.writeLane_fsr (r : Reg) (k : Fin 4) (x : Word) :
    (s.writeLane r k x).fsr = s.fsr := rfl
@[simp] theorem State.writeLane_finfo (r : Reg) (k : Fin 4) (x : Word) :
    (s.writeLane r k x).finfo = s.finfo := rfl
@[simp] theorem State.writeLane_mem (r : Reg) (k : Fin 4) (x : Word) :
    (s.writeLane r k x).mem = s.mem := rfl
@[simp] theorem State.writeLane_inputs (r : Reg) (k : Fin 4) (x : Word) :
    (s.writeLane r k x).inputs = s.inputs := rfl
@[simp] theorem State.writeLane_taken (r : Reg) (k : Fin 4) (x : Word) :
    (s.writeLane r k x).taken = s.taken := rfl

@[simp] theorem State.writeCF_regs (b : Bool) : (s.writeCF b).regs = s.regs := rfl
@[simp] theorem State.writeCF_cf (b : Bool) : (s.writeCF b).cf = b := rfl
@[simp] theorem State.writeCF_cfWritten (b : Bool) : (s.writeCF b).cfWritten = true := rfl
@[simp] theorem State.writeCF_xr (b : Bool) : (s.writeCF b).xr = s.xr := rfl
@[simp] theorem State.writeCF_xrWritten (b : Bool) : (s.writeCF b).xrWritten = s.xrWritten := rfl
@[simp] theorem State.writeCF_fsr (b : Bool) : (s.writeCF b).fsr = s.fsr := rfl
@[simp] theorem State.writeCF_finfo (b : Bool) : (s.writeCF b).finfo = s.finfo := rfl
@[simp] theorem State.writeCF_mem (b : Bool) : (s.writeCF b).mem = s.mem := rfl
@[simp] theorem State.writeCF_inputs (b : Bool) : (s.writeCF b).inputs = s.inputs := rfl
@[simp] theorem State.writeCF_taken (b : Bool) : (s.writeCF b).taken = s.taken := rfl

@[simp] theorem State.writeXR_regs (x : Word) : (s.writeXR x).regs = s.regs := rfl
@[simp] theorem State.writeXR_cf (x : Word) : (s.writeXR x).cf = s.cf := rfl
@[simp] theorem State.writeXR_cfWritten (x : Word) : (s.writeXR x).cfWritten = s.cfWritten := rfl
@[simp] theorem State.writeXR_xr (x : Word) : (s.writeXR x).xr = x := rfl
@[simp] theorem State.writeXR_xrWritten (x : Word) : (s.writeXR x).xrWritten = true := rfl
@[simp] theorem State.writeXR_fsr (x : Word) : (s.writeXR x).fsr = s.fsr := rfl
@[simp] theorem State.writeXR_finfo (x : Word) : (s.writeXR x).finfo = s.finfo := rfl
@[simp] theorem State.writeXR_mem (x : Word) : (s.writeXR x).mem = s.mem := rfl
@[simp] theorem State.writeXR_inputs (x : Word) : (s.writeXR x).inputs = s.inputs := rfl
@[simp] theorem State.writeXR_taken (x : Word) : (s.writeXR x).taken = s.taken := rfl

@[simp] theorem State.withMem_regs (m : Memory) : (s.withMem m).regs = s.regs := rfl
@[simp] theorem State.withMem_cf (m : Memory) : (s.withMem m).cf = s.cf := rfl
@[simp] theorem State.withMem_cfWritten (m : Memory) : (s.withMem m).cfWritten = s.cfWritten := rfl
@[simp] theorem State.withMem_xr (m : Memory) : (s.withMem m).xr = s.xr := rfl
@[simp] theorem State.withMem_xrWritten (m : Memory) : (s.withMem m).xrWritten = s.xrWritten := rfl
@[simp] theorem State.withMem_fsr (m : Memory) : (s.withMem m).fsr = s.fsr := rfl
@[simp] theorem State.withMem_finfo (m : Memory) : (s.withMem m).finfo = s.finfo := rfl
@[simp] theorem State.withMem_mem (m : Memory) : (s.withMem m).mem = m := rfl
@[simp] theorem State.withMem_inputs (m : Memory) : (s.withMem m).inputs = s.inputs := rfl
@[simp] theorem State.withMem_taken (m : Memory) : (s.withMem m).taken = s.taken := rfl

@[simp] theorem State.scatter_regs (ws : List (Word × Word)) : (s.scatter ws).regs = s.regs := rfl
@[simp] theorem State.scatter_cf (ws : List (Word × Word)) : (s.scatter ws).cf = s.cf := rfl
@[simp] theorem State.scatter_cfWritten (ws : List (Word × Word)) :
    (s.scatter ws).cfWritten = s.cfWritten := rfl
@[simp] theorem State.scatter_xr (ws : List (Word × Word)) : (s.scatter ws).xr = s.xr := rfl
@[simp] theorem State.scatter_xrWritten (ws : List (Word × Word)) :
    (s.scatter ws).xrWritten = s.xrWritten := rfl
@[simp] theorem State.scatter_fsr (ws : List (Word × Word)) : (s.scatter ws).fsr = s.fsr := rfl
@[simp] theorem State.scatter_finfo (ws : List (Word × Word)) :
    (s.scatter ws).finfo = s.finfo := rfl
@[simp] theorem State.scatter_mem (ws : List (Word × Word)) :
    (s.scatter ws).mem = s.mem.scatter s.taken ws := rfl
@[simp] theorem State.scatter_inputs (ws : List (Word × Word)) :
    (s.scatter ws).inputs = s.inputs := rfl
@[simp] theorem State.scatter_taken (ws : List (Word × Word)) :
    (s.scatter ws).taken = s.taken := rfl

@[simp] theorem State.raiseFault_regs (c : FaultCause) (info : Word) :
    (s.raiseFault c info).regs = s.regs := rfl
@[simp] theorem State.raiseFault_cf (c : FaultCause) (info : Word) :
    (s.raiseFault c info).cf = s.cf := rfl
@[simp] theorem State.raiseFault_cfWritten (c : FaultCause) (info : Word) :
    (s.raiseFault c info).cfWritten = s.cfWritten := rfl
@[simp] theorem State.raiseFault_xr (c : FaultCause) (info : Word) :
    (s.raiseFault c info).xr = s.xr := rfl
@[simp] theorem State.raiseFault_xrWritten (c : FaultCause) (info : Word) :
    (s.raiseFault c info).xrWritten = s.xrWritten := rfl
@[simp] theorem State.raiseFault_fsr (c : FaultCause) (info : Word) :
    (s.raiseFault c info).fsr = faultStatus c := rfl
@[simp] theorem State.raiseFault_finfo (c : FaultCause) (info : Word) :
    (s.raiseFault c info).finfo = info := rfl
@[simp] theorem State.raiseFault_mem (c : FaultCause) (info : Word) :
    (s.raiseFault c info).mem = s.mem := rfl
@[simp] theorem State.raiseFault_inputs (c : FaultCause) (info : Word) :
    (s.raiseFault c info).inputs = s.inputs := rfl
@[simp] theorem State.raiseFault_taken (c : FaultCause) (info : Word) :
    (s.raiseFault c info).taken = s.taken := rfl

@[simp] theorem State.resetInput_regs : (s.resetInput).regs = .replicate 16 VReg.reset := rfl
@[simp] theorem State.resetInput_cf : (s.resetInput).cf = false := rfl
@[simp] theorem State.resetInput_cfWritten : (s.resetInput).cfWritten = false := rfl
@[simp] theorem State.resetInput_xr : (s.resetInput).xr = 0 := rfl
@[simp] theorem State.resetInput_xrWritten : (s.resetInput).xrWritten = false := rfl
@[simp] theorem State.resetInput_fsr : (s.resetInput).fsr = 0 := rfl
@[simp] theorem State.resetInput_finfo : (s.resetInput).finfo = 0 := rfl
@[simp] theorem State.resetInput_mem : (s.resetInput).mem = s.mem := rfl
@[simp] theorem State.resetInput_inputs : (s.resetInput).inputs = s.inputs := rfl
@[simp] theorem State.resetInput_taken : (s.resetInput).taken = s.taken := rfl

@[simp] theorem State.takeInput_regs (rest : List HostInput) : (s.takeInput rest).regs = s.regs := rfl
@[simp] theorem State.takeInput_cf (rest : List HostInput) : (s.takeInput rest).cf = s.cf := rfl
@[simp] theorem State.takeInput_cfWritten (rest : List HostInput) :
    (s.takeInput rest).cfWritten = s.cfWritten := rfl
@[simp] theorem State.takeInput_xr (rest : List HostInput) : (s.takeInput rest).xr = s.xr := rfl
@[simp] theorem State.takeInput_xrWritten (rest : List HostInput) :
    (s.takeInput rest).xrWritten = s.xrWritten := rfl
@[simp] theorem State.takeInput_fsr (rest : List HostInput) : (s.takeInput rest).fsr = s.fsr := rfl
@[simp] theorem State.takeInput_finfo (rest : List HostInput) :
    (s.takeInput rest).finfo = s.finfo := rfl
@[simp] theorem State.takeInput_mem (rest : List HostInput) : (s.takeInput rest).mem = s.mem := rfl
@[simp] theorem State.takeInput_inputs (rest : List HostInput) :
    (s.takeInput rest).inputs = rest := rfl
@[simp] theorem State.takeInput_taken (rest : List HostInput) :
    (s.takeInput rest).taken = s.taken + 1 := rfl

/-! ## Registers -/

@[simp] theorem State.readReg_putReg_same (r : Reg) (v : VReg) : (s.putReg r v).readReg r = v.val := by
  simp [State.readReg, State.putReg, Vector.get_eq_getElem]

@[simp] theorem State.marks_putReg_same (r : Reg) (v : VReg) : (s.putReg r v).marks r = v.written := by
  simp [State.marks, State.putReg, Vector.get_eq_getElem]

theorem State.regs_get_putReg_of_ne {r r' : Reg} (h : r ≠ r') (v : VReg) :
    (s.putReg r v).regs.get r' = s.regs.get r' := by
  have h' : r.val ≠ r'.val := fun e => h (Fin.ext e)
  simp [State.putReg, Vector.get_eq_getElem, h']

theorem State.readReg_putReg_of_ne {r r' : Reg} (h : r ≠ r') (v : VReg) :
    (s.putReg r v).readReg r' = s.readReg r' :=
  congrArg VReg.val (State.regs_get_putReg_of_ne s h v)

theorem State.marks_putReg_of_ne {r r' : Reg} (h : r ≠ r') (v : VReg) :
    (s.putReg r v).marks r' = s.marks r' :=
  congrArg VReg.written (State.regs_get_putReg_of_ne s h v)

/-- Everything a register write does to what a register reads as. -/
theorem State.readReg_putReg (r r' : Reg) (v : VReg) :
    (s.putReg r v).readReg r' = if r = r' then v.val else s.readReg r' := by
  split
  · rename_i h; subst h; simp
  · rename_i h; exact State.readReg_putReg_of_ne s h v

/-- Everything a register write does to the marks of a register. -/
theorem State.marks_putReg (r r' : Reg) (v : VReg) :
    (s.putReg r v).marks r' = if r = r' then v.written else s.marks r' := by
  split
  · rename_i h; subst h; simp
  · rename_i h; exact State.marks_putReg_of_ne s h v

theorem State.readReg_writeReg (r r' : Reg) (v : Vec) :
    (s.writeReg r v).readReg r' = if r = r' then v else s.readReg r' :=
  State.readReg_putReg s r r' _

theorem State.marks_writeReg (r r' : Reg) (v : Vec) :
    (s.writeReg r v).marks r' = if r = r' then .splat true else s.marks r' :=
  State.marks_putReg s r r' _

theorem State.readReg_writeLane (r r' : Reg) (k : Fin 4) (x : Word) :
    (s.writeLane r k x).readReg r' =
      if r = r' then (s.readReg r).setLane k x else s.readReg r' :=
  State.readReg_putReg s r r' _

theorem State.marks_writeLane (r r' : Reg) (k : Fin 4) (x : Word) :
    (s.writeLane r k x).marks r' =
      if r = r' then (s.marks r).setLane k true else s.marks r' :=
  State.marks_putReg s r r' _

/-- Two states are equal when their registers read and are marked alike and their other fields are
equal. -/
theorem State.regs_ext {v w : Vector VReg 16} (h : ∀ r : Reg, v.get r = w.get r) : v = w := by
  apply Vector.ext
  intro i hi
  simpa [Vector.get_eq_getElem] using h ⟨i, hi⟩

@[simp] theorem State.readReg_writeCF (b : Bool) (r : Reg) :
    (s.writeCF b).readReg r = s.readReg r := rfl
@[simp] theorem State.marks_writeCF (b : Bool) (r : Reg) :
    (s.writeCF b).marks r = s.marks r := rfl
@[simp] theorem State.readReg_writeXR (x : Word) (r : Reg) :
    (s.writeXR x).readReg r = s.readReg r := rfl
@[simp] theorem State.marks_writeXR (x : Word) (r : Reg) :
    (s.writeXR x).marks r = s.marks r := rfl
@[simp] theorem State.readReg_withMem (m : Memory) (r : Reg) :
    (s.withMem m).readReg r = s.readReg r := rfl
@[simp] theorem State.marks_withMem (m : Memory) (r : Reg) :
    (s.withMem m).marks r = s.marks r := rfl
@[simp] theorem State.readReg_scatter (ws : List (Word × Word)) (r : Reg) :
    (s.scatter ws).readReg r = s.readReg r := rfl
@[simp] theorem State.marks_scatter (ws : List (Word × Word)) (r : Reg) :
    (s.scatter ws).marks r = s.marks r := rfl
@[simp] theorem State.readReg_raiseFault (c : FaultCause) (info : Word) (r : Reg) :
    (s.raiseFault c info).readReg r = s.readReg r := rfl
@[simp] theorem State.marks_raiseFault (c : FaultCause) (info : Word) (r : Reg) :
    (s.raiseFault c info).marks r = s.marks r := rfl

@[simp] theorem State.readReg_takeInput (rest : List HostInput) (r : Reg) :
    (s.takeInput rest).readReg r = s.readReg r := rfl
@[simp] theorem State.marks_takeInput (rest : List HostInput) (r : Reg) :
    (s.takeInput rest).marks r = s.marks r := rfl

@[simp] theorem State.readReg_resetInput (r : Reg) : (s.resetInput).readReg r = .splat 0 := by
  simp [State.readReg, VReg.reset, Vector.get_eq_getElem]

@[simp] theorem State.marks_resetInput (r : Reg) : (s.resetInput).marks r = .splat false := by
  simp [State.marks, VReg.reset, Vector.get_eq_getElem]

/-! ## Operands -/

/-- Everything one lane of an operand can be: as stored if it is written, else a free value. -/
theorem State.lane_operand (j : Nat) (r : Reg) (k : Fin 4) :
    (s.operand j r).lane k =
      if (s.marks r).lane k then (s.readReg r).lane k else Config.unwrittenLane s.taken j k.val :=
  Quad.lane_ofFn _ k

/-- A written lane reads as stored. -/
theorem State.lane_operand_of_written {r : Reg} {k : Fin 4} (h : (s.marks r).lane k = true) (j : Nat) :
    (s.operand j r).lane k = (s.readReg r).lane k := by rw [State.lane_operand, if_pos h]

/-- A register with every lane written reads as stored. -/
theorem State.operand_of_written {r : Reg} (h : ∀ k, (s.marks r).lane k = true) (j : Nat) :
    s.operand j r = s.readReg r :=
  Quad.ext_lane fun k => State.lane_operand_of_written s (h k) j

/-- What an operand reads depends on its register, its marks and the count of inputs alone. -/
theorem State.operand_congr {t : State} {r : Reg} (hr : t.regs.get r = s.regs.get r)
    (hn : t.taken = s.taken) (j : Nat) : t.operand j r = s.operand j r :=
  Quad.ext_lane fun k => by
    have hm : t.marks r = s.marks r := congrArg VReg.written hr
    have hv : t.readReg r = s.readReg r := congrArg VReg.val hr
    rw [State.lane_operand, State.lane_operand, hm, hv, hn]

/-- Reading back a register that was just written gives the value. -/
theorem State.operand_writeReg_same (j : Nat) (r : Reg) (v : Vec) :
    (s.writeReg r v).operand j r = v := by
  rw [State.operand_of_written _ (by simp [State.marks_writeReg]), State.readReg_writeReg, if_pos rfl]

theorem State.operand_putReg_of_ne {r r' : Reg} (h : r ≠ r') (v : VReg) (j : Nat) :
    (s.putReg r v).operand j r' = s.operand j r' :=
  State.operand_congr s (State.regs_get_putReg_of_ne s h v) rfl j

/-- Everything a register write does to what an operand reads. -/
theorem State.operand_writeReg (j : Nat) (r r' : Reg) (v : Vec) :
    (s.writeReg r v).operand j r' = if r = r' then v else s.operand j r' := by
  split
  · rename_i h; subst h; exact State.operand_writeReg_same s j r v
  · rename_i h; exact State.operand_putReg_of_ne s h _ j

@[simp] theorem State.operand_writeCF (b : Bool) (j : Nat) (r : Reg) :
    (s.writeCF b).operand j r = s.operand j r := rfl
@[simp] theorem State.operand_writeXR (x : Word) (j : Nat) (r : Reg) :
    (s.writeXR x).operand j r = s.operand j r := rfl
@[simp] theorem State.operand_withMem (m : Memory) (j : Nat) (r : Reg) :
    (s.withMem m).operand j r = s.operand j r := rfl
@[simp] theorem State.operand_scatter (ws : List (Word × Word)) (j : Nat) (r : Reg) :
    (s.scatter ws).operand j r = s.operand j r := rfl
@[simp] theorem State.operand_raiseFault (c : FaultCause) (info : Word) (j : Nat) (r : Reg) :
    (s.raiseFault c info).operand j r = s.operand j r := rfl

end Sys2Proof.Machine
end

