-- ==== Sys2Proof/Laws/Machine.lean ====
section
/-! SUPPORT. What each shared operation of the meanings can answer, and what a step can do. -/

namespace Sys2Proof.Machine

/-! ## Alignment -/

/-- No pointer is reported when all are aligned. -/
theorem firstMisaligned_eq_none {n : Nat} {ps : List Word} :
    firstMisaligned n ps = none ↔ ∀ p ∈ ps, p.toNat % n = 0 := by
  simp [firstMisaligned, List.find?_eq_none]

/-- A reported pointer is one of the pointers, and is misaligned. -/
theorem firstMisaligned_eq_some {n : Nat} {ps : List Word} {p : Word}
    (h : firstMisaligned n ps = some p) : p ∈ ps ∧ p.toNat % n ≠ 0 := by
  refine ⟨List.mem_of_find?_eq_some h, ?_⟩
  simpa using List.find?_some h

/-- Everything the alignment check can answer: the MISALIGNED fault with the first offending pointer,
or the instruction's own effect. -/
theorem whenAligned_cases (n : Nat) (ps : List Word) (s next : State) :
    (∃ p, firstMisaligned n ps = some p ∧
      whenAligned n ps s next = .next (s.raiseFault .misaligned p)) ∨
    (firstMisaligned n ps = none ∧ whenAligned n ps s next = .next next) := by
  unfold whenAligned
  cases h : firstMisaligned n ps with
  | none => exact .inr ⟨rfl, rfl⟩
  | some p => exact .inl ⟨p, rfl, rfl⟩

/-- With every pointer aligned the instruction's own effect is the answer. -/
theorem whenAligned_of_aligned {n : Nat} {ps : List Word} (h : ∀ p ∈ ps, p.toNat % n = 0)
    (s next : State) : whenAligned n ps s next = .next next := by
  rw [whenAligned, firstMisaligned_eq_none.mpr h]

/-! ## The divisor check -/

/-- The lane map is 0 exactly when no lane is. -/
theorem zeroLaneMap_eq_zero {v : Vec} : zeroLaneMap v = 0 ↔ ∀ k, v.lane k ≠ 0 := by
  have hall : (∀ k, v.lane k ≠ 0) ↔ v.l0 ≠ 0 ∧ v.l1 ≠ 0 ∧ v.l2 ≠ 0 ∧ v.l3 ≠ 0 :=
    ⟨fun h => ⟨h 0, h 1, h 2, h 3⟩, fun h k => by
      match k with
      | 0 => exact h.1
      | 1 => exact h.2.1
      | 2 => exact h.2.2.1
      | 3 => exact h.2.2.2⟩
  have hb : ∀ b0 b1 b2 b3 : Bool, ((BitVec.ofBool b3 ++ BitVec.ofBool b2 ++ BitVec.ofBool b1
      ++ BitVec.ofBool b0).setWidth 32 = (0 : Word)) ↔
      b0 = false ∧ b1 = false ∧ b2 = false ∧ b3 = false := by decide
  rw [hall, zeroLaneMap, hb]
  simp

/-- The lane map lies in bits 3:0. -/
theorem zeroLaneMap_lt (v : Vec) : (zeroLaneMap v).toNat < 16 := by
  have hb : ∀ b0 b1 b2 b3 : Bool, ((BitVec.ofBool b3 ++ BitVec.ofBool b2 ++ BitVec.ofBool b1
      ++ BitVec.ofBool b0).setWidth 32).toNat < 16 := by decide
  exact hb _ _ _ _

/-- Everything the divisor check can answer: the DIVZERO fault with the lane map, or the instruction's
own effect. -/
theorem whenNonzero_cases (d : Vec) (s next : State) :
    (zeroLaneMap d ≠ 0 ∧ whenNonzero d s next = .next (s.raiseFault .divzero (zeroLaneMap d))) ∨
    (zeroLaneMap d = 0 ∧ whenNonzero d s next = .next next) := by
  by_cases h : zeroLaneMap d = 0
  · exact .inr ⟨h, if_neg (by simp [h])⟩
  · exact .inl ⟨h, if_pos (by simpa using h)⟩

/-! ## Fault entry -/

/-- A recorded fault sets `FSR.F`. -/
@[simp] theorem faulted_raiseFault (s : State) (c : FaultCause) (info : Word) :
    (s.raiseFault c info).faulted = true := by
  change (faultStatus c).getLsbD 0 = true
  cases c <;> decide

/-- A recorded fault sets `FSR.CAUSE` to its code. -/
@[simp] theorem faultCause_raiseFault (s : State) (c : FaultCause) (info : Word) :
    (s.raiseFault c info).faultCause = c.code := by
  change (faultStatus c).extractLsb' 1 3 = c.code
  cases c <;> decide

/-! ## The memory port -/

/-- Every write access has its data, and no data is left over. -/
theorem writeData_length (s : State) (i : Instr) :
    (s.writeData i).length = ((portAccesses i).filter (·.write)).length := by
  cases i <;> rfl

/-! ## One step -/

/-- With no input waiting a step changes nothing. -/
theorem step_idle {s : State} (h : s.inputs = []) : step s = .next s := by
  rw [step, h]

/-- A step that takes the reset input. -/
theorem step_reset {s : State} {rest : List HostInput} (h : s.inputs = .reset :: rest) :
    step s = .next (s.takeInput rest).resetInput := by
  rw [step, h]

/-- A step that takes a beat runs it in the state without that input. -/
theorem step_beat {s : State} {b : Beat} {rest : List HostInput} (h : s.inputs = .beat b :: rest) :
    step s = runBeat b (s.takeInput rest) := by
  rw [step, h]

/-- Everything a beat can do: discarded, undecodable, or executed. -/
theorem runBeat_cases (b : Beat) (s : State) :
    (s.faulted = true ∧ runBeat b s = .next s) ∨
    (s.faulted = false ∧ (∃ e, decode b = .error e) ∧
      runBeat b s = .next (s.raiseFault .illegal b.w)) ∨
    (∃ i, s.faulted = false ∧ decode b = .ok i ∧ runBeat b s = exec i s) := by
  unfold runBeat
  cases hf : s.faulted with
  | true => exact .inl ⟨rfl, by simp⟩
  | false =>
    cases hd : decode b with
    | error e => exact .inr (.inl ⟨rfl, ⟨e, rfl⟩, by simp⟩)
    | ok i => exact .inr (.inr ⟨i, rfl, rfl, by simp⟩)

end Sys2Proof.Machine
end

