-- ==== Sys2Proof/Laws/PerInstr.lean ====
section
/-! SUPPORT. The per-instruction law: the command word an instruction encodes to has the opcode of its
row (30_encoding.md R86) and every bit its format reserves zero (R82, R83). -/

namespace Sys2Proof.Laws

/-- The encoded word carries the row's opcode, and its format's reserved bits are zero. -/
def EncodedFields.Statement (i : Instr) : Prop :=
  opcodeOf (encode i).w = i.opcode ∧ reservedBitsZero i.format (encode i).w = true

/-- The opcode half always holds, so the law is its reserved-bit half. -/
theorem encodedFields_intro {i : Instr} (h : reservedBitsZero i.format (encode i).w = true) :
    EncodedFields.Statement i :=
  ⟨opcodeOf_encode i, h⟩

/-- For each format: the reserved bits of an assembled word are zero when the fields that the format
does not use are, and a lane index fits its two bits. -/
theorem reserved_of_low {op : Nat} (hop : op < 256) {f : Fields} :
    (f.a = 0 → f.b = 0 → f.c = 0 → f.d = 0 → f.i = 0 →
      reservedBitsZero .z (assembleWord op f) = true) ∧
    (f.b = 0 → f.c = 0 → f.d = 0 → f.i = 0 → reservedBitsZero .r1 (assembleWord op f) = true) ∧
    (f.c = 0 → f.d = 0 → f.i = 0 → reservedBitsZero .r2 (assembleWord op f) = true) ∧
    (f.d = 0 → f.i = 0 → reservedBitsZero .r3 (assembleWord op f) = true) ∧
    (f.i = 0 → reservedBitsZero .r4 (assembleWord op f) = true) ∧
    (f.b = 0 → f.c = 0 → f.d = 0 → f.i.toNat < 4 →
      reservedBitsZero .r1i (assembleWord op f) = true) ∧
    (f.c = 0 → f.d = 0 → f.i.toNat < 4 → reservedBitsZero .r2i2 (assembleWord op f) = true) ∧
    (f.c = 0 → f.d = 0 → reservedBitsZero .r2i8 (assembleWord op f) = true) := by
  obtain ⟨⟨a, ha⟩, ⟨b, hb⟩, ⟨c, hc⟩, ⟨d, hd⟩, i, x⟩ := f
  have hi := i.isLt
  have hz : ∀ {n : Nat} {h : n < 16}, (⟨n, h⟩ : Fin 16) = 0 → n = 0 := fun e => by
    simpa using congrArg Fin.val e
  have hiz : i = 0 → i.toNat = 0 := fun e => by rw [e]; rfl
  simp only [reservedBitsZero, assembleWord_toNat hop, beq_iff_eq]
  refine ⟨fun h1 h2 h3 h4 h5 => ?_, fun h2 h3 h4 h5 => ?_, fun h3 h4 h5 => ?_, fun h4 h5 => ?_,
    fun h5 => ?_, fun h2 h3 h4 h5 => ?_, fun h3 h4 h5 => ?_, fun h3 h4 => ?_⟩
  · have := hz h1; have := hz h2; have := hz h3; have := hz h4; have := hiz h5; omega
  · have := hz h2; have := hz h3; have := hz h4; have := hiz h5; omega
  · have := hz h3; have := hz h4; have := hiz h5; omega
  · have := hz h4; have := hiz h5; omega
  · have := hiz h5; omega
  · have := hz h2; have := hz h3; have := hz h4; omega
  · have := hz h3; have := hz h4; omega
  · have := hz h3; have := hz h4; omega

/-- A lane index fits its two bits. -/
theorem laneIndex_lt (n : Fin 4) : (BitVec.ofNat 8 n.val).toNat < 4 := by
  have := n.isLt
  rw [BitVec.toNat_ofNat]
  omega

theorem EncodedFields.vany (va : Reg) :
    EncodedFields.Statement (.vany va) :=
  encodedFields_intro ((reserved_of_low (Instr.opcode_lt _)).2.1 rfl rfl rfl rfl)

theorem EncodedFields.vall (va : Reg) :
    EncodedFields.Statement (.vall va) :=
  encodedFields_intro ((reserved_of_low (Instr.opcode_lt _)).2.1 rfl rfl rfl rfl)

theorem EncodedFields.vsplat (vd va : Reg) (n : Fin 4) :
    EncodedFields.Statement (.vsplat vd va n) :=
  encodedFields_intro ((reserved_of_low (Instr.opcode_lt _)).2.2.2.2.2.2.1 rfl rfl (laneIndex_lt n))

theorem EncodedFields.vshuf (vd va : Reg) (sel : BitVec 8) :
    EncodedFields.Statement (.vshuf vd va sel) :=
  encodedFields_intro ((reserved_of_low (Instr.opcode_lt _)).2.2.2.2.2.2.2 rfl rfl)

theorem EncodedFields.vswap (va vb : Reg) :
    EncodedFields.Statement (.vswap va vb) :=
  encodedFields_intro ((reserved_of_low (Instr.opcode_lt _)).2.2.1 rfl rfl rfl)

theorem EncodedFields.vtrn (va vb vc vd : Reg) :
    EncodedFields.Statement (.vtrn va vb vc vd) :=
  encodedFields_intro ((reserved_of_low (Instr.opcode_lt _)).2.2.2.2.1 rfl)

theorem EncodedFields.vmov (vd va : Reg) :
    EncodedFields.Statement (.vmov vd va) :=
  encodedFields_intro ((reserved_of_low (Instr.opcode_lt _)).2.2.1 rfl rfl rfl)

theorem EncodedFields.vset (vd : Reg) (x : Vec) :
    EncodedFields.Statement (.vset vd x) :=
  encodedFields_intro ((reserved_of_low (Instr.opcode_lt _)).2.1 rfl rfl rfl rfl)

theorem EncodedFields.vbcast (vd : Reg) (x : Word) :
    EncodedFields.Statement (.vbcast vd x) :=
  encodedFields_intro ((reserved_of_low (Instr.opcode_lt _)).2.1 rfl rfl rfl rfl)

theorem EncodedFields.lget (va : Reg) (n : Fin 4) :
    EncodedFields.Statement (.lget va n) :=
  encodedFields_intro ((reserved_of_low (Instr.opcode_lt _)).2.2.2.2.2.1 rfl rfl rfl (laneIndex_lt n))

theorem EncodedFields.lset (vd : Reg) (n : Fin 4) (x : Word) :
    EncodedFields.Statement (.lset vd n x) :=
  encodedFields_intro ((reserved_of_low (Instr.opcode_lt _)).2.2.2.2.2.1 rfl rfl rfl (laneIndex_lt n))

theorem EncodedFields.vld (vd : Reg) (addr : Word) :
    EncodedFields.Statement (.vld vd addr) :=
  encodedFields_intro ((reserved_of_low (Instr.opcode_lt _)).2.1 rfl rfl rfl rfl)

theorem EncodedFields.vst (va : Reg) (addr : Word) :
    EncodedFields.Statement (.vst va addr) :=
  encodedFields_intro ((reserved_of_low (Instr.opcode_lt _)).2.1 rfl rfl rfl rfl)

theorem EncodedFields.vsts (va : Reg) (addr : Word) :
    EncodedFields.Statement (.vsts va addr) :=
  encodedFields_intro ((reserved_of_low (Instr.opcode_lt _)).2.1 rfl rfl rfl rfl)

theorem EncodedFields.mcopy (dst src : Word) :
    EncodedFields.Statement (.mcopy dst src) :=
  encodedFields_intro ((reserved_of_low (Instr.opcode_lt _)).1 rfl rfl rfl rfl rfl)

theorem EncodedFields.mswap (p q : Word) :
    EncodedFields.Statement (.mswap p q) :=
  encodedFields_intro ((reserved_of_low (Instr.opcode_lt _)).1 rfl rfl rfl rfl rfl)

theorem EncodedFields.minc (va : Reg) (addr : Word) :
    EncodedFields.Statement (.minc va addr) :=
  encodedFields_intro ((reserved_of_low (Instr.opcode_lt _)).2.1 rfl rfl rfl rfl)

theorem EncodedFields.mdec (va : Reg) (addr : Word) :
    EncodedFields.Statement (.mdec va addr) :=
  encodedFields_intro ((reserved_of_low (Instr.opcode_lt _)).2.1 rfl rfl rfl rfl)

theorem EncodedFields.mscale (va : Reg) (addr : Word) :
    EncodedFields.Statement (.mscale va addr) :=
  encodedFields_intro ((reserved_of_low (Instr.opcode_lt _)).2.1 rfl rfl rfl rfl)

theorem EncodedFields.ld4x1tr (va : Reg) (ptrs : Quad Word) :
    EncodedFields.Statement (.ld4x1tr va ptrs) :=
  encodedFields_intro ((reserved_of_low (Instr.opcode_lt _)).2.1 rfl rfl rfl rfl)

theorem EncodedFields.ld4x2tr (va vb : Reg) (ptrs : Quad Word) :
    EncodedFields.Statement (.ld4x2tr va vb ptrs) :=
  encodedFields_intro ((reserved_of_low (Instr.opcode_lt _)).2.2.1 rfl rfl rfl)

theorem EncodedFields.ld4x3tr (va vb vc : Reg) (ptrs : Quad Word) :
    EncodedFields.Statement (.ld4x3tr va vb vc ptrs) :=
  encodedFields_intro ((reserved_of_low (Instr.opcode_lt _)).2.2.2.1 rfl rfl)

theorem EncodedFields.ld4x4tr (va vb vc vd : Reg) (ptrs : Quad Word) :
    EncodedFields.Statement (.ld4x4tr va vb vc vd ptrs) :=
  encodedFields_intro ((reserved_of_low (Instr.opcode_lt _)).2.2.2.2.1 rfl)

theorem EncodedFields.st4x1tr (va : Reg) (ptrs : Quad Word) :
    EncodedFields.Statement (.st4x1tr va ptrs) :=
  encodedFields_intro ((reserved_of_low (Instr.opcode_lt _)).2.1 rfl rfl rfl rfl)

theorem EncodedFields.st4x2tr (va vb : Reg) (ptrs : Quad Word) :
    EncodedFields.Statement (.st4x2tr va vb ptrs) :=
  encodedFields_intro ((reserved_of_low (Instr.opcode_lt _)).2.2.1 rfl rfl rfl)

theorem EncodedFields.st4x3tr (va vb vc : Reg) (ptrs : Quad Word) :
    EncodedFields.Statement (.st4x3tr va vb vc ptrs) :=
  encodedFields_intro ((reserved_of_low (Instr.opcode_lt _)).2.2.2.1 rfl rfl)

theorem EncodedFields.st4x4tr (va vb vc vd : Reg) (ptrs : Quad Word) :
    EncodedFields.Statement (.st4x4tr va vb vc vd ptrs) :=
  encodedFields_intro ((reserved_of_low (Instr.opcode_lt _)).2.2.2.2.1 rfl)

theorem EncodedFields.iadd (vd va vb : Reg) :
    EncodedFields.Statement (.iadd vd va vb) :=
  encodedFields_intro ((reserved_of_low (Instr.opcode_lt _)).2.2.2.1 rfl rfl)

theorem EncodedFields.isub (vd va vb : Reg) :
    EncodedFields.Statement (.isub vd va vb) :=
  encodedFields_intro ((reserved_of_low (Instr.opcode_lt _)).2.2.2.1 rfl rfl)

theorem EncodedFields.imul (vd va vb : Reg) :
    EncodedFields.Statement (.imul vd va vb) :=
  encodedFields_intro ((reserved_of_low (Instr.opcode_lt _)).2.2.2.1 rfl rfl)

theorem EncodedFields.idiv (vd va vb : Reg) :
    EncodedFields.Statement (.idiv vd va vb) :=
  encodedFields_intro ((reserved_of_low (Instr.opcode_lt _)).2.2.2.1 rfl rfl)

theorem EncodedFields.imod (vd va vb : Reg) :
    EncodedFields.Statement (.imod vd va vb) :=
  encodedFields_intro ((reserved_of_low (Instr.opcode_lt _)).2.2.2.1 rfl rfl)

theorem EncodedFields.iand (vd va vb : Reg) :
    EncodedFields.Statement (.iand vd va vb) :=
  encodedFields_intro ((reserved_of_low (Instr.opcode_lt _)).2.2.2.1 rfl rfl)

theorem EncodedFields.ior (vd va vb : Reg) :
    EncodedFields.Statement (.ior vd va vb) :=
  encodedFields_intro ((reserved_of_low (Instr.opcode_lt _)).2.2.2.1 rfl rfl)

theorem EncodedFields.ixor (vd va vb : Reg) :
    EncodedFields.Statement (.ixor vd va vb) :=
  encodedFields_intro ((reserved_of_low (Instr.opcode_lt _)).2.2.2.1 rfl rfl)

theorem EncodedFields.inot (vd va : Reg) :
    EncodedFields.Statement (.inot vd va) :=
  encodedFields_intro ((reserved_of_low (Instr.opcode_lt _)).2.2.1 rfl rfl rfl)

theorem EncodedFields.ishl (vd va vb : Reg) :
    EncodedFields.Statement (.ishl vd va vb) :=
  encodedFields_intro ((reserved_of_low (Instr.opcode_lt _)).2.2.2.1 rfl rfl)

theorem EncodedFields.ishr (vd va vb : Reg) :
    EncodedFields.Statement (.ishr vd va vb) :=
  encodedFields_intro ((reserved_of_low (Instr.opcode_lt _)).2.2.2.1 rfl rfl)

theorem EncodedFields.iabs (vd va : Reg) :
    EncodedFields.Statement (.iabs vd va) :=
  encodedFields_intro ((reserved_of_low (Instr.opcode_lt _)).2.2.1 rfl rfl rfl)

theorem EncodedFields.ipreinc (vd va : Reg) :
    EncodedFields.Statement (.ipreinc vd va) :=
  encodedFields_intro ((reserved_of_low (Instr.opcode_lt _)).2.2.1 rfl rfl rfl)

theorem EncodedFields.ipostinc (vd va : Reg) :
    EncodedFields.Statement (.ipostinc vd va) :=
  encodedFields_intro ((reserved_of_low (Instr.opcode_lt _)).2.2.1 rfl rfl rfl)

theorem EncodedFields.ipredec (vd va : Reg) :
    EncodedFields.Statement (.ipredec vd va) :=
  encodedFields_intro ((reserved_of_low (Instr.opcode_lt _)).2.2.1 rfl rfl rfl)

theorem EncodedFields.ipostdec (vd va : Reg) :
    EncodedFields.Statement (.ipostdec vd va) :=
  encodedFields_intro ((reserved_of_low (Instr.opcode_lt _)).2.2.1 rfl rfl rfl)

theorem EncodedFields.iclt (vd va vb : Reg) :
    EncodedFields.Statement (.iclt vd va vb) :=
  encodedFields_intro ((reserved_of_low (Instr.opcode_lt _)).2.2.2.1 rfl rfl)

theorem EncodedFields.icgt (vd va vb : Reg) :
    EncodedFields.Statement (.icgt vd va vb) :=
  encodedFields_intro ((reserved_of_low (Instr.opcode_lt _)).2.2.2.1 rfl rfl)

theorem EncodedFields.iceq (vd va vb : Reg) :
    EncodedFields.Statement (.iceq vd va vb) :=
  encodedFields_intro ((reserved_of_low (Instr.opcode_lt _)).2.2.2.1 rfl rfl)

theorem EncodedFields.icne (vd va vb : Reg) :
    EncodedFields.Statement (.icne vd va vb) :=
  encodedFields_intro ((reserved_of_low (Instr.opcode_lt _)).2.2.2.1 rfl rfl)

theorem EncodedFields.icle (vd va vb : Reg) :
    EncodedFields.Statement (.icle vd va vb) :=
  encodedFields_intro ((reserved_of_low (Instr.opcode_lt _)).2.2.2.1 rfl rfl)

theorem EncodedFields.icge (vd va vb : Reg) :
    EncodedFields.Statement (.icge vd va vb) :=
  encodedFields_intro ((reserved_of_low (Instr.opcode_lt _)).2.2.2.1 rfl rfl)

theorem EncodedFields.iland (vd va vb : Reg) :
    EncodedFields.Statement (.iland vd va vb) :=
  encodedFields_intro ((reserved_of_low (Instr.opcode_lt _)).2.2.2.1 rfl rfl)

theorem EncodedFields.ilor (vd va vb : Reg) :
    EncodedFields.Statement (.ilor vd va vb) :=
  encodedFields_intro ((reserved_of_low (Instr.opcode_lt _)).2.2.2.1 rfl rfl)

theorem EncodedFields.czero (vd vm va : Reg) :
    EncodedFields.Statement (.czero vd vm va) :=
  encodedFields_intro ((reserved_of_low (Instr.opcode_lt _)).2.2.2.1 rfl rfl)

theorem EncodedFields.notczero (vd vm va : Reg) :
    EncodedFields.Statement (.notczero vd vm va) :=
  encodedFields_intro ((reserved_of_low (Instr.opcode_lt _)).2.2.2.1 rfl rfl)

theorem EncodedFields.merge (vd vm vt vf : Reg) :
    EncodedFields.Statement (.merge vd vm vt vf) :=
  encodedFields_intro ((reserved_of_low (Instr.opcode_lt _)).2.2.2.2.1 rfl)

theorem EncodedFields.fadd (vd va vb : Reg) :
    EncodedFields.Statement (.fadd vd va vb) :=
  encodedFields_intro ((reserved_of_low (Instr.opcode_lt _)).2.2.2.1 rfl rfl)

theorem EncodedFields.fsub (vd va vb : Reg) :
    EncodedFields.Statement (.fsub vd va vb) :=
  encodedFields_intro ((reserved_of_low (Instr.opcode_lt _)).2.2.2.1 rfl rfl)

theorem EncodedFields.fmul (vd va vb : Reg) :
    EncodedFields.Statement (.fmul vd va vb) :=
  encodedFields_intro ((reserved_of_low (Instr.opcode_lt _)).2.2.2.1 rfl rfl)

theorem EncodedFields.fdiv (vd va vb : Reg) :
    EncodedFields.Statement (.fdiv vd va vb) :=
  encodedFields_intro ((reserved_of_low (Instr.opcode_lt _)).2.2.2.1 rfl rfl)

theorem EncodedFields.frcpa (vd va : Reg) :
    EncodedFields.Statement (.frcpa vd va) :=
  encodedFields_intro ((reserved_of_low (Instr.opcode_lt _)).2.2.1 rfl rfl rfl)

theorem EncodedFields.frcp (vd va : Reg) :
    EncodedFields.Statement (.frcp vd va) :=
  encodedFields_intro ((reserved_of_low (Instr.opcode_lt _)).2.2.1 rfl rfl rfl)

theorem EncodedFields.frsqrta (vd va : Reg) :
    EncodedFields.Statement (.frsqrta vd va) :=
  encodedFields_intro ((reserved_of_low (Instr.opcode_lt _)).2.2.1 rfl rfl rfl)

theorem EncodedFields.frsqrt (vd va : Reg) :
    EncodedFields.Statement (.frsqrt vd va) :=
  encodedFields_intro ((reserved_of_low (Instr.opcode_lt _)).2.2.1 rfl rfl rfl)

theorem EncodedFields.fsqrt (vd va : Reg) :
    EncodedFields.Statement (.fsqrt vd va) :=
  encodedFields_intro ((reserved_of_low (Instr.opcode_lt _)).2.2.1 rfl rfl rfl)

theorem EncodedFields.fabs (vd va : Reg) :
    EncodedFields.Statement (.fabs vd va) :=
  encodedFields_intro ((reserved_of_low (Instr.opcode_lt _)).2.2.1 rfl rfl rfl)

theorem EncodedFields.fcpsgn (vd va vb : Reg) :
    EncodedFields.Statement (.fcpsgn vd va vb) :=
  encodedFields_intro ((reserved_of_low (Instr.opcode_lt _)).2.2.2.1 rfl rfl)

theorem EncodedFields.fma (vd va vb vc : Reg) :
    EncodedFields.Statement (.fma vd va vb vc) :=
  encodedFields_intro ((reserved_of_low (Instr.opcode_lt _)).2.2.2.2.1 rfl)

theorem EncodedFields.fnms (vd va vb vc : Reg) :
    EncodedFields.Statement (.fnms vd va vb vc) :=
  encodedFields_intro ((reserved_of_low (Instr.opcode_lt _)).2.2.2.2.1 rfl)

theorem EncodedFields.fms (vd va vb vc : Reg) :
    EncodedFields.Statement (.fms vd va vb vc) :=
  encodedFields_intro ((reserved_of_low (Instr.opcode_lt _)).2.2.2.2.1 rfl)

theorem EncodedFields.fclt (vd va vb : Reg) :
    EncodedFields.Statement (.fclt vd va vb) :=
  encodedFields_intro ((reserved_of_low (Instr.opcode_lt _)).2.2.2.1 rfl rfl)

theorem EncodedFields.fcgt (vd va vb : Reg) :
    EncodedFields.Statement (.fcgt vd va vb) :=
  encodedFields_intro ((reserved_of_low (Instr.opcode_lt _)).2.2.2.1 rfl rfl)

theorem EncodedFields.fceq (vd va vb : Reg) :
    EncodedFields.Statement (.fceq vd va vb) :=
  encodedFields_intro ((reserved_of_low (Instr.opcode_lt _)).2.2.2.1 rfl rfl)

theorem EncodedFields.fcne (vd va vb : Reg) :
    EncodedFields.Statement (.fcne vd va vb) :=
  encodedFields_intro ((reserved_of_low (Instr.opcode_lt _)).2.2.2.1 rfl rfl)

theorem EncodedFields.fcle (vd va vb : Reg) :
    EncodedFields.Statement (.fcle vd va vb) :=
  encodedFields_intro ((reserved_of_low (Instr.opcode_lt _)).2.2.2.1 rfl rfl)

theorem EncodedFields.fcge (vd va vb : Reg) :
    EncodedFields.Statement (.fcge vd va vb) :=
  encodedFields_intro ((reserved_of_low (Instr.opcode_lt _)).2.2.2.1 rfl rfl)

theorem EncodedFields.fclrb (vd vm va : Reg) :
    EncodedFields.Statement (.fclrb vd vm va) :=
  encodedFields_intro ((reserved_of_low (Instr.opcode_lt _)).2.2.2.1 rfl rfl)

theorem EncodedFields.fsetb (vd vm va : Reg) :
    EncodedFields.Statement (.fsetb vd vm va) :=
  encodedFields_intro ((reserved_of_low (Instr.opcode_lt _)).2.2.2.1 rfl rfl)

theorem EncodedFields.ftglb (vd vm va : Reg) :
    EncodedFields.Statement (.ftglb vd vm va) :=
  encodedFields_intro ((reserved_of_low (Instr.opcode_lt _)).2.2.2.1 rfl rfl)

end Sys2Proof.Laws
end

