-- ==== Sys2Proof/Laws/Rows.lean ====
section
/-! SUPPORT. What a row of the opcode map does, from the one shared operation its meaning calls: a
register write changes that register only, a memory write those bytes only. -/

namespace Sys2Proof.Machine

/-! ## Register writes -/

/-- Everything a register write changes. -/
theorem changesOnly_putReg (s : State) (r : Reg) (v : VReg) : s.changesOnly (s.putReg r v) [r] :=
  ⟨rfl, fun r' h => by
    have hne : r ≠ r' := fun e => h (by simp [e])
    simp only [State.putReg_regs, Vector.get]
    exact Vector.getElem_set_ne _ _ (fun e => hne (Fin.ext e)), fun _ _ => rfl⟩

theorem changesOnly_writeReg (s : State) (r : Reg) (v : Vec) :
    s.changesOnly (s.writeReg r v) [r] := changesOnly_putReg s r _

theorem changesOnly_writeLane (s : State) (r : Reg) (k : Fin 4) (x : Word) :
    s.changesOnly (s.writeLane r k x) [r] := changesOnly_putReg s r _

/-- Two changes in a row change the registers of both. -/
theorem changesOnly_trans {s t u : State} {rs rs' : List Reg} (h : s.changesOnly t rs)
    (h' : t.changesOnly u rs') : s.changesOnly u (rs ++ rs') := by
  obtain ⟨h1, h2, h3⟩ := h
  obtain ⟨h1', h2', h3'⟩ := h'
  refine ⟨?_, fun r hr => ?_, fun a _ => (h3' a rfl).trans (h3 a rfl)⟩
  · rw [← h1, ← h1']
  · simp only [List.mem_append, not_or] at hr
    exact (h2' r hr.2).trans (h2 r hr.1)

/-- The same changes, with the registers listed otherwise. -/
theorem changesOnly_mono {s t : State} {rs rs' : List Reg} (h : s.changesOnly t rs)
    (hs : ∀ r ∈ rs, r ∈ rs') : s.changesOnly t rs' :=
  ⟨h.1, fun r hr => h.2.1 r fun h' => hr (hs r h'), h.2.2⟩

/-- A row of format R2 whose meaning is a lane-wise register write. -/
theorem lanewiseUnary_of {op : Nat} {ins : Reg → Reg → Instr} {f : Word → Word}
    (he : ∀ vd va, encodesRow op vd va 0 0 0 fun _ => ins vd va)
    (hx : ∀ vd va s, exec (ins vd va) s = .next (s.writeReg vd ((s.operand 0 va).map f))) :
    lanewiseUnary op ins f := fun vd va s =>
  ⟨he vd va, _, hx vd va s, changesOnly_writeReg .., by simp [State.marks_writeReg],
    fun k => by simp [State.readReg_writeReg]⟩

/-- A row of format R3 whose meaning is a lane-wise register write. -/
theorem lanewiseBinary_of {op : Nat} {ins : Reg → Reg → Reg → Instr} {f : Word → Word → Word}
    (he : ∀ vd va vb, encodesRow op vd va vb 0 0 fun _ => ins vd va vb)
    (hx : ∀ vd va vb s, exec (ins vd va vb) s =
      .next (s.writeReg vd ((s.operand 0 va).map₂ f (s.operand 1 vb)))) :
    lanewiseBinary op ins f := fun vd va vb s =>
  ⟨he vd va vb, _, hx vd va vb s, changesOnly_writeReg .., by simp [State.marks_writeReg],
    fun k => by simp [State.readReg_writeReg]⟩

/-- A row of format R4 whose meaning is a lane-wise register write. -/
theorem lanewiseTernary_of {op : Nat} {ins : Reg → Reg → Reg → Reg → Instr}
    {f : Word → Word → Word → Word}
    (he : ∀ vd va vb vc, encodesRow op vd va vb vc 0 fun _ => ins vd va vb vc)
    (hx : ∀ vd va vb vc s, exec (ins vd va vb vc) s =
      .next (s.writeReg vd (Quad.map₃ f (s.operand 0 va) (s.operand 1 vb) (s.operand 2 vc)))) :
    lanewiseTernary op ins f := fun vd va vb vc s =>
  ⟨he vd va vb vc, _, hx vd va vb vc s, changesOnly_writeReg .., by simp [State.marks_writeReg],
    fun k => by simp [State.readReg_writeReg]⟩

end Sys2Proof.Machine
end

