-- ==== Sys2Proof/Machine/Assembly.lean ====
section
/-! DEFINITION. The textual form of a command beat (30_encoding.md R90) and the pseudo-instructions (R91):
an assembler from one line of text to one beat. No instruction and no step depends on it. -/

namespace Sys2Proof.Machine

/-! ## The mnemonics (R86) -/

/-- One row of the opcode map, as the assembler needs it. -/
structure AsmRow where
  mnemonic : String
  op : Nat
  format : Format
deriving DecidableEq, Repr

/-- The rows of 40_vector_base.md. -/
def baseRows : List AsmRow :=
  [⟨"VANY", 0x01, .r1⟩, ⟨"VALL", 0x02, .r1⟩, ⟨"VSPLAT", 0x03, .r2i2⟩, ⟨"VSHUF", 0x04, .r2i8⟩,
   ⟨"VSWAP", 0x05, .r2⟩, ⟨"VTRN", 0x06, .r4⟩, ⟨"VMOV", 0x07, .r2⟩, ⟨"VSET", 0x08, .r1⟩,
   ⟨"VBCAST", 0x09, .r1⟩, ⟨"LGET", 0x0A, .r1i⟩, ⟨"LSET", 0x0B, .r1i⟩]

/-- The rows of 41_vector_memory.md and 47_float_memory_rmw.md. -/
def memoryRows : List AsmRow :=
  [⟨"VLD", 0x10, .r1⟩, ⟨"VST", 0x11, .r1⟩, ⟨"VSTS", 0x12, .r1⟩, ⟨"MCOPY", 0x13, .z⟩,
   ⟨"MSWAP", 0x14, .z⟩, ⟨"MINC", 0x15, .r1⟩, ⟨"MDEC", 0x16, .r1⟩, ⟨"MSCALE", 0x17, .r1⟩,
   ⟨"LD4X1TR", 0x18, .r1⟩, ⟨"LD4X2TR", 0x19, .r2⟩, ⟨"LD4X3TR", 0x1A, .r3⟩,
   ⟨"LD4X4TR", 0x1B, .r4⟩, ⟨"ST4X1TR", 0x1C, .r1⟩, ⟨"ST4X2TR", 0x1D, .r2⟩,
   ⟨"ST4X3TR", 0x1E, .r3⟩, ⟨"ST4X4TR", 0x1F, .r4⟩]

/-- The rows of 42_integer_arith.md. -/
def integerRows : List AsmRow :=
  [⟨"IADD", 0x20, .r3⟩, ⟨"ISUB", 0x21, .r3⟩, ⟨"IMUL", 0x22, .r3⟩, ⟨"IDIV", 0x23, .r3⟩,
   ⟨"IMOD", 0x24, .r3⟩, ⟨"IAND", 0x25, .r3⟩, ⟨"IOR", 0x26, .r3⟩, ⟨"IXOR", 0x27, .r3⟩,
   ⟨"INOT", 0x28, .r2⟩, ⟨"ISHL", 0x29, .r3⟩, ⟨"ISHR", 0x2A, .r3⟩, ⟨"IABS", 0x2B, .r2⟩,
   ⟨"IPREINC", 0x2C, .r2⟩, ⟨"IPOSTINC", 0x2D, .r2⟩, ⟨"IPREDEC", 0x2E, .r2⟩,
   ⟨"IPOSTDEC", 0x2F, .r2⟩]

/-- The rows of 43_integer_compare_mask.md. -/
def maskRows : List AsmRow :=
  [⟨"ICLT", 0x30, .r3⟩, ⟨"ICGT", 0x31, .r3⟩, ⟨"ICEQ", 0x32, .r3⟩, ⟨"ICNE", 0x33, .r3⟩,
   ⟨"ICLE", 0x34, .r3⟩, ⟨"ICGE", 0x35, .r3⟩, ⟨"ILAND", 0x36, .r3⟩, ⟨"ILOR", 0x37, .r3⟩,
   ⟨"CZERO", 0x38, .r3⟩, ⟨"NOTCZERO", 0x39, .r3⟩, ⟨"MERGE", 0x3A, .r4⟩]

/-- The rows of 44_float_arith.md and 45_float_newton.md. -/
def floatRows : List AsmRow :=
  [⟨"FADD", 0x40, .r3⟩, ⟨"FSUB", 0x41, .r3⟩, ⟨"FMUL", 0x42, .r3⟩, ⟨"FDIV", 0x43, .r3⟩,
   ⟨"FRCPA", 0x44, .r2⟩, ⟨"FRCP", 0x45, .r2⟩, ⟨"FRSQRTA", 0x46, .r2⟩, ⟨"FRSQRT", 0x47, .r2⟩,
   ⟨"FSQRT", 0x48, .r2⟩, ⟨"FABS", 0x49, .r2⟩, ⟨"FCPSGN", 0x4A, .r3⟩, ⟨"FMA", 0x4B, .r4⟩,
   ⟨"FNMS", 0x4C, .r4⟩, ⟨"FMS", 0x4D, .r4⟩]

/-- The rows of 46_float_compare_bits.md. -/
def floatCompareRows : List AsmRow :=
  [⟨"FCLT", 0x50, .r3⟩, ⟨"FCGT", 0x51, .r3⟩, ⟨"FCEQ", 0x52, .r3⟩, ⟨"FCNE", 0x53, .r3⟩,
   ⟨"FCLE", 0x54, .r3⟩, ⟨"FCGE", 0x55, .r3⟩, ⟨"FCLRB", 0x58, .r3⟩, ⟨"FSETB", 0x59, .r3⟩,
   ⟨"FTGLB", 0x5A, .r3⟩]

/-- The opcode map's mnemonics, opcodes and formats (R86). -/
def asmRows : List AsmRow :=
  baseRows ++ memoryRows ++ integerRows ++ maskRows ++ floatRows ++ floatCompareRows

/-! ## Tokens -/

/-- The tokens of a line. -/
inductive Token where
  | word (cs : List Char)
  | comma
  | hash
  | openParen
  | closeParen
  | openBrace
  | closeBrace
deriving DecidableEq, Repr

/-- The token that a punctuation character is. The braces are characters 123 and 125. -/
def punctuation (c : Char) : Option Token :=
  if c = ',' then some .comma
  else if c = '#' then some .hash
  else if c = '(' then some .openParen
  else if c = ')' then some .closeParen
  else if c.toNat = 123 then some .openBrace
  else if c.toNat = 125 then some .closeBrace
  else none

/-- Close the word read so far, its last character first. -/
def endWord (cur : List Char) (rest : List Token) : List Token :=
  if cur.isEmpty then rest else .word cur.reverse :: rest

/-- Split a line into tokens: blanks separate, and `;` starts a comment (R90). -/
def tokens : List Char → List Char → List Token
  | [], cur => endWord cur []
  | c :: cs, cur =>
    if c = ';' then endWord cur []
    else if c.isWhitespace then endWord cur (tokens cs [])
    else match punctuation c with
      | some t => endWord cur (t :: tokens cs [])
      | none => tokens cs (c :: cur)

/-! ## Numbers -/

/-- The value of a digit in a base of at most 16. -/
def digitValue (base : Nat) (c : Char) : Option Nat :=
  let v :=
    if c.isDigit then some (c.toNat - '0'.toNat)
    else if 'a' ≤ c ∧ c ≤ 'f' then some (c.toNat - 'a'.toNat + 10)
    else if 'A' ≤ c ∧ c ≤ 'F' then some (c.toNat - 'A'.toNat + 10)
    else none
  v.filter (· < base)

/-- The value of digits that follow those read so far. -/
def digitsFrom (base : Nat) : List Char → Nat → Option Nat
  | [], acc => some acc
  | c :: cs, acc => (digitValue base c).bind fun d => digitsFrom base cs (acc * base + d)

/-- The value of one digit or more. -/
def digits (base : Nat) (cs : List Char) : Option Nat :=
  if cs.isEmpty then none else digitsFrom base cs 0

/-- The binary32 pattern nearest to `m * 10^(e - k)`, ties to even (R90). -/
def nearestDecimal (m e k : Nat) : Word :=
  roundUnits ((m * 10 ^ e * 2 ^ 149 : Nat) : Int) (10 ^ k)

/-- A decimal exponent: an optional sign and digits. -/
def exponentOf (cs : List Char) : Option (Bool × Nat) :=
  match cs with
  | '-' :: ds => (digits 10 ds).map (true, ·)
  | '+' :: ds => (digits 10 ds).map (false, ·)
  | ds => (digits 10 ds).map (false, ·)

/-- A decimal literal with a point or an exponent, without its suffix `f`: what stands before the
exponent, and the exponent. -/
def floatLiteral (cs : List Char) : Option Word := do
  let isExp : Char → Bool := fun c => c == 'e' || c == 'E'
  let base := cs.takeWhile fun c => !isExp c
  let after := cs.dropWhile fun c => !isExp c
  let whole := base.takeWhile (· != '.')
  let fraction := (base.dropWhile (· != '.')).drop 1
  if base.length = whole.length ∧ after.isEmpty then none
  let m ← digits 10 (whole ++ fraction)
  if after.isEmpty then some (nearestDecimal m 0 fraction.length)
  else
    let (negative, e) ← exponentOf (after.drop 1)
    if negative then some (nearestDecimal m 0 (fraction.length + e))
    else some (nearestDecimal m e fraction.length)

/-- A decimal or `0x` hexadecimal number. -/
def natLiteral (cs : List Char) : Option Nat :=
  match cs with
  | '0' :: 'x' :: hs => digits 16 hs
  | ds => digits 10 ds

/-- An operand word: a number below 2^32, or a decimal literal with the suffix `f` (R90). -/
def wordLiteral (cs : List Char) : Option Word :=
  match (natLiteral cs).filter (· < 2 ^ 32) with
  | some n => some (BitVec.ofNat 32 n)
  | none => if cs.getLast? = some 'f' then floatLiteral cs.dropLast else none

/-- A register name `v0` to `v15`. -/
def regName (cs : List Char) : Option Reg :=
  match cs with
  | 'v' :: ds => (digits 10 ds).bind fun n => if h : n < 16 then some ⟨n, h⟩ else none
  | _ => none

/-! ## Lines -/

/-- What a line says after its mnemonic. -/
structure AsmOperands where
  regs : List Reg
  imm : Option Nat
  words : List Word
deriving DecidableEq, Repr

/-- Operand words between the braces. -/
def wordList : List Token → Option (List Word)
  | [.word w, .closeBrace] => (wordLiteral w).map ([·])
  | .word w :: .comma :: ts => do
    let x ← wordLiteral w
    let xs ← wordList ts
    some (x :: xs)
  | _ => none

/-- The operand words at the end of a line, if any: at most four. -/
def tailWords : List Token → Option (List Word)
  | [] => some []
  | .openBrace :: ts => (wordList ts).filter (·.length ≤ 4)
  | _ => none

/-- Registers, then an immediate, then the operand words, in the order of R90. The selector of VSHUF may
be four indices in parentheses. -/
def operands : List Token → Option AsmOperands
  | .word r :: .comma :: ts => do
    let v ← regName r
    let rest ← (operands ts).filter fun o => !o.regs.isEmpty || o.imm.isSome
    some { rest with regs := v :: rest.regs }
  | .hash :: .openParen :: .word i0 :: .comma :: .word i1 :: .comma :: .word i2 :: .comma
      :: .word i3 :: .closeParen :: ts => do
    let a ← (natLiteral i0).filter (· < 4)
    let b ← (natLiteral i1).filter (· < 4)
    let c ← (natLiteral i2).filter (· < 4)
    let d ← (natLiteral i3).filter (· < 4)
    let xs ← tailWords ts
    some ⟨[], some (a + 4 * b + 16 * c + 64 * d), xs⟩
  | .hash :: .word n :: ts => do
    let v ← natLiteral n
    let xs ← tailWords ts
    some ⟨[], some v, xs⟩
  | .word r :: ts => do
    let v ← regName r
    let xs ← tailWords ts
    some ⟨[v], none, xs⟩
  | ts => (tailWords ts).map fun xs => ⟨[], none, xs⟩

/-- The number of register fields of a format, and how many values its immediate may take (R82, R84); 0
is no immediate. -/
def formatShape : Format → Nat × Nat
  | .z => (0, 0)
  | .r1 => (1, 0)
  | .r2 => (2, 0)
  | .r3 => (3, 0)
  | .r4 => (4, 0)
  | .r1i => (1, 4)
  | .r2i2 => (2, 4)
  | .r2i8 => (2, 256)

/-- The beat of a row with its operands; an operand word left out is 0 (R90). -/
def assembleRow (row : AsmRow) (o : AsmOperands) : Option Beat :=
  let shape := formatShape row.format
  let immOk := match o.imm with
    | none => shape.2 == 0
    | some n => decide (n < shape.2)
  if o.regs.length == shape.1 && immOk then
    let x : Quad Word := .ofFn fun j => o.words.getD j 0
    let r : Nat → Reg := fun k => o.regs.getD k 0
    some ⟨assembleWord row.op ⟨r 0, r 1, r 2, r 3, BitVec.ofNat 8 (o.imm.getD 0), x⟩, x⟩
  else none

/-- The pseudo-instructions, each as the mnemonic and operands of its expansion (R91). -/
def expandPseudo (mnemonic : String) (o : AsmOperands) : Option (String × AsmOperands) :=
  match mnemonic, o with
  | "VZERO", ⟨[vd], none, []⟩ => some ("VBCAST", ⟨[vd], none, [0x00000000]⟩)
  | "VONES", ⟨[vd], none, []⟩ => some ("VBCAST", ⟨[vd], none, [0xFFFFFFFF]⟩)
  | "IINC", ⟨[va], none, []⟩ => some ("IPREINC", ⟨[va, va], none, []⟩)
  | "IDEC", ⟨[va], none, []⟩ => some ("IPREDEC", ⟨[va, va], none, []⟩)
  | "ISET", o => some ("VSET", o)
  | "FSET", o => some ("VSET", o)
  | "IBCAST", o => some ("VBCAST", o)
  | "FBCAST", o => some ("VBCAST", o)
  | _, _ => none

/-- The beat that a line of text stands for (R90, R91). -/
def assembleLine (line : List Char) : Option Beat :=
  match tokens line [] with
  | .word m :: ts => do
    let o ← operands ts
    let (name, o) := (expandPseudo (String.ofList m) o).getD (String.ofList m, o)
    let row ← asmRows.find? fun r => r.mnemonic == name
    assembleRow row o
  | _ => none

end Sys2Proof.Machine
end

