-- ==== Sys2Proof/Tests/Slice0.lean ====
section
/-! SUPPORT. Tests of one step each, with expected values from spec/95_test_vectors.md and the worked
examples of the rules, the smoke test of WellFormed, every constructor's decoding, and a witness for the
hypotheses of every statement that has some. -/

namespace Sys2Proof.Tests

open Sys2Proof Sys2Proof.Machine

set_option Elab.async false

/-! ## Helpers -/

/-- The reset state with these registers written and these words in memory. -/
def start (regs : List (Reg × Vec)) (words : List (Word × Word)) : State :=
  let m : Memory := words.foldl (fun m c => Memory.writeWord m c.1 c.2) []
  regs.foldl (fun s r => s.writeReg r.1 r.2) (State.reset.withMem m)

/-- What is seen of the state after one beat. -/
def after {α : Type} (s : State) (b : Beat) (see : State → α) : Option α :=
  match runBeat b s with
  | .next t => some (see t)
  | .fault _ | .refused _ => none

/-- The state after one step, where there is one. -/
def stepped {α : Type} (s : State) (see : State → α) : Option α :=
  match step s with
  | .next t => some (see t)
  | .fault _ | .refused _ => none

/-! ## WellFormed refuses each reserved register combination (30_encoding.md R88) -/

theorem test_illformed_vtrn : (Instr.vtrn 0 1 2 0).wellFormed = false := by decide
theorem test_illformed_ld4x2tr : (Instr.ld4x2tr 3 3 (.splat 0)).wellFormed = false := by decide
theorem test_illformed_ld4x3tr : (Instr.ld4x3tr 0 1 1 (.splat 0)).wellFormed = false := by decide
theorem test_illformed_ld4x4tr : (Instr.ld4x4tr 0 1 2 1 (.splat 0)).wellFormed = false := by decide
theorem test_illformed_ipostinc : (Instr.ipostinc 5 5).wellFormed = false := by decide
theorem test_illformed_ipostdec : (Instr.ipostdec 0 0).wellFormed = false := by decide
theorem test_wellformed_vswap_same : (Instr.vswap 4 4).wellFormed = true := by decide
theorem test_wellformed_ipreinc_same : (Instr.ipreinc 4 4).wellFormed = true := by decide
theorem test_wellformed_st4x4tr_same : (Instr.st4x4tr 0 0 0 0 (.splat 0)).wellFormed = true := by decide

/-! ## The decoder refuses by name (60_exceptions.md section 7) -/

theorem test_refuse_zero_word : decode ⟨0x00000000#32, .splat 0⟩ = .error .unassignedOpcode := by decide
theorem test_refuse_ones_word : decode ⟨0xFFFFFFFF#32, .splat 0⟩ = .error .unassignedOpcode := by decide
theorem test_refuse_reserved_bit : decode ⟨0x20201001#32, .splat 0⟩ = .error .reservedBit := by decide
theorem test_refuse_lane_index_bit : decode ⟨0x0A000004#32, .splat 0⟩ = .error .reservedBit := by decide
theorem test_refuse_registers : decode ⟨0x1B010200#32, .splat 0⟩ = .error .reservedRegisters := by decide

/-! ## The host's words: `W` first, then the operand words (30_encoding.md R80) -/

theorem test_table_word_vset :
    decodeTableWord 160 (0x08000000 + 1 * 2 ^ 32 + 2 * 2 ^ 64 + 3 * 2 ^ 96 + 4 * 2 ^ 128) =
      some (.vset 0 ⟨1, 2, 3, 4⟩) := by decide +kernel
theorem test_fetch_word :
    stepped (State.reset.withFetchWord 32 0x0B400003) (fun t => (t.marks 4, t.inputs)) =
      some (⟨false, false, false, true⟩, []) := by decide +kernel

/-! ## Decoding: one word for each constructor, written out in the spec -/

/-- `VANY v0` (95_test_vectors.md). -/
theorem test_decode_vany : decode ⟨0x01000000#32, ⟨0, 0, 0, 0⟩⟩ = .ok (.vany 0) := by
  decide

/-- `VALL v6` (95_test_vectors.md). -/
theorem test_decode_vall : decode ⟨0x02600000#32, ⟨0, 0, 0, 0⟩⟩ = .ok (.vall 6) := by
  decide

/-- `VSPLAT v1, v0, #2` (95_test_vectors.md). -/
theorem test_decode_vsplat : decode ⟨0x03100002#32, ⟨0, 0, 0, 0⟩⟩ = .ok (.vsplat 1 0 2) := by
  decide

/-- `VSHUF v1, v0, #(3,2,1,0)` (95_test_vectors.md). -/
theorem test_decode_vshuf : decode ⟨0x0410001B#32, ⟨0, 0, 0, 0⟩⟩ = .ok (.vshuf 1 0 (1 * 3 + 4 * 2 + 16 * 1 + 64 * 0)) := by
  decide

/-- `VSWAP v0, v1` (95_test_vectors.md). -/
theorem test_decode_vswap : decode ⟨0x05010000#32, ⟨0, 0, 0, 0⟩⟩ = .ok (.vswap 0 1) := by
  decide

/-- `VTRN v3, v1, v0, v2` (95_test_vectors.md). -/
theorem test_decode_vtrn : decode ⟨0x06310200#32, ⟨0, 0, 0, 0⟩⟩ = .ok (.vtrn 3 1 0 2) := by
  decide

/-- `VMOV v5, v0` (95_test_vectors.md). -/
theorem test_decode_vmov : decode ⟨0x07500000#32, ⟨0, 0, 0, 0⟩⟩ = .ok (.vmov 5 0) := by
  decide

/-- `VSET v0 (1, 2, 3, 0xFFFFFFFF)` (95_test_vectors.md). -/
theorem test_decode_vset : decode ⟨0x08000000#32, ⟨0x00000001#32, 0x00000002#32, 0x00000003#32, 0xFFFFFFFF#32⟩⟩ = .ok (.vset 0 ⟨0x00000001#32, 0x00000002#32, 0x00000003#32, 0xFFFFFFFF#32⟩) := by
  decide

/-- `VBCAST v7 (1.0f)` (95_test_vectors.md). -/
theorem test_decode_vbcast : decode ⟨0x09700000#32, ⟨0x3F800000#32, 0, 0, 0⟩⟩ = .ok (.vbcast 7 0x3F800000#32) := by
  decide

/-- `LGET v0, #2` (95_test_vectors.md). -/
theorem test_decode_lget : decode ⟨0x0A000002#32, ⟨0, 0, 0, 0⟩⟩ = .ok (.lget 0 2) := by
  decide

/-- `LSET v0, #1 (0x55)` (95_test_vectors.md). -/
theorem test_decode_lset : decode ⟨0x0B000001#32, ⟨0x00000055#32, 0, 0, 0⟩⟩ = .ok (.lset 0 1 0x00000055#32) := by
  decide

/-- `VLD v2 (0x1000)` (95_test_vectors.md). -/
theorem test_decode_vld : decode ⟨0x10200000#32, ⟨0x00001000#32, 0, 0, 0⟩⟩ = .ok (.vld 2 0x00001000#32) := by
  decide

/-- `VST v2 (0x2000)` (95_test_vectors.md). -/
theorem test_decode_vst : decode ⟨0x11200000#32, ⟨0x00002000#32, 0, 0, 0⟩⟩ = .ok (.vst 2 0x00002000#32) := by
  decide

/-- `VSTS v2 (0x2000)` (95_test_vectors.md). -/
theorem test_decode_vsts : decode ⟨0x12200000#32, ⟨0x00002000#32, 0, 0, 0⟩⟩ = .ok (.vsts 2 0x00002000#32) := by
  decide

/-- `MCOPY (0x3010, 0x3000)` (95_test_vectors.md). -/
theorem test_decode_mcopy : decode ⟨0x13000000#32, ⟨0x00003010#32, 0x00003000#32, 0, 0⟩⟩ = .ok (.mcopy 0x00003010#32 0x00003000#32) := by
  decide

/-- `MSWAP (0x3000, 0x3010)` (95_test_vectors.md). -/
theorem test_decode_mswap : decode ⟨0x14000000#32, ⟨0x00003000#32, 0x00003010#32, 0, 0⟩⟩ = .ok (.mswap 0x00003000#32 0x00003010#32) := by
  decide

/-- `MINC v3 (0x1000)` (95_test_vectors.md). -/
theorem test_decode_minc : decode ⟨0x15300000#32, ⟨0x00001000#32, 0, 0, 0⟩⟩ = .ok (.minc 3 0x00001000#32) := by
  decide

/-- `MDEC v3 (0x1000)` (95_test_vectors.md). -/
theorem test_decode_mdec : decode ⟨0x16300000#32, ⟨0x00001000#32, 0, 0, 0⟩⟩ = .ok (.mdec 3 0x00001000#32) := by
  decide

/-- `MSCALE v3 (0x1000)` (95_test_vectors.md). -/
theorem test_decode_mscale : decode ⟨0x17300000#32, ⟨0x00001000#32, 0, 0, 0⟩⟩ = .ok (.mscale 3 0x00001000#32) := by
  decide

/-- `LD4X1TR v0 (P)` (95_test_vectors.md). -/
theorem test_decode_ld4x1tr : decode ⟨0x18000000#32, ⟨0x00000100#32, 0x00000110#32, 0x00000120#32, 0x00000130#32⟩⟩ = .ok (.ld4x1tr 0 ⟨0x00000100#32, 0x00000110#32, 0x00000120#32, 0x00000130#32⟩) := by
  decide

/-- `LD4X2TR v0, v1 (P)` (95_test_vectors.md). -/
theorem test_decode_ld4x2tr : decode ⟨0x19010000#32, ⟨0x00000100#32, 0x00000110#32, 0x00000120#32, 0x00000130#32⟩⟩ = .ok (.ld4x2tr 0 1 ⟨0x00000100#32, 0x00000110#32, 0x00000120#32, 0x00000130#32⟩) := by
  decide

/-- `LD4X3TR v0, v1, v2 (P)` (95_test_vectors.md). -/
theorem test_decode_ld4x3tr : decode ⟨0x1A012000#32, ⟨0x00000100#32, 0x00000110#32, 0x00000120#32, 0x00000130#32⟩⟩ = .ok (.ld4x3tr 0 1 2 ⟨0x00000100#32, 0x00000110#32, 0x00000120#32, 0x00000130#32⟩) := by
  decide

/-- `LD4X4TR v4, v5, v6, v7 (P)` (95_test_vectors.md). -/
theorem test_decode_ld4x4tr : decode ⟨0x1B456700#32, ⟨0x00000100#32, 0x00000110#32, 0x00000120#32, 0x00000130#32⟩⟩ = .ok (.ld4x4tr 4 5 6 7 ⟨0x00000100#32, 0x00000110#32, 0x00000120#32, 0x00000130#32⟩) := by
  decide

/-- `ST4X1TR v0 (P)` (95_test_vectors.md). -/
theorem test_decode_st4x1tr : decode ⟨0x1C000000#32, ⟨0x00000100#32, 0x00000110#32, 0x00000120#32, 0x00000130#32⟩⟩ = .ok (.st4x1tr 0 ⟨0x00000100#32, 0x00000110#32, 0x00000120#32, 0x00000130#32⟩) := by
  decide

/-- `ST4X2TR v0, v1 (P)` (95_test_vectors.md). -/
theorem test_decode_st4x2tr : decode ⟨0x1D010000#32, ⟨0x00000100#32, 0x00000110#32, 0x00000120#32, 0x00000130#32⟩⟩ = .ok (.st4x2tr 0 1 ⟨0x00000100#32, 0x00000110#32, 0x00000120#32, 0x00000130#32⟩) := by
  decide

/-- `ST4X3TR v0, v1, v2 (P)` (95_test_vectors.md). -/
theorem test_decode_st4x3tr : decode ⟨0x1E012000#32, ⟨0x00000100#32, 0x00000110#32, 0x00000120#32, 0x00000130#32⟩⟩ = .ok (.st4x3tr 0 1 2 ⟨0x00000100#32, 0x00000110#32, 0x00000120#32, 0x00000130#32⟩) := by
  decide

/-- `ST4X4TR v0, v1, v2, v3 (P)` (95_test_vectors.md). -/
theorem test_decode_st4x4tr : decode ⟨0x1F012300#32, ⟨0x00000100#32, 0x00000110#32, 0x00000120#32, 0x00000130#32⟩⟩ = .ok (.st4x4tr 0 1 2 3 ⟨0x00000100#32, 0x00000110#32, 0x00000120#32, 0x00000130#32⟩) := by
  decide

/-- `IADD v5, v4, v3` (95_test_vectors.md). -/
theorem test_decode_iadd : decode ⟨0x20543000#32, ⟨0, 0, 0, 0⟩⟩ = .ok (.iadd 5 4 3) := by
  decide

/-- `ISUB v2, v0, v1` (95_test_vectors.md). -/
theorem test_decode_isub : decode ⟨0x21201000#32, ⟨0, 0, 0, 0⟩⟩ = .ok (.isub 2 0 1) := by
  decide

/-- `IMUL v4, v2, v1` (95_test_vectors.md). -/
theorem test_decode_imul : decode ⟨0x22421000#32, ⟨0, 0, 0, 0⟩⟩ = .ok (.imul 4 2 1) := by
  decide

/-- `IDIV v2, v0, v1` (95_test_vectors.md). -/
theorem test_decode_idiv : decode ⟨0x23201000#32, ⟨0, 0, 0, 0⟩⟩ = .ok (.idiv 2 0 1) := by
  decide

/-- `IMOD v3, v0, v1` (95_test_vectors.md). -/
theorem test_decode_imod : decode ⟨0x24301000#32, ⟨0, 0, 0, 0⟩⟩ = .ok (.imod 3 0 1) := by
  decide

/-- `IAND v2, v0, v1` (95_test_vectors.md). -/
theorem test_decode_iand : decode ⟨0x25201000#32, ⟨0, 0, 0, 0⟩⟩ = .ok (.iand 2 0 1) := by
  decide

/-- `IOR v6, v4, v5` (95_test_vectors.md). -/
theorem test_decode_ior : decode ⟨0x26645000#32, ⟨0, 0, 0, 0⟩⟩ = .ok (.ior 6 4 5) := by
  decide

/-- `IXOR v2, v0, v1` (95_test_vectors.md). -/
theorem test_decode_ixor : decode ⟨0x27201000#32, ⟨0, 0, 0, 0⟩⟩ = .ok (.ixor 2 0 1) := by
  decide

/-- `INOT v1, v0` (95_test_vectors.md). -/
theorem test_decode_inot : decode ⟨0x28100000#32, ⟨0, 0, 0, 0⟩⟩ = .ok (.inot 1 0) := by
  decide

/-- `ISHL v2, v0, v1` (95_test_vectors.md). -/
theorem test_decode_ishl : decode ⟨0x29201000#32, ⟨0, 0, 0, 0⟩⟩ = .ok (.ishl 2 0 1) := by
  decide

/-- `ISHR v2, v0, v1` (95_test_vectors.md). -/
theorem test_decode_ishr : decode ⟨0x2A201000#32, ⟨0, 0, 0, 0⟩⟩ = .ok (.ishr 2 0 1) := by
  decide

/-- `IABS v1, v0` (95_test_vectors.md). -/
theorem test_decode_iabs : decode ⟨0x2B100000#32, ⟨0, 0, 0, 0⟩⟩ = .ok (.iabs 1 0) := by
  decide

/-- `IPREINC v1, v0` (95_test_vectors.md). -/
theorem test_decode_ipreinc : decode ⟨0x2C100000#32, ⟨0, 0, 0, 0⟩⟩ = .ok (.ipreinc 1 0) := by
  decide

/-- `IPOSTINC v1, v0` (95_test_vectors.md). -/
theorem test_decode_ipostinc : decode ⟨0x2D100000#32, ⟨0, 0, 0, 0⟩⟩ = .ok (.ipostinc 1 0) := by
  decide

/-- `IPREDEC v1, v0` (95_test_vectors.md). -/
theorem test_decode_ipredec : decode ⟨0x2E100000#32, ⟨0, 0, 0, 0⟩⟩ = .ok (.ipredec 1 0) := by
  decide

/-- `IPOSTDEC v1, v0` (95_test_vectors.md). -/
theorem test_decode_ipostdec : decode ⟨0x2F100000#32, ⟨0, 0, 0, 0⟩⟩ = .ok (.ipostdec 1 0) := by
  decide

/-- `ICLT v2, v0, v1` (95_test_vectors.md). -/
theorem test_decode_iclt : decode ⟨0x30201000#32, ⟨0, 0, 0, 0⟩⟩ = .ok (.iclt 2 0 1) := by
  decide

/-- `ICGT v2, v0, v1` (95_test_vectors.md). -/
theorem test_decode_icgt : decode ⟨0x31201000#32, ⟨0, 0, 0, 0⟩⟩ = .ok (.icgt 2 0 1) := by
  decide

/-- `ICEQ v6, v5, v0` (95_test_vectors.md). -/
theorem test_decode_iceq : decode ⟨0x32650000#32, ⟨0, 0, 0, 0⟩⟩ = .ok (.iceq 6 5 0) := by
  decide

/-- `ICNE v2, v0, v1` (95_test_vectors.md). -/
theorem test_decode_icne : decode ⟨0x33201000#32, ⟨0, 0, 0, 0⟩⟩ = .ok (.icne 2 0 1) := by
  decide

/-- `ICLE v2, v0, v1` (95_test_vectors.md). -/
theorem test_decode_icle : decode ⟨0x34201000#32, ⟨0, 0, 0, 0⟩⟩ = .ok (.icle 2 0 1) := by
  decide

/-- `ICGE v2, v0, v1` (95_test_vectors.md). -/
theorem test_decode_icge : decode ⟨0x35201000#32, ⟨0, 0, 0, 0⟩⟩ = .ok (.icge 2 0 1) := by
  decide

/-- `ILAND v2, v0, v1` (95_test_vectors.md). -/
theorem test_decode_iland : decode ⟨0x36201000#32, ⟨0, 0, 0, 0⟩⟩ = .ok (.iland 2 0 1) := by
  decide

/-- `ILOR v2, v0, v1` (95_test_vectors.md). -/
theorem test_decode_ilor : decode ⟨0x37201000#32, ⟨0, 0, 0, 0⟩⟩ = .ok (.ilor 2 0 1) := by
  decide

/-- `CZERO v5, v0, v2` (95_test_vectors.md). -/
theorem test_decode_czero : decode ⟨0x38502000#32, ⟨0, 0, 0, 0⟩⟩ = .ok (.czero 5 0 2) := by
  decide

/-- `NOTCZERO v4, v0, v1` (95_test_vectors.md). -/
theorem test_decode_notczero : decode ⟨0x39401000#32, ⟨0, 0, 0, 0⟩⟩ = .ok (.notczero 4 0 1) := by
  decide

/-- `MERGE v3, v0, v1, v2` (95_test_vectors.md). -/
theorem test_decode_merge : decode ⟨0x3A301200#32, ⟨0, 0, 0, 0⟩⟩ = .ok (.merge 3 0 1 2) := by
  decide

/-- `FADD v2, v0, v1` (95_test_vectors.md). -/
theorem test_decode_fadd : decode ⟨0x40201000#32, ⟨0, 0, 0, 0⟩⟩ = .ok (.fadd 2 0 1) := by
  decide

/-- `FSUB v2, v0, v1` (95_test_vectors.md). -/
theorem test_decode_fsub : decode ⟨0x41201000#32, ⟨0, 0, 0, 0⟩⟩ = .ok (.fsub 2 0 1) := by
  decide

/-- `FMUL v2, v0, v1` (95_test_vectors.md). -/
theorem test_decode_fmul : decode ⟨0x42201000#32, ⟨0, 0, 0, 0⟩⟩ = .ok (.fmul 2 0 1) := by
  decide

/-- `FDIV v2, v0, v1` (95_test_vectors.md). -/
theorem test_decode_fdiv : decode ⟨0x43201000#32, ⟨0, 0, 0, 0⟩⟩ = .ok (.fdiv 2 0 1) := by
  decide

/-- `FRCPA v1, v0` (95_test_vectors.md). -/
theorem test_decode_frcpa : decode ⟨0x44100000#32, ⟨0, 0, 0, 0⟩⟩ = .ok (.frcpa 1 0) := by
  decide

/-- `FRCP v1, v0` (95_test_vectors.md). -/
theorem test_decode_frcp : decode ⟨0x45100000#32, ⟨0, 0, 0, 0⟩⟩ = .ok (.frcp 1 0) := by
  decide

/-- `FRSQRTA v1, v0` (95_test_vectors.md). -/
theorem test_decode_frsqrta : decode ⟨0x46100000#32, ⟨0, 0, 0, 0⟩⟩ = .ok (.frsqrta 1 0) := by
  decide

/-- `FRSQRT v1, v0` (95_test_vectors.md). -/
theorem test_decode_frsqrt : decode ⟨0x47100000#32, ⟨0, 0, 0, 0⟩⟩ = .ok (.frsqrt 1 0) := by
  decide

/-- `FSQRT v1, v0` (95_test_vectors.md). -/
theorem test_decode_fsqrt : decode ⟨0x48100000#32, ⟨0, 0, 0, 0⟩⟩ = .ok (.fsqrt 1 0) := by
  decide

/-- `FABS v1, v0` (95_test_vectors.md). -/
theorem test_decode_fabs : decode ⟨0x49100000#32, ⟨0, 0, 0, 0⟩⟩ = .ok (.fabs 1 0) := by
  decide

/-- `FCPSGN v2, v0, v1` (95_test_vectors.md). -/
theorem test_decode_fcpsgn : decode ⟨0x4A201000#32, ⟨0, 0, 0, 0⟩⟩ = .ok (.fcpsgn 2 0 1) := by
  decide

/-- `FMA v3, v0, v1, v2` (95_test_vectors.md). -/
theorem test_decode_fma : decode ⟨0x4B301200#32, ⟨0, 0, 0, 0⟩⟩ = .ok (.fma 3 0 1 2) := by
  decide

/-- `FNMS v3, v0, v1, v2` (95_test_vectors.md). -/
theorem test_decode_fnms : decode ⟨0x4C301200#32, ⟨0, 0, 0, 0⟩⟩ = .ok (.fnms 3 0 1 2) := by
  decide

/-- `FMS v3, v0, v1, v2` (95_test_vectors.md). -/
theorem test_decode_fms : decode ⟨0x4D301200#32, ⟨0, 0, 0, 0⟩⟩ = .ok (.fms 3 0 1 2) := by
  decide

/-- `FCLT v2, v0, v1` (95_test_vectors.md). -/
theorem test_decode_fclt : decode ⟨0x50201000#32, ⟨0, 0, 0, 0⟩⟩ = .ok (.fclt 2 0 1) := by
  decide

/-- `FCGT v2, v0, v1` (95_test_vectors.md). -/
theorem test_decode_fcgt : decode ⟨0x51201000#32, ⟨0, 0, 0, 0⟩⟩ = .ok (.fcgt 2 0 1) := by
  decide

/-- `FCEQ v2, v0, v1` (95_test_vectors.md). -/
theorem test_decode_fceq : decode ⟨0x52201000#32, ⟨0, 0, 0, 0⟩⟩ = .ok (.fceq 2 0 1) := by
  decide

/-- `FCNE v2, v0, v1` (95_test_vectors.md). -/
theorem test_decode_fcne : decode ⟨0x53201000#32, ⟨0, 0, 0, 0⟩⟩ = .ok (.fcne 2 0 1) := by
  decide

/-- `FCLE v2, v0, v1` (95_test_vectors.md). -/
theorem test_decode_fcle : decode ⟨0x54201000#32, ⟨0, 0, 0, 0⟩⟩ = .ok (.fcle 2 0 1) := by
  decide

/-- `FCGE v2, v0, v1` (95_test_vectors.md). -/
theorem test_decode_fcge : decode ⟨0x55201000#32, ⟨0, 0, 0, 0⟩⟩ = .ok (.fcge 2 0 1) := by
  decide

/-- `FCLRB v2, v0, v1` (95_test_vectors.md). -/
theorem test_decode_fclrb : decode ⟨0x58201000#32, ⟨0, 0, 0, 0⟩⟩ = .ok (.fclrb 2 0 1) := by
  decide

/-- `FSETB v2, v0, v1` (95_test_vectors.md). -/
theorem test_decode_fsetb : decode ⟨0x59201000#32, ⟨0, 0, 0, 0⟩⟩ = .ok (.fsetb 2 0 1) := by
  decide

/-- `FTGLB v2, v0, v1` (95_test_vectors.md). -/
theorem test_decode_ftglb : decode ⟨0x5A201000#32, ⟨0, 0, 0, 0⟩⟩ = .ok (.ftglb 2 0 1) := by
  decide

/-! ## One step for each instruction -/

/-- 95_test_vectors.md 2.1. -/
theorem test_vany :
  after (start [(0, ⟨0, 0, 5, 0⟩)] []) ⟨0x01000000#32, ⟨0, 0, 0,
      0⟩⟩ (fun t => t.cf) = some (true) := by
  decide +kernel

/-- 95_test_vectors.md 2.1. -/
theorem test_vall :
  after (start [(0, ⟨1, 2, 3, 0x80000000#32⟩)] []) ⟨0x02000000#32, ⟨0, 0, 0,
      0⟩⟩ (fun t => t.cf) = some (true) := by
  decide +kernel

/-- 95_test_vectors.md 2.1. -/
theorem test_vsplat :
  after (start [(0, ⟨0xA#32, 0xB#32, 0xC#32, 0xD#32⟩)] []) ⟨0x03100002#32, ⟨0, 0, 0,
      0⟩⟩ (fun t => t.readReg 1) = some (⟨0xC#32, 0xC#32, 0xC#32, 0xC#32⟩) := by
  decide +kernel

/-- 95_test_vectors.md 2.1. -/
theorem test_vshuf :
  after (start [(0, ⟨0xA#32, 0xB#32, 0xC#32, 0xD#32⟩)] []) ⟨0x0410001B#32, ⟨0, 0, 0,
      0⟩⟩ (fun t => t.readReg 1) = some (⟨0xD#32, 0xC#32, 0xB#32, 0xA#32⟩) := by
  decide +kernel

/-- 95_test_vectors.md 2.1. -/
theorem test_vswap :
  after (start [(0, ⟨1, 2, 3, 4⟩), (1, ⟨5, 6, 7, 8⟩)] []) ⟨0x05010000#32, ⟨0, 0, 0,
      0⟩⟩ (fun t => (t.readReg 0, t.readReg 1)) = some (⟨5, 6, 7, 8⟩, ⟨1, 2, 3, 4⟩) := by
  decide +kernel

/-- 95_test_vectors.md 2.1. -/
theorem test_vtrn :
  after (start [(0, ⟨0, 1, 2, 3⟩), (1, ⟨4, 5, 6, 7⟩), (2, ⟨8, 9, 0xA#32, 0xB#32⟩), (3,
      ⟨0xC#32, 0xD#32, 0xE#32, 0xF#32⟩)] []) ⟨0x06012300#32, ⟨0, 0, 0,
      0⟩⟩ (fun t => (t.readReg 0, t.readReg 1, t.readReg 2, t.readReg 3)) = some (⟨0, 4, 8,
      0xC#32⟩, ⟨1, 5, 9, 0xD#32⟩, ⟨2, 6, 0xA#32, 0xE#32⟩, ⟨3, 7, 0xB#32, 0xF#32⟩) := by
  decide +kernel

/-- 95_test_vectors.md 2.1. -/
theorem test_vmov :
  after (start [(0, ⟨1, 2, 3, 4⟩)] []) ⟨0x07500000#32, ⟨0, 0, 0,
      0⟩⟩ (fun t => t.readReg 5) = some (⟨1, 2, 3, 4⟩) := by
  decide +kernel

/-- 95_test_vectors.md 2.1. -/
theorem test_vset :
  after (start [] []) ⟨0x08000000#32, ⟨0x00000001#32, 0x00000002#32, 0x00000003#32,
      0xFFFFFFFF#32⟩⟩ (fun t => t.readReg 0) = some (⟨1, 2, 3, 0xFFFFFFFF#32⟩) := by
  decide +kernel

/-- 95_test_vectors.md 2.1. -/
theorem test_vbcast :
  after (start [] []) ⟨0x09700000#32, ⟨0x3F800000#32, 0, 0,
      0⟩⟩ (fun t => t.readReg 7) = some (⟨0x3F800000#32, 0x3F800000#32, 0x3F800000#32,
      0x3F800000#32⟩) := by
  decide +kernel

/-- 95_test_vectors.md 2.1. -/
theorem test_lget :
  after (start [(0, ⟨0xA#32, 0xB#32, 0xC#32, 0xD#32⟩)] []) ⟨0x0A000002#32, ⟨0, 0, 0,
      0⟩⟩ (fun t => t.xr) = some (0xC#32) := by
  decide +kernel

/-- 95_test_vectors.md 2.1. -/
theorem test_lset :
  after (start [(0, ⟨0xA#32, 0xB#32, 0xC#32, 0xD#32⟩)] []) ⟨0x0B000001#32, ⟨0x00000055#32,
      0, 0, 0⟩⟩ (fun t => t.readReg 0) = some (⟨0xA#32, 0x55#32, 0xC#32, 0xD#32⟩) := by
  decide +kernel

/-- 95_test_vectors.md 2.2. -/
theorem test_vld :
  after (start [] [(0x1000#32, 1), (0x1004#32, 2), (0x1008#32, 3), (0x100C#32,
      4)]) ⟨0x10200000#32, ⟨0x00001000#32, 0, 0, 0⟩⟩ (fun t => t.readReg 2) = some (⟨1, 2,
      3, 4⟩) := by
  decide +kernel

/-- 95_test_vectors.md 2.2. -/
theorem test_vst :
  after (start [(2, ⟨1, 2, 3, 4⟩)] []) ⟨0x11200000#32, ⟨0x00002000#32, 0, 0,
      0⟩⟩ (fun t => t.mem.readVec 0x2000#32) = some (⟨1, 2, 3, 4⟩) := by
  decide +kernel

/-- 95_test_vectors.md 2.2. -/
theorem test_vsts :
  after (start [(2, ⟨1, 2, 3, 4⟩)] []) ⟨0x12200000#32, ⟨0x00002000#32, 0, 0,
      0⟩⟩ (fun t => t.mem.readVec 0x2000#32) = some (⟨1, 2, 3, 4⟩) := by
  decide +kernel

/-- 95_test_vectors.md 2.2. -/
theorem test_mcopy :
  after (start [] [(0x3000#32, 1), (0x3004#32, 2), (0x3008#32, 3), (0x300C#32, 4),
      (0x3010#32, 9), (0x3014#32, 9), (0x3018#32, 9), (0x301C#32, 9)]) ⟨0x13000000#32,
      ⟨0x00003010#32, 0x00003000#32, 0, 0⟩⟩ (fun t => (t.mem.readVec 0x3000#32,
      t.mem.readVec 0x3010#32)) = some (⟨1, 2, 3, 4⟩, ⟨1, 2, 3, 4⟩) := by
  decide +kernel

/-- 95_test_vectors.md 2.2. -/
theorem test_mswap :
  after (start [] [(0x3000#32, 1), (0x3004#32, 2), (0x3008#32, 3), (0x300C#32, 4),
      (0x3010#32, 5), (0x3014#32, 6), (0x3018#32, 7), (0x301C#32, 8)]) ⟨0x14000000#32,
      ⟨0x00003000#32, 0x00003010#32, 0, 0⟩⟩ (fun t => (t.mem.readVec 0x3000#32,
      t.mem.readVec 0x3010#32)) = some (⟨5, 6, 7, 8⟩, ⟨1, 2, 3, 4⟩) := by
  decide +kernel

/-- 95_test_vectors.md 2.8. -/
theorem test_minc :
  after (start [(3, ⟨0x3F000000#32, 0x3F000000#32, 0xC0400000#32,
      0x7F800000#32⟩)] [(0x1000#32, 0x3F800000#32), (0x1004#32, 0x40000000#32), (0x1008#32,
      0x40400000#32), (0x100C#32, 0x40800000#32)]) ⟨0x15300000#32, ⟨0x00001000#32, 0, 0,
      0⟩⟩ (fun t => t.mem.readVec 0x1000#32) = some (⟨0x3FC00000#32, 0x40200000#32, 0,
      0x7F800000#32⟩) := by
  decide +kernel

/-- 95_test_vectors.md 2.8. -/
theorem test_mdec :
  after (start [(3, ⟨0x3F000000#32, 0x3F000000#32, 0xC0400000#32,
      0x7F800000#32⟩)] [(0x1000#32, 0x3F800000#32), (0x1004#32, 0x40000000#32), (0x1008#32,
      0x40400000#32), (0x100C#32, 0x40800000#32)]) ⟨0x16300000#32, ⟨0x00001000#32, 0, 0,
      0⟩⟩ (fun t => t.mem.readVec 0x1000#32) = some (⟨0x3F000000#32, 0x3FC00000#32,
      0x40C00000#32, 0xFF800000#32⟩) := by
  decide +kernel

/-- 95_test_vectors.md 2.8. -/
theorem test_mscale :
  after (start [(3, ⟨0x3F000000#32, 0x3F000000#32, 0xC0400000#32,
      0x7F800000#32⟩)] [(0x1000#32, 0x3F800000#32), (0x1004#32, 0x40000000#32), (0x1008#32,
      0x40400000#32), (0x100C#32, 0x40800000#32)]) ⟨0x17300000#32, ⟨0x00001000#32, 0, 0,
      0⟩⟩ (fun t => t.mem.readVec 0x1000#32) = some (⟨0x3F000000#32, 0x3F800000#32,
      0xC1100000#32, 0x7F800000#32⟩) := by
  decide +kernel

/-- 95_test_vectors.md 2.2. -/
theorem test_ld4x1tr :
  after (start [] [(0x100#32, 0), (0x104#32, 1), (0x108#32, 2), (0x10C#32, 3), (0x110#32,
      0x10#32), (0x114#32, 0x11#32), (0x118#32, 0x12#32), (0x11C#32, 0x13#32), (0x120#32,
      0x20#32), (0x124#32, 0x21#32), (0x128#32, 0x22#32), (0x12C#32, 0x23#32), (0x130#32,
      0x30#32), (0x134#32, 0x31#32), (0x138#32, 0x32#32), (0x13C#32,
      0x33#32)]) ⟨0x18000000#32, ⟨0x00000100#32, 0x00000110#32, 0x00000120#32,
      0x00000130#32⟩⟩ (fun t => t.readReg 0) = some (⟨0, 0x10#32, 0x20#32, 0x30#32⟩) := by
  decide +kernel

/-- 95_test_vectors.md 2.2. -/
theorem test_ld4x2tr :
  after (start [] [(0x100#32, 0), (0x104#32, 1), (0x108#32, 2), (0x10C#32, 3), (0x110#32,
      0x10#32), (0x114#32, 0x11#32), (0x118#32, 0x12#32), (0x11C#32, 0x13#32), (0x120#32,
      0x20#32), (0x124#32, 0x21#32), (0x128#32, 0x22#32), (0x12C#32, 0x23#32), (0x130#32,
      0x30#32), (0x134#32, 0x31#32), (0x138#32, 0x32#32), (0x13C#32,
      0x33#32)]) ⟨0x19010000#32, ⟨0x00000100#32, 0x00000110#32, 0x00000120#32,
      0x00000130#32⟩⟩ (fun t => (t.readReg 0, t.readReg 1)) = some (⟨0, 0x10#32, 0x20#32,
      0x30#32⟩, ⟨1, 0x11#32, 0x21#32, 0x31#32⟩) := by
  decide +kernel

/-- 95_test_vectors.md 2.2. -/
theorem test_ld4x3tr :
  after (start [] [(0x100#32, 0), (0x104#32, 1), (0x108#32, 2), (0x10C#32, 3), (0x110#32,
      0x10#32), (0x114#32, 0x11#32), (0x118#32, 0x12#32), (0x11C#32, 0x13#32), (0x120#32,
      0x20#32), (0x124#32, 0x21#32), (0x128#32, 0x22#32), (0x12C#32, 0x23#32), (0x130#32,
      0x30#32), (0x134#32, 0x31#32), (0x138#32, 0x32#32), (0x13C#32,
      0x33#32)]) ⟨0x1A012000#32, ⟨0x00000100#32, 0x00000110#32, 0x00000120#32,
      0x00000130#32⟩⟩ (fun t => (t.readReg 0, t.readReg 1, t.readReg 2)) = some (⟨0,
      0x10#32, 0x20#32, 0x30#32⟩, ⟨1, 0x11#32, 0x21#32, 0x31#32⟩, ⟨2, 0x12#32, 0x22#32,
      0x32#32⟩) := by
  decide +kernel

/-- 95_test_vectors.md 2.2. -/
theorem test_ld4x4tr :
  after (start [] [(0x100#32, 0), (0x104#32, 1), (0x108#32, 2), (0x10C#32, 3), (0x110#32,
      0x10#32), (0x114#32, 0x11#32), (0x118#32, 0x12#32), (0x11C#32, 0x13#32), (0x120#32,
      0x20#32), (0x124#32, 0x21#32), (0x128#32, 0x22#32), (0x12C#32, 0x23#32), (0x130#32,
      0x30#32), (0x134#32, 0x31#32), (0x138#32, 0x32#32), (0x13C#32,
      0x33#32)]) ⟨0x1B012300#32, ⟨0x00000100#32, 0x00000110#32, 0x00000120#32,
      0x00000130#32⟩⟩ (fun t => (t.readReg 0, t.readReg 1, t.readReg 2,
      t.readReg 3)) = some (⟨0, 0x10#32, 0x20#32, 0x30#32⟩, ⟨1, 0x11#32, 0x21#32, 0x31#32⟩,
      ⟨2, 0x12#32, 0x22#32, 0x32#32⟩, ⟨3, 0x13#32, 0x23#32, 0x33#32⟩) := by
  decide +kernel

/-- 95_test_vectors.md 2.2. -/
theorem test_st4x1tr :
  after (start [(0, ⟨0x64#32, 0x65#32, 0x66#32, 0x67#32⟩), (1, ⟨0x6E#32, 0x6F#32, 0x70#32,
      0x71#32⟩), (2, ⟨0x78#32, 0x79#32, 0x7A#32, 0x7B#32⟩), (3, ⟨0x82#32, 0x83#32, 0x84#32,
      0x85#32⟩)] [(0x100#32, 7), (0x104#32, 7), (0x108#32, 7), (0x10C#32, 7), (0x110#32, 7),
      (0x114#32, 7), (0x118#32, 7), (0x11C#32, 7), (0x120#32, 7), (0x124#32, 7), (0x128#32,
      7), (0x12C#32, 7), (0x130#32, 7), (0x134#32, 7), (0x138#32, 7), (0x13C#32,
      7)]) ⟨0x1C000000#32, ⟨0x00000100#32, 0x00000110#32, 0x00000120#32,
      0x00000130#32⟩⟩ (fun t => (t.mem.readVec 0x100#32, t.mem.readVec 0x110#32,
      t.mem.readVec 0x120#32, t.mem.readVec 0x130#32)) = some (⟨0x64#32, 7, 7, 7⟩, ⟨0x65#32,
      7, 7, 7⟩, ⟨0x66#32, 7, 7, 7⟩, ⟨0x67#32, 7, 7, 7⟩) := by
  decide +kernel

/-- 95_test_vectors.md 2.2. -/
theorem test_st4x2tr :
  after (start [(0, ⟨0x64#32, 0x65#32, 0x66#32, 0x67#32⟩), (1, ⟨0x6E#32, 0x6F#32, 0x70#32,
      0x71#32⟩), (2, ⟨0x78#32, 0x79#32, 0x7A#32, 0x7B#32⟩), (3, ⟨0x82#32, 0x83#32, 0x84#32,
      0x85#32⟩)] [(0x100#32, 7), (0x104#32, 7), (0x108#32, 7), (0x10C#32, 7), (0x110#32, 7),
      (0x114#32, 7), (0x118#32, 7), (0x11C#32, 7), (0x120#32, 7), (0x124#32, 7), (0x128#32,
      7), (0x12C#32, 7), (0x130#32, 7), (0x134#32, 7), (0x138#32, 7), (0x13C#32,
      7)]) ⟨0x1D010000#32, ⟨0x00000100#32, 0x00000110#32, 0x00000120#32,
      0x00000130#32⟩⟩ (fun t => (t.mem.readVec 0x100#32, t.mem.readVec 0x110#32,
      t.mem.readVec 0x120#32, t.mem.readVec 0x130#32)) = some (⟨0x64#32, 0x6E#32, 7, 7⟩,
      ⟨0x65#32, 0x6F#32, 7, 7⟩, ⟨0x66#32, 0x70#32, 7, 7⟩, ⟨0x67#32, 0x71#32, 7, 7⟩) := by
  decide +kernel

/-- 95_test_vectors.md 2.2. -/
theorem test_st4x3tr :
  after (start [(0, ⟨0x64#32, 0x65#32, 0x66#32, 0x67#32⟩), (1, ⟨0x6E#32, 0x6F#32, 0x70#32,
      0x71#32⟩), (2, ⟨0x78#32, 0x79#32, 0x7A#32, 0x7B#32⟩), (3, ⟨0x82#32, 0x83#32, 0x84#32,
      0x85#32⟩)] [(0x100#32, 7), (0x104#32, 7), (0x108#32, 7), (0x10C#32, 7), (0x110#32, 7),
      (0x114#32, 7), (0x118#32, 7), (0x11C#32, 7), (0x120#32, 7), (0x124#32, 7), (0x128#32,
      7), (0x12C#32, 7), (0x130#32, 7), (0x134#32, 7), (0x138#32, 7), (0x13C#32,
      7)]) ⟨0x1E012000#32, ⟨0x00000100#32, 0x00000110#32, 0x00000120#32,
      0x00000130#32⟩⟩ (fun t => (t.mem.readVec 0x100#32, t.mem.readVec 0x110#32,
      t.mem.readVec 0x120#32, t.mem.readVec 0x130#32)) = some (⟨0x64#32, 0x6E#32, 0x78#32,
      7⟩, ⟨0x65#32, 0x6F#32, 0x79#32, 7⟩, ⟨0x66#32, 0x70#32, 0x7A#32, 7⟩, ⟨0x67#32, 0x71#32,
      0x7B#32, 7⟩) := by
  decide +kernel

/-- 95_test_vectors.md 2.2. -/
theorem test_st4x4tr :
  after (start [(0, ⟨0x64#32, 0x65#32, 0x66#32, 0x67#32⟩), (1, ⟨0x6E#32, 0x6F#32, 0x70#32,
      0x71#32⟩), (2, ⟨0x78#32, 0x79#32, 0x7A#32, 0x7B#32⟩), (3, ⟨0x82#32, 0x83#32, 0x84#32,
      0x85#32⟩)] [(0x100#32, 7), (0x104#32, 7), (0x108#32, 7), (0x10C#32, 7), (0x110#32, 7),
      (0x114#32, 7), (0x118#32, 7), (0x11C#32, 7), (0x120#32, 7), (0x124#32, 7), (0x128#32,
      7), (0x12C#32, 7), (0x130#32, 7), (0x134#32, 7), (0x138#32, 7), (0x13C#32,
      7)]) ⟨0x1F012300#32, ⟨0x00000100#32, 0x00000110#32, 0x00000120#32,
      0x00000130#32⟩⟩ (fun t => (t.mem.readVec 0x100#32, t.mem.readVec 0x110#32,
      t.mem.readVec 0x120#32, t.mem.readVec 0x130#32)) = some (⟨0x64#32, 0x6E#32, 0x78#32,
      0x82#32⟩, ⟨0x65#32, 0x6F#32, 0x79#32, 0x83#32⟩, ⟨0x66#32, 0x70#32, 0x7A#32, 0x84#32⟩,
      ⟨0x67#32, 0x71#32, 0x7B#32, 0x85#32⟩) := by
  decide +kernel

/-- 95_test_vectors.md 2.3. -/
theorem test_iadd :
  after (start [(0, ⟨1, 2, 3, 4⟩), (1, ⟨0xA#32, 0x14#32, 0x1E#32,
      0x28#32⟩)] []) ⟨0x20201000#32, ⟨0, 0, 0, 0⟩⟩ (fun t => t.readReg 2) = some (⟨0xB#32,
      0x16#32, 0x21#32, 0x2C#32⟩) := by
  decide +kernel

/-- 95_test_vectors.md 2.3. -/
theorem test_isub :
  after (start [(0, ⟨1, 2, 3, 4⟩), (1, ⟨0xA#32, 0x14#32, 0x1E#32,
      0x28#32⟩)] []) ⟨0x21201000#32, ⟨0, 0, 0,
      0⟩⟩ (fun t => t.readReg 2) = some (⟨0xFFFFFFF7#32, 0xFFFFFFEE#32, 0xFFFFFFE5#32,
      0xFFFFFFDC#32⟩) := by
  decide +kernel

/-- 95_test_vectors.md 2.3. -/
theorem test_imul :
  after (start [(0, ⟨1, 2, 3, 4⟩), (1, ⟨0xA#32, 0x14#32, 0x1E#32,
      0x28#32⟩)] []) ⟨0x22201000#32, ⟨0, 0, 0, 0⟩⟩ (fun t => t.readReg 2) = some (⟨0xA#32,
      0x28#32, 0x5A#32, 0xA0#32⟩) := by
  decide +kernel

/-- 95_test_vectors.md 2.3. -/
theorem test_idiv :
  after (start [(0, ⟨7, 0xFFFFFFF9#32, 7, 0xFFFFFFF9#32⟩), (1, ⟨2, 2, 0xFFFFFFFE#32,
      0xFFFFFFFE#32⟩)] []) ⟨0x23201000#32, ⟨0, 0, 0, 0⟩⟩ (fun t => t.readReg 2) = some (⟨3,
      0xFFFFFFFD#32, 0xFFFFFFFD#32, 3⟩) := by
  decide +kernel

/-- 95_test_vectors.md 2.3. -/
theorem test_imod :
  after (start [(0, ⟨7, 0xFFFFFFF9#32, 7, 0xFFFFFFF9#32⟩), (1, ⟨2, 2, 0xFFFFFFFE#32,
      0xFFFFFFFE#32⟩)] []) ⟨0x24201000#32, ⟨0, 0, 0, 0⟩⟩ (fun t => t.readReg 2) = some (⟨1,
      0xFFFFFFFF#32, 1, 0xFFFFFFFF#32⟩) := by
  decide +kernel

/-- 95_test_vectors.md 2.3. -/
theorem test_iand :
  after (start [(0, ⟨0xFF00FF00#32, 0xFFFFFFFF#32, 0, 0x12345678#32⟩), (1, ⟨0xFF00FF0#32, 0,
      0xFFFFFFFF#32, 0xFFFF0000#32⟩)] []) ⟨0x25201000#32, ⟨0, 0, 0,
      0⟩⟩ (fun t => t.readReg 2) = some (⟨0xF000F00#32, 0, 0, 0x12340000#32⟩) := by
  decide +kernel

/-- 95_test_vectors.md 2.3. -/
theorem test_ior :
  after (start [(0, ⟨0xFF00FF00#32, 0xFFFFFFFF#32, 0, 0x12345678#32⟩), (1, ⟨0xFF00FF0#32, 0,
      0xFFFFFFFF#32, 0xFFFF0000#32⟩)] []) ⟨0x26201000#32, ⟨0, 0, 0,
      0⟩⟩ (fun t => t.readReg 2) = some (⟨0xFFF0FFF0#32, 0xFFFFFFFF#32, 0xFFFFFFFF#32,
      0xFFFF5678#32⟩) := by
  decide +kernel

/-- 95_test_vectors.md 2.3. -/
theorem test_ixor :
  after (start [(0, ⟨0xFF00FF00#32, 0xFFFFFFFF#32, 0, 0x12345678#32⟩), (1, ⟨0xFF00FF0#32, 0,
      0xFFFFFFFF#32, 0xFFFF0000#32⟩)] []) ⟨0x27201000#32, ⟨0, 0, 0,
      0⟩⟩ (fun t => t.readReg 2) = some (⟨0xF0F0F0F0#32, 0xFFFFFFFF#32, 0xFFFFFFFF#32,
      0xEDCB5678#32⟩) := by
  decide +kernel

/-- 95_test_vectors.md 2.3. -/
theorem test_inot :
  after (start [(0, ⟨0, 0xFFFFFFFF#32, 0x12345678#32, 0x80000000#32⟩)] []) ⟨0x28100000#32,
      ⟨0, 0, 0, 0⟩⟩ (fun t => t.readReg 1) = some (⟨0xFFFFFFFF#32, 0, 0xEDCBA987#32,
      0x7FFFFFFF#32⟩) := by
  decide +kernel

/-- 95_test_vectors.md 2.3. -/
theorem test_ishl :
  after (start [(0, ⟨1, 1, 1, 0xFFFFFFFF#32⟩), (1, ⟨0, 0x1F#32, 0x20#32,
      0x21#32⟩)] []) ⟨0x29201000#32, ⟨0, 0, 0, 0⟩⟩ (fun t => t.readReg 2) = some (⟨1,
      0x80000000#32, 1, 0xFFFFFFFE#32⟩) := by
  decide +kernel

/-- 95_test_vectors.md 2.3. -/
theorem test_ishr :
  after (start [(0, ⟨0x80000000#32, 0x80000000#32, 0x40000000#32, 0xFFFFFFF8#32⟩), (1,
      ⟨0x1F#32, 0x20#32, 0x1E#32, 0xFFFFFFE1#32⟩)] []) ⟨0x2A201000#32, ⟨0, 0, 0,
      0⟩⟩ (fun t => t.readReg 2) = some (⟨0xFFFFFFFF#32, 0x80000000#32, 1,
      0xFFFFFFFC#32⟩) := by
  decide +kernel

/-- 95_test_vectors.md 2.3. -/
theorem test_iabs :
  after (start [(0, ⟨0xFFFFFFFF#32, 2, 0xFFFFFFFD#32, 4⟩)] []) ⟨0x2B100000#32, ⟨0, 0, 0,
      0⟩⟩ (fun t => t.readReg 1) = some (⟨1, 2, 3, 4⟩) := by
  decide +kernel

/-- 95_test_vectors.md 2.3. -/
theorem test_ipreinc :
  after (start [(0, ⟨1, 2, 3, 0xFFFFFFFF#32⟩)] []) ⟨0x2C100000#32, ⟨0, 0, 0,
      0⟩⟩ (fun t => (t.readReg 0, t.readReg 1)) = some (⟨2, 3, 4, 0⟩, ⟨2, 3, 4, 0⟩) := by
  decide +kernel

/-- 95_test_vectors.md 2.3. -/
theorem test_ipostinc :
  after (start [(0, ⟨1, 2, 3, 0xFFFFFFFF#32⟩)] []) ⟨0x2D100000#32, ⟨0, 0, 0,
      0⟩⟩ (fun t => (t.readReg 0, t.readReg 1)) = some (⟨2, 3, 4, 0⟩, ⟨1, 2, 3,
      0xFFFFFFFF#32⟩) := by
  decide +kernel

/-- 95_test_vectors.md 2.3. -/
theorem test_ipredec :
  after (start [(0, ⟨1, 0, 0x80000000#32, 5⟩)] []) ⟨0x2E100000#32, ⟨0, 0, 0,
      0⟩⟩ (fun t => (t.readReg 0, t.readReg 1)) = some (⟨0, 0xFFFFFFFF#32, 0x7FFFFFFF#32,
      4⟩, ⟨0, 0xFFFFFFFF#32, 0x7FFFFFFF#32, 4⟩) := by
  decide +kernel

/-- 95_test_vectors.md 2.3. -/
theorem test_ipostdec :
  after (start [(0, ⟨1, 0, 0x80000000#32, 5⟩)] []) ⟨0x2F100000#32, ⟨0, 0, 0,
      0⟩⟩ (fun t => (t.readReg 0, t.readReg 1)) = some (⟨0, 0xFFFFFFFF#32, 0x7FFFFFFF#32,
      4⟩, ⟨1, 0, 0x80000000#32, 5⟩) := by
  decide +kernel

/-- 95_test_vectors.md 2.4. -/
theorem test_iclt :
  after (start [(0, ⟨1, 5, 0xFFFFFFFD#32, 7⟩), (1, ⟨2, 5, 0xFFFFFFFC#32,
      0x80000000#32⟩)] []) ⟨0x30201000#32, ⟨0, 0, 0,
      0⟩⟩ (fun t => t.readReg 2) = some (⟨0xFFFFFFFF#32, 0, 0, 0⟩) := by
  decide +kernel

/-- 95_test_vectors.md 2.4. -/
theorem test_icgt :
  after (start [(0, ⟨1, 5, 0xFFFFFFFD#32, 7⟩), (1, ⟨2, 5, 0xFFFFFFFC#32,
      0x80000000#32⟩)] []) ⟨0x31201000#32, ⟨0, 0, 0, 0⟩⟩ (fun t => t.readReg 2) = some (⟨0,
      0, 0xFFFFFFFF#32, 0xFFFFFFFF#32⟩) := by
  decide +kernel

/-- 95_test_vectors.md 2.4. -/
theorem test_iceq :
  after (start [(0, ⟨1, 5, 0xFFFFFFFD#32, 7⟩), (1, ⟨2, 5, 0xFFFFFFFC#32,
      0x80000000#32⟩)] []) ⟨0x32201000#32, ⟨0, 0, 0, 0⟩⟩ (fun t => t.readReg 2) = some (⟨0,
      0xFFFFFFFF#32, 0, 0⟩) := by
  decide +kernel

/-- 95_test_vectors.md 2.4. -/
theorem test_icne :
  after (start [(0, ⟨1, 5, 0xFFFFFFFD#32, 7⟩), (1, ⟨2, 5, 0xFFFFFFFC#32,
      0x80000000#32⟩)] []) ⟨0x33201000#32, ⟨0, 0, 0,
      0⟩⟩ (fun t => t.readReg 2) = some (⟨0xFFFFFFFF#32, 0, 0xFFFFFFFF#32,
      0xFFFFFFFF#32⟩) := by
  decide +kernel

/-- 95_test_vectors.md 2.4. -/
theorem test_icle :
  after (start [(0, ⟨1, 5, 0xFFFFFFFD#32, 7⟩), (1, ⟨2, 5, 0xFFFFFFFC#32,
      0x80000000#32⟩)] []) ⟨0x34201000#32, ⟨0, 0, 0,
      0⟩⟩ (fun t => t.readReg 2) = some (⟨0xFFFFFFFF#32, 0xFFFFFFFF#32, 0, 0⟩) := by
  decide +kernel

/-- 95_test_vectors.md 2.4. -/
theorem test_icge :
  after (start [(0, ⟨1, 5, 0xFFFFFFFD#32, 7⟩), (1, ⟨2, 5, 0xFFFFFFFC#32,
      0x80000000#32⟩)] []) ⟨0x35201000#32, ⟨0, 0, 0, 0⟩⟩ (fun t => t.readReg 2) = some (⟨0,
      0xFFFFFFFF#32, 0xFFFFFFFF#32, 0xFFFFFFFF#32⟩) := by
  decide +kernel

/-- 95_test_vectors.md 2.4. -/
theorem test_iland :
  after (start [(0, ⟨0, 0, 1, 2⟩), (1, ⟨0, 7, 0, 1⟩)] []) ⟨0x36201000#32, ⟨0, 0, 0,
      0⟩⟩ (fun t => t.readReg 2) = some (⟨0, 0, 0, 0xFFFFFFFF#32⟩) := by
  decide +kernel

/-- 95_test_vectors.md 2.4. -/
theorem test_ilor :
  after (start [(0, ⟨0, 0, 1, 2⟩), (1, ⟨0, 7, 0, 1⟩)] []) ⟨0x37201000#32, ⟨0, 0, 0,
      0⟩⟩ (fun t => t.readReg 2) = some (⟨0, 0xFFFFFFFF#32, 0xFFFFFFFF#32,
      0xFFFFFFFF#32⟩) := by
  decide +kernel

/-- 95_test_vectors.md 2.4. -/
theorem test_czero :
  after (start [(0, ⟨0xFFFFFFFF#32, 0, 0xFFFFFFFF#32, 0⟩), (1, ⟨1, 2, 3,
      4⟩)] []) ⟨0x38201000#32, ⟨0, 0, 0, 0⟩⟩ (fun t => t.readReg 2) = some (⟨0, 2, 0,
      4⟩) := by
  decide +kernel

/-- 95_test_vectors.md 2.4. -/
theorem test_notczero :
  after (start [(0, ⟨0xFFFFFFFF#32, 0, 0xFFFFFFFF#32, 0⟩), (1, ⟨1, 2, 3,
      4⟩)] []) ⟨0x39201000#32, ⟨0, 0, 0, 0⟩⟩ (fun t => t.readReg 2) = some (⟨1, 0, 3,
      0⟩) := by
  decide +kernel

/-- 95_test_vectors.md 2.4. -/
theorem test_merge :
  after (start [(0, ⟨0xFFFFFFFF#32, 0, 0xFFFFFFFF#32, 0⟩), (1, ⟨1, 2, 3, 4⟩), (2, ⟨0xA#32,
      0x14#32, 0x1E#32, 0x28#32⟩)] []) ⟨0x3A301200#32, ⟨0, 0, 0,
      0⟩⟩ (fun t => t.readReg 3) = some (⟨1, 0x14#32, 3, 0x28#32⟩) := by
  decide +kernel

/-- 95_test_vectors.md 2.5. -/
theorem test_fadd :
  after (start [(0, ⟨0x3F800000#32, 0x3F800001#32, 0x80000000#32, 0x7F7FFFFF#32⟩), (1,
      ⟨0x33800001#32, 0x33800000#32, 0x80000000#32, 0x73000000#32⟩)] []) ⟨0x40201000#32, ⟨0,
      0, 0, 0⟩⟩ (fun t => t.readReg 2) = some (⟨0x3F800001#32, 0x3F800002#32, 0x80000000#32,
      0x7F800000#32⟩) := by
  decide +kernel

/-- 95_test_vectors.md 2.5. -/
theorem test_fsub :
  after (start [(0, ⟨0x80000000#32, 0, 0x800000#32, 0xFF800000#32⟩), (1, ⟨0, 0x80000000#32,
      1, 0x7F800000#32⟩)] []) ⟨0x41201000#32, ⟨0, 0, 0,
      0⟩⟩ (fun t => t.readReg 2) = some (⟨0x80000000#32, 0, 0x7FFFFF#32,
      0xFF800000#32⟩) := by
  decide +kernel

/-- 95_test_vectors.md 2.5. -/
theorem test_fmul :
  after (start [(0, ⟨0x7F000000#32, 0x800000#32, 0x3F800800#32, 1⟩), (1, ⟨0x40800000#32,
      0x3F000000#32, 0x3F800800#32, 0x3F000000#32⟩)] []) ⟨0x42201000#32, ⟨0, 0, 0,
      0⟩⟩ (fun t => t.readReg 2) = some (⟨0x7F800000#32, 0x400000#32, 0x3F801000#32,
      0⟩) := by
  decide +kernel

/-- 95_test_vectors.md 2.5. -/
theorem test_fabs :
  after (start [(0, ⟨0xBF800000#32, 0x80000000#32, 0xFF800000#32,
      0xFFC00001#32⟩)] []) ⟨0x49100000#32, ⟨0, 0, 0,
      0⟩⟩ (fun t => t.readReg 1) = some (⟨0x3F800000#32, 0, 0x7F800000#32,
      0x7FC00001#32⟩) := by
  decide +kernel

/-- 95_test_vectors.md 2.5. -/
theorem test_fcpsgn :
  after (start [(0, ⟨0x3F800000#32, 0xC0000000#32, 0x7FC00000#32, 0⟩), (1, ⟨0x80000000#32,
      1, 0xBF800000#32, 0xFFFFFFFF#32⟩)] []) ⟨0x4A201000#32, ⟨0, 0, 0,
      0⟩⟩ (fun t => t.readReg 2) = some (⟨0xBF800000#32, 0x40000000#32, 0xFFC00000#32,
      0x80000000#32⟩) := by
  decide +kernel

/-- 95_test_vectors.md 2.5. -/
theorem test_fms :
  after (start [(0, ⟨0x40000000#32, 0x3F800800#32, 0x40000000#32, 0x7F7FFFFF#32⟩), (1,
      ⟨0x40400000#32, 0x3F800800#32, 0x40400000#32, 0x40000000#32⟩), (2, ⟨0x41200000#32,
      0x3F801000#32, 0x40C00000#32, 0x7F7FFFFF#32⟩)] []) ⟨0x4D301200#32, ⟨0, 0, 0,
      0⟩⟩ (fun t => t.readReg 3) = some (⟨0xC0800000#32, 0x33800000#32, 0,
      0x7F7FFFFF#32⟩) := by
  decide +kernel

/-- 95_test_vectors.md 2.7. -/
theorem test_fclt :
  after (start [(0, ⟨0x3F800000#32, 0x7FC00000#32, 0x80000000#32, 0x7F800000#32⟩), (1,
      ⟨0x40000000#32, 0x3F800000#32, 0, 0x7F800000#32⟩)] []) ⟨0x50201000#32, ⟨0, 0, 0,
      0⟩⟩ (fun t => t.readReg 2) = some (⟨0xFFFFFFFF#32, 0, 0, 0⟩) := by
  decide +kernel

/-- 95_test_vectors.md 2.7. -/
theorem test_fcgt :
  after (start [(0, ⟨0xFF800000#32, 1, 0xBF800000#32, 0x7FC00000#32⟩), (1, ⟨0x7F800000#32,
      0x80000001#32, 0xC0000000#32, 0x7FC00000#32⟩)] []) ⟨0x51201000#32, ⟨0, 0, 0,
      0⟩⟩ (fun t => t.readReg 2) = some (⟨0, 0xFFFFFFFF#32, 0xFFFFFFFF#32, 0⟩) := by
  decide +kernel

/-- 95_test_vectors.md 2.7. -/
theorem test_fceq :
  after (start [(0, ⟨0x3F800000#32, 0x7FC00000#32, 0x80000000#32, 0x7F800000#32⟩), (1,
      ⟨0x40000000#32, 0x3F800000#32, 0, 0x7F800000#32⟩)] []) ⟨0x52201000#32, ⟨0, 0, 0,
      0⟩⟩ (fun t => t.readReg 2) = some (⟨0, 0, 0xFFFFFFFF#32, 0xFFFFFFFF#32⟩) := by
  decide +kernel

/-- 95_test_vectors.md 2.7. -/
theorem test_fcne :
  after (start [(0, ⟨0x3F800000#32, 0x7FC00000#32, 0x80000000#32, 0x7F800000#32⟩), (1,
      ⟨0x40000000#32, 0x3F800000#32, 0, 0x7F800000#32⟩)] []) ⟨0x53201000#32, ⟨0, 0, 0,
      0⟩⟩ (fun t => t.readReg 2) = some (⟨0xFFFFFFFF#32, 0xFFFFFFFF#32, 0, 0⟩) := by
  decide +kernel

/-- 95_test_vectors.md 2.7. -/
theorem test_fcle :
  after (start [(0, ⟨0x3F800000#32, 0x7FC00000#32, 0x80000000#32, 0x7F800000#32⟩), (1,
      ⟨0x40000000#32, 0x3F800000#32, 0, 0x7F800000#32⟩)] []) ⟨0x54201000#32, ⟨0, 0, 0,
      0⟩⟩ (fun t => t.readReg 2) = some (⟨0xFFFFFFFF#32, 0, 0xFFFFFFFF#32,
      0xFFFFFFFF#32⟩) := by
  decide +kernel

/-- 95_test_vectors.md 2.7. -/
theorem test_fcge :
  after (start [(0, ⟨0x3F800000#32, 0x7FC00000#32, 0x80000000#32, 0x7F800000#32⟩), (1,
      ⟨0x40000000#32, 0x3F800000#32, 0, 0x7F800000#32⟩)] []) ⟨0x55201000#32, ⟨0, 0, 0,
      0⟩⟩ (fun t => t.readReg 2) = some (⟨0, 0, 0xFFFFFFFF#32, 0xFFFFFFFF#32⟩) := by
  decide +kernel

/-- 95_test_vectors.md 2.7. -/
theorem test_fclrb :
  after (start [(0, ⟨0x7F800000#32, 0x7F800000#32, 0x7F800000#32, 0x7F800000#32⟩), (1,
      ⟨0x40490FDB#32, 0xC0490FDB#32, 0x7F800000#32, 0x400000#32⟩)] []) ⟨0x58201000#32, ⟨0,
      0, 0, 0⟩⟩ (fun t => t.readReg 2) = some (⟨0x490FDB#32, 0x80490FDB#32, 0,
      0x400000#32⟩) := by
  decide +kernel

/-- 95_test_vectors.md 2.7. -/
theorem test_fsetb :
  after (start [(0, ⟨0x7F800000#32, 0x7F800000#32, 0x7F800000#32, 0x7F800000#32⟩), (1,
      ⟨0x40490FDB#32, 0xC0490FDB#32, 0, 0x80400000#32⟩)] []) ⟨0x59201000#32, ⟨0, 0, 0,
      0⟩⟩ (fun t => t.readReg 2) = some (⟨0x7FC90FDB#32, 0xFFC90FDB#32, 0x7F800000#32,
      0xFFC00000#32⟩) := by
  decide +kernel

/-- 95_test_vectors.md 2.7. -/
theorem test_ftglb :
  after (start [(0, ⟨0x80000000#32, 0x80000000#32, 0x80000000#32, 0x80000000#32⟩), (1,
      ⟨0xBF800000#32, 0x3F800000#32, 0x80000000#32, 0x7FC00000#32⟩)] []) ⟨0x5A201000#32, ⟨0,
      0, 0, 0⟩⟩ (fun t => t.readReg 2) = some (⟨0x3F800000#32, 0xBF800000#32, 0,
      0xFFC00000#32⟩) := by
  decide +kernel
/-! ## One step, special cases -/

/-- 44_float_arith.md R222: the fused result 2^-24 where separate rounding gives 0. -/
theorem test_fma :
    after (start [(0, .splat 0x3F800800#32), (1, .splat 0x3F800800#32), (2, .splat 0xBF801000#32)] [])
      ⟨0x4B301200#32, .splat 0⟩ (fun t => t.readReg 3) = some (.splat 0x33800000#32) := by
  decide +kernel

/-- 44_float_arith.md R223: 10 - 2 * 3. -/
theorem test_fnms :
    after (start [(0, .splat 0x40000000#32), (1, .splat 0x40400000#32), (2, .splat 0x41200000#32)] [])
      ⟨0x4C301200#32, .splat 0⟩ (fun t => t.readReg 3) = some (.splat 0x40800000#32) := by
  decide +kernel

/-- 45_float_newton.md R241: the estimates at the zeros and infinities. -/
theorem test_frcpa :
    after (start [(0, ⟨0x00000000#32, 0x80000000#32, 0x7F800000#32, 0xFF800000#32⟩)] [])
      ⟨0x44100000#32, .splat 0⟩ (fun t => t.readReg 1) =
      some ⟨0x7F800000#32, 0xFF800000#32, 0x00000000#32, 0x80000000#32⟩ := by decide +kernel

/-- 45_float_newton.md R241. -/
theorem test_frsqrta :
    after (start [(0, ⟨0x00000000#32, 0x80000000#32, 0x7F800000#32, 0x00000000#32⟩)] [])
      ⟨0x46100000#32, .splat 0⟩ (fun t => t.readReg 1) =
      some ⟨0x7F800000#32, 0xFF800000#32, 0x00000000#32, 0x7F800000#32⟩ := by decide +kernel

/-- 45_float_newton.md R236, R243: the reference estimate and the refinements of 1/3. -/
theorem test_frcp_of_three :
    rcpEstRef 0x40400000#32 = 0x3EAAA800#32 ∧ nrRcp 0x40400000#32 0x3EAAA800#32 = 0x3EAAAAAB#32 ∧
      refineRcp 0x40400000#32 0x3EAAA800#32 = 0x3EAAAAAB#32 := by decide +kernel

/-- 45_float_newton.md R239: 7/3 in the last place above the correctly rounded quotient. -/
theorem test_fdiv_of_seven_thirds :
    fmul 0x40E00000#32 (refineRcp 0x40400000#32 (rcpEstRef 0x40400000#32)) = 0x40155556#32 := by
  decide +kernel

/-- 45_float_newton.md R238, R240: 1/sqrt 2 and sqrt 2. -/
theorem test_frsqrt_of_two :
    rsqrtEstRef 0x40000000#32 = 0x3F350000#32 ∧
      refineRsqrt 0x40000000#32 0x3F350000#32 = 0x3F3504F3#32 ∧
      fmul 0x40000000#32 (refineRsqrt 0x40000000#32 0x3F350000#32) = 0x3FB504F3#32 := by
  decide +kernel

/-- 45_float_newton.md R241: FRCP, FDIV, FRSQRT and FSQRT of zero. -/
theorem test_pole_at_zero :
    rcpLane 0 = canonNaN ∧ fdivLane 0x3F800000#32 0 = canonNaN ∧ rsqrtLane 0 = canonNaN ∧
      fsqrtLane 0 = canonNaN := by
  have h : isNaN canonNaN = true := isNaN_canonNaN
  have m : ∀ x, fmul x canonNaN = canonNaN := fun x => by simp [fmul, h]
  have m' : ∀ x, fmul canonNaN x = canonNaN := fun x => by simp [fmul, h]
  have a : ∀ x, fsub x canonNaN = canonNaN := fun x => by
    have hn : isNaN (neg canonNaN) = true := isNaN_neg_canonNaN
    simp [fsub, fadd, hn]
  have r0 : nrRcp 0 (rcpEst 0) = canonNaN := by
    show fmul (rcpEst 0) (fsub fTwo (fmul 0 (rcpEst 0))) = canonNaN
    rw [show fmul 0 (rcpEst 0) = canonNaN from rfl, a, m]
  have q0 : nrRsq 0 (rsqrtEst 0) = canonNaN := by
    show fmul _ (fsub fThree (fmul 0 (fmul (rsqrtEst 0) (rsqrtEst 0)))) = canonNaN
    rw [show fmul 0 (fmul (rsqrtEst 0) (rsqrtEst 0)) = canonNaN from rfl, a, m]
  simp only [rcpLane, refineRcp, fdivLane, rsqrtLane, refineRsqrt, fsqrtLane, r0, q0]
  simp [nrRcp, nrRsq, m, m', a]

/-- 44_float_arith.md R217, the last lane: infinity minus infinity. -/
theorem test_fadd_invalid : fadd 0x7F800000#32 0xFF800000#32 = canonNaN := rfl

/-- 60_exceptions.md section 7, example 3: `v2` is unchanged. -/
theorem test_misaligned_vld :
    after (start [(2, ⟨1, 2, 3, 4⟩)] []) ⟨0x10200000#32, ⟨0x00001004#32, 0, 0, 0⟩⟩
      (fun t => (t.fsr, t.finfo, t.readReg 2)) =
      some (0x00000005#32, 0x00001004#32, ⟨1, 2, 3, 4⟩) := by decide +kernel

/-- 60_exceptions.md section 7, example 4. -/
theorem test_divzero :
    after (start [(0, .splat 6), (1, ⟨2, 0, 5, 0⟩), (2, .splat 9)] []) ⟨0x23201000#32, .splat 0⟩
      (fun t => (t.fsr, t.finfo, t.readReg 2)) =
      some (0x00000007#32, 0x0000000A#32, .splat 9) := by decide +kernel

/-- 60_exceptions.md section 7, example 5: the first misaligned pointer is `X[1]`. -/
theorem test_misaligned_second_pointer :
    after (start [] []) ⟨0x19010000#32, ⟨0x1000#32, 0x1004#32, 0x1008#32, 0x100C#32⟩⟩
      (fun t => (t.fsr, t.finfo)) = some (0x00000005#32, 0x00001004#32) := by decide +kernel

/-- 60_exceptions.md section 7, example 6: ILLEGAL wins over misaligned pointers. -/
theorem test_illegal_wins :
    after (start [] []) ⟨0x1B010200#32, .splat 1⟩ (fun t => (t.fsr, t.finfo)) =
      some (0x00000003#32, 0x1B010200#32) := by decide +kernel

/-- 20_memory.md R50: an unaligned access of LD4X1TR that wraps past the top of memory. -/
theorem test_ld4x1tr_wraps :
    after (start [] [(0xFFFFFFFC#32, 0x44332211#32), (0#32, 0x88776655#32)])
      ⟨0x18000000#32, .splat 0xFFFFFFFE#32⟩ (fun t => t.readReg 0) =
      some (.splat 0x66554433#32) := by decide +kernel

/-- 42_integer_arith.md R168: zero of a written register, the two reads of an unwritten one apart. -/
theorem test_ixor_written :
    after (start [(0, ⟨1, 2, 3, 4⟩)] []) ⟨0x27100000#32, .splat 0⟩ (fun t => t.readReg 1) =
      some (.splat 0) := by decide +kernel
theorem test_ixor_unwritten :
    after (start [] []) ⟨0x27100000#32, .splat 0⟩ (fun t => (t.readReg 1).lane 2) =
      some (Config.unwrittenLane 0 0 2 ^^^ Config.unwrittenLane 0 1 2) := rfl

/-- 10_state.md R34: what the port carries for LD4X1TR and ST4X3TR. -/
theorem test_port_read_data :
    ((start [] [(0x100#32, 0x44332211#32)]).portTransfers
      (.ld4x1tr 0 (.splat 0x100#32))).map (·.data) =
      .replicate 4 [0x11, 0x22, 0x33, 0x44] := by decide +kernel
theorem test_port_write_data :
    (start [(0, .splat 0x04030201#32), (1, .splat 0x08070605#32), (2, .splat 0x0C0B0A09#32)]
      []).portTransfers (.st4x3tr 0 1 2 ⟨0x100, 0x110, 0x120, 0x130⟩) =
      [0x100, 0x110, 0x120, 0x130].flatMap fun p =>
        [⟨⟨true, p, 8, false⟩, [1, 2, 3, 4, 5, 6, 7, 8]⟩, ⟨⟨true, p + 8, 4, false⟩, [9, 10, 11, 12]⟩] := by
  decide +kernel

/-- 70_reset_and_hazards.md R313 (e): a zero or subnormal numerator of FDIV is outside. -/
theorem test_fdiv_operands :
    (start [(0, .splat 0x3F800000#32), (1, .splat 0x40400000#32)] []).accurateOperands (.fdiv 2 0 1) =
      true ∧
    (start [(0, .splat 0), (1, .splat 0x40400000#32)] []).accurateOperands (.fdiv 2 0 1) = false ∧
    (start [(0, .splat 1), (1, .splat 0x40400000#32)] []).accurateOperands (.fdiv 2 0 1) = false := by
  decide +kernel

/-- 40_vector_base.md R114: the permutation table of selector #(3,2,1,0). -/
theorem test_permutation_table :
    (List.finRange 16).map (permutationTable 0x1B) =
      [12, 13, 14, 15, 8, 9, 10, 11, 4, 5, 6, 7, 0, 1, 2, 3] := by decide

/-- 30_encoding.md R90: the examples of the textual form. -/
theorem test_assemble_iadd :
    assembleLine "IADD v2, v0, v1 ; add".toList = some ⟨0x20201000#32, .splat 0⟩ := by decide +kernel
theorem test_assemble_vshuf :
    assembleLine "VSHUF v1, v0, #(3,2,1,0)".toList = some ⟨0x0410001B#32, .splat 0⟩ := by
  decide +kernel
/-- 30_encoding.md R91: a pseudo-instruction. -/
theorem test_assemble_iinc :
    assembleLine "IINC v4".toList = some ⟨0x2C440000#32, .splat 0⟩ := by decide +kernel
/-- The decimal literal of R90, nearest binary32: 0.1 and 1e39. -/
theorem test_assemble_float :
    wordLiteral "0.1f".toList = some 0x3DCCCCCD#32 ∧ wordLiteral "1e39f".toList = some 0x7F800000#32 := by
  decide +kernel

/-! ## Witnesses: for each statement with hypotheses, a state and operands that meet them -/

/-- The reset state with these inputs waiting. -/
def waiting (inputs : List HostInput) : State := { State.reset with inputs := inputs }

/-- The reset state after an ILLEGAL fault, with these inputs waiting. -/
def faultedWith (inputs : List HostInput) : State := (waiting inputs).raiseFault .illegal 0

/-- Four structures of 16 bytes. -/
def rowPointers : Quad Word := ⟨0x100, 0x110, 0x120, 0x130⟩

theorem witness_DecodeEncodeAgree :
    (Instr.vtrn 15 0 7 8).wellFormed = true ∧ (Instr.lset 15 3 0xFFFFFFFF#32).wellFormed = true := by
  decide

theorem witness_EncodeDecodeAgree :
    decode ⟨0x0BF00003#32, .splat 0xFFFFFFFF#32⟩ = .ok (.lset 15 3 0xFFFFFFFF#32) := by decide

theorem witness_UnusedOperandWordsIgnored :
    (∀ j : Fin 4, j.val < operandWordsUsed (opcodeOf 0x13000000#32) →
      (⟨1, 2, 3, 4⟩ : Quad Word).lane j = (⟨1, 2, 0, 0⟩ : Quad Word).lane j) ∧
    (∀ j : Fin 4, j.val < operandWordsUsed (opcodeOf 0x10200000#32) →
      (⟨1, 2, 3, 4⟩ : Quad Word).lane j = (⟨1, 0, 0, 0⟩ : Quad Word).lane j) := by decide

theorem witness_UnassignedOpcodesIllegal :
    ([0x00, 0x0C, 0x0F, 0x3B, 0x3F, 0x4E, 0x4F, 0x56, 0x57, 0x5B, 0x5F, 0x60, 0xFF].all fun op =>
      unassignedOpcode ((BitVec.ofNat 32 (op * 2 ^ 24)).toNat / 2 ^ 24)) = true ∧
    ([0x01, 0x0B, 0x10, 0x3A, 0x40, 0x4D, 0x50, 0x55, 0x58, 0x5A].all fun op =>
      !unassignedOpcode op) = true ∧ State.reset.faulted = false := by decide

theorem witness_ReservedBitsIllegal :
    (∃ make, opcodeRow ((0x13800000#32).toNat / 2 ^ 24) = some (.z, make) ∧
      0x13800000#32 &&& reservedMask .z ≠ 0) ∧
    (∃ make, opcodeRow ((0x01080000#32).toNat / 2 ^ 24) = some (.r1, make) ∧
      0x01080000#32 &&& reservedMask .r1 ≠ 0) ∧
    (∃ make, opcodeRow ((0x05008000#32).toNat / 2 ^ 24) = some (.r2, make) ∧
      0x05008000#32 &&& reservedMask .r2 ≠ 0) ∧
    (∃ make, opcodeRow ((0x20000800#32).toNat / 2 ^ 24) = some (.r3, make) ∧
      0x20000800#32 &&& reservedMask .r3 ≠ 0) ∧
    (∃ make, opcodeRow ((0x06000080#32).toNat / 2 ^ 24) = some (.r4, make) ∧
      0x06000080#32 &&& reservedMask .r4 ≠ 0) ∧
    (∃ make, opcodeRow ((0x0A000004#32).toNat / 2 ^ 24) = some (.r1i, make) ∧
      0x0A000004#32 &&& reservedMask .r1i ≠ 0) ∧
    (∃ make, opcodeRow ((0x03000004#32).toNat / 2 ^ 24) = some (.r2i2, make) ∧
      0x03000004#32 &&& reservedMask .r2i2 ≠ 0) ∧
    (∃ make, opcodeRow ((0x04000100#32).toNat / 2 ^ 24) = some (.r2i8, make) ∧
      0x04000100#32 &&& reservedMask .r2i8 ≠ 0) :=
  ⟨⟨_, rfl, by decide⟩, ⟨_, rfl, by decide⟩, ⟨_, rfl, by decide⟩, ⟨_, rfl, by decide⟩,
    ⟨_, rfl, by decide⟩, ⟨_, rfl, by decide⟩, ⟨_, rfl, by decide⟩, ⟨_, rfl, by decide⟩⟩

theorem witness_ReservedRegistersIllegal :
    State.reset.faulted = false ∧ ¬ [(0 : Reg), 1, 2, 0].Nodup ∧ ¬ [(3 : Reg), 4, 3].Nodup ∧
    (5 : Reg) = 5 ∧ [(0 : Reg), 1, 2, 15].Nodup ∧ [(0 : Reg), 1, 15].Nodup ∧ (0 : Reg) ≠ 15 ∧
    (Instr.vswap 1 1).opcode ∉ [0x06, 0x19, 0x1A, 0x1B, 0x2D, 0x2F] := by decide

theorem witness_IllegalRecordsCommandWord :
    legalWord 0x00000000#32 = false ∧ legalWord 0x20201001#32 = false ∧
    legalWord 0x1B010200#32 = false ∧ legalWord 0x20201000#32 = true ∧
    State.reset.faulted = false := by decide

theorem witness_StepRunsDecodedInstruction :
    (waiting [.beat ⟨0x07500000#32, .splat 0⟩]).inputs = .beat ⟨0x07500000#32, .splat 0⟩ :: [] ∧
    (waiting [.beat ⟨0x07500000#32, .splat 0⟩]).faulted = false ∧
    decode ⟨0x07500000#32, .splat 0⟩ = .ok (.vmov 5 0) := by decide

theorem witness_FaultEntryIsWholeChange :
    (waiting [.beat ⟨0#32, .splat 0⟩]).faulted = false ∧
    step (waiting [.beat ⟨0#32, .splat 0⟩]) = .next { faultedWith [] with taken := 1 } ∧
    (faultedWith []).faulted = true := ⟨by decide, rfl, by decide⟩

theorem witness_FaultedStateDiscardsBeats :
    (faultedWith ([⟨0x09000000#32, .splat 1⟩, ⟨0#32, .splat 0⟩].map .beat)).faulted = true ∧
    (faultedWith [.reset]).faulted = true ∧
    step (faultedWith [.reset]) = .next { State.reset with taken := 1 } ∧
    State.reset.faulted = false := ⟨by decide, by decide, rfl, by decide⟩

theorem witness_FaultsExactlyInPriorityOrder :
    State.reset.faulted = false ∧ decode ⟨0#32, .splat 0⟩ = .error .unassignedOpcode ∧
    decode ⟨0x10200000#32, ⟨0x1008#32, 0, 0, 0⟩⟩ = .ok (.vld 2 0x1008#32) ∧
    firstMisaligned (Instr.vld 2 0x1008#32).alignment (Instr.vld 2 0x1008#32).pointers =
      some 0x1008#32 ∧
    firstMisaligned (Instr.idiv 2 0 1).alignment (Instr.idiv 2 0 1).pointers = none ∧
    (Instr.idiv 2 0 1).divisor = some 1 ∧
    (∃ k, ((start [(1, ⟨2, 0, 5, 0⟩)] []).operand 1 1).lane k = 0) ∧
    (∀ k, ((start [(1, .splat 5)] []).operand 1 1).lane k ≠ 0) ∧
    (Instr.idiv 2 0 1).divisor ≠ none := by decide

theorem witness_MisalignedPointerFaults :
    firstMisaligned 16 [0x1008#32] = some 0x1008#32 ∧ firstMisaligned 16 [0x10#32, 0x1F#32] = some 0x1F#32 ∧
    firstMisaligned 8 (⟨8, 0x10, 0xC, 1⟩ : Quad Word).toList = some 0xC#32 ∧
    firstMisaligned 16 (⟨0, 0x10, 0x20, 0xFFFFFFF8#32⟩ : Quad Word).toList = some 0xFFFFFFF8#32 := by
  decide

theorem witness_ResetInputEffect :
    (waiting [.reset, .beat ⟨0x07500000#32, .splat 0⟩]).inputs =
      .reset :: [.beat ⟨0x07500000#32, .splat 0⟩] ∧
    (faultedWith [.reset]).inputs = .reset :: [] ∧
    decode ⟨0x07500000#32, .splat 0⟩ = .ok (.vmov 5 0) := by decide

theorem witness_InvariantKeptByEveryStep :
    State.reset.Inv ∧ step State.reset = .next State.reset ∧
    (faultedWith [.reset]).Inv ∧
    step (faultedWith [.reset]) = .next { State.reset with taken := 1 } ∧
    (waiting [.beat ⟨0#32, .splat 0⟩]).Inv ∧
    step (waiting [.beat ⟨0#32, .splat 0⟩]) = .next { faultedWith [] with taken := 1 } :=
  ⟨⟨rfl, .inl ⟨rfl, rfl⟩⟩, rfl, ⟨rfl, .inr (.inl ⟨rfl, by decide⟩)⟩, rfl,
    ⟨rfl, .inl ⟨rfl, rfl⟩⟩, rfl⟩

theorem witness_InvariantHoldsAtReset : Memory.wf [(0, 1), (0xFFFFFFFF, 2)] = true := by decide

theorem witness_OnlyDestinationsWritten :
    exec (.vmov 5 0) State.reset = .next (State.reset.writeReg 5 (State.reset.operand 0 0)) ∧
    (0 : Reg) ∉ (Instr.vmov 5 0).dests ∧
    exec (.lset 4 3 7) State.reset = .next (State.reset.writeLane 4 3 7) ∧ (0 : Fin 4) ≠ 3 :=
  ⟨rfl, by decide, rfl, by decide⟩

theorem witness_FlagsWrittenAndReadAsStated :
    (∃ t, exec (.vany 0) (start [(0, .splat 1)] []) = .next t ∧
      t.cf ≠ (start [(0, .splat 1)] []).cf) ∧
    ∃ t, exec (.lget 0 3) (start [(0, .splat 1)] []) = .next t ∧
      t.xr ≠ (start [(0, .splat 1)] []).xr :=
  ⟨⟨_, rfl, by decide⟩, ⟨_, rfl, by decide⟩⟩

theorem witness_StoresOnlyWhereWriteAccessesCover :
    (∃ t, exec (.vst 0 0x2000#32) State.reset = .next t) ∧
    State.reset.faultOf (.vst 0 0x2000#32) = none ∧
    mayStore (.vst 0 0x2000#32) 0x2010#32 = false ∧ mayStore (.vst 0 0x2000#32) 0x1FFF#32 = false ∧
    mayStore (.vst 0 0x2000#32) 0x200F#32 = true ∧
    mayStore (.st4x3tr 0 1 2 rowPointers) 0x10C#32 = false ∧
    (∃ x ∈ State.reset.portTransfers (.vld 2 0x1000#32), x.access.write = false ∧ 15 < x.access.size) ∧
    ∃ x ∈ State.reset.portTransfers (.st4x3tr 0 1 2 rowPointers), x.access.write = true :=
  ⟨⟨_, rfl⟩, by decide, by decide, by decide, by decide, by decide,
    ⟨_, List.mem_singleton.mpr rfl, rfl, by decide⟩, ⟨_, List.mem_cons_self, rfl⟩⟩

theorem witness_MemoryPortAccesses :
    (waiting [.beat ⟨0x10200000#32, .splat 0x1000#32⟩]).faulted = false ∧
    decode ⟨0x10200000#32, .splat 0x1000#32⟩ = .ok (.vld 2 0x1000#32) ∧
    ((waiting [.beat ⟨0x10200000#32, .splat 0x1000#32⟩]).takeInput []).faultOf (.vld 2 0x1000#32) =
      none ∧
    (Instr.iadd 0 1 2).opcode ∉ [0x10, 0x11, 0x12, 0x13, 0x14, 0x15, 0x16, 0x17, 0x18, 0x19, 0x1A,
      0x1B, 0x1C, 0x1D, 0x1E, 0x1F] := by decide

theorem witness_DefinedResultsIgnoreUnwritten :
    ((start [(0, ⟨1, 2, 3, 4⟩)] []).marks 0).lane 3 = true ∧
    (start [(0, ⟨1, 2, 3, 4⟩)] []).agreeOnWritten
      { (start [(0, ⟨1, 2, 3, 4⟩)] []).putReg 5 ⟨.splat 9, .splat false⟩ with taken := 7 } ∧
    (start [(0, ⟨1, 2, 3, 4⟩)] []).readsWritten (.vmov 1 0) = true ∧ writesDisjoint (.vmov 1 0) ∧
    (∃ s', exec (.vmov 1 0) (start [(0, ⟨1, 2, 3, 4⟩)] []) = .next s') ∧
    ∃ s', step (start [(0, ⟨1, 2, 3, 4⟩)] []) = .next s' := by
  refine ⟨by decide, ?_, by decide, trivial, ⟨_, rfl⟩, ⟨_, rfl⟩⟩
  unfold State.agreeOnWritten VReg.agree
  decide +kernel

theorem witness_RegisterExchangeRows :
    [(3 : Reg), 1, 0, 2].Nodup ∧ ((start [(5, .splat 1)] []).marks 5).lane 3 = true := by decide

theorem witness_BitwiseRows : ((start [(5, .splat 1)] []).marks 5).lane 0 = true := by decide

theorem witness_VldLoadsVector :
    (0x1000#32).toNat % 16 = 0 ∧ (0xFFFFFFF0#32).toNat % 16 = 0 := by decide

theorem witness_VstVstsStoreVector :
    (0x2000#32).toNat % 16 = 0 ∧ (0xFFFFFFF0#32).toNat % 16 = 0 := by decide

theorem witness_BlockCopyAndSwapRows :
    allAligned 16 [0x3010#32, 0x3000#32] ∧ allAligned 16 [0x3000#32, 0x3000#32] ∧
    (0x3000#32 : Word) = 0x3000#32 := by simp [allAligned]

theorem witness_TransposedLoads :
    [(0 : Reg), 1].Nodup ∧ allAligned 8 (⟨0x108, 0x118, 0x128, 0xFFFFFFF8⟩ : Quad Word).toList ∧
    [(0 : Reg), 1, 15].Nodup ∧ allAligned 16 rowPointers.toList := by
  simp [allAligned, Quad.toList, rowPointers]

theorem witness_LoadedLaneMarks :
    (0xFFFFFFF0#32).toNat % 16 = 0 ∧ [(0 : Reg), 1].Nodup ∧ [(0 : Reg), 1, 15].Nodup ∧
    [(0 : Reg), 1, 2, 15].Nodup ∧
    allAligned 8 (⟨0x108, 0x118, 0x128, 0xFFFFFFF8⟩ : Quad Word).toList ∧
    allAligned 16 rowPointers.toList := by
  simp [allAligned, Quad.toList, rowPointers]

theorem witness_TransposedStores :
    pointersDisjoint 4 ⟨0xFFFFFFFE#32, 2, 6, 10⟩ ∧ pointersDisjoint 8 ⟨0x100, 0x108, 0x118, 0x110⟩ ∧
    allAligned 8 (⟨0x100, 0x108, 0x118, 0x110⟩ : Quad Word).toList ∧
    pointersDisjoint 12 rowPointers ∧ pointersDisjoint 16 rowPointers ∧
    allAligned 16 rowPointers.toList := by
  refine ⟨?_, ?_, by simp [allAligned, Quad.toList], ?_, ?_,
    by simp [allAligned, Quad.toList, rowPointers]⟩ <;>
  · unfold pointersDisjoint; decide +kernel

theorem witness_OverlappingStoresKeepOneWrite :
    inStructures 4 (.splat 0x101#32) 0x104#32 = true ∧ allAligned 8 (Quad.splat 0x108#32).toList ∧
    inStructures 8 (.splat 0x108#32) 0x10F#32 = true ∧ allAligned 16 (Quad.splat 0x100#32).toList ∧
    inStructures 12 (.splat 0x100#32) 0x10B#32 = true ∧
    inStructures 16 (.splat 0x100#32) 0x10F#32 = true :=
  ⟨by decide, by simp [allAligned, Quad.toList, Quad.splat], by decide,
    by simp [allAligned, Quad.toList, Quad.splat], by decide, by decide⟩

theorem witness_TransposedRoundTrip :
    pointersDisjoint 4 ⟨0xFFFFFFFE#32, 2, 6, 10⟩ ∧ pointersDisjoint 8 rowPointers ∧
    allAligned 8 rowPointers.toList ∧ [(4 : Reg), 5].Nodup ∧ pointersDisjoint 12 rowPointers ∧
    allAligned 16 rowPointers.toList ∧ [(4 : Reg), 5, 6].Nodup ∧ pointersDisjoint 16 rowPointers ∧
    [(4 : Reg), 5, 6, 7].Nodup := by
  refine ⟨?_, ?_, by simp [allAligned, Quad.toList, rowPointers], by decide, ?_,
    by simp [allAligned, Quad.toList, rowPointers], by decide, ?_, by decide⟩ <;>
  · unfold pointersDisjoint; decide +kernel

theorem witness_LoadTransposeIsLoadsThenVtrn :
    [(0 : Reg), 1, 2, 3].Nodup ∧ allAligned 16 rowPointers.toList ∧
    allAligned 16 (Quad.splat 0x100#32).toList ∧
    ∀ p k : Fin 4, (start [] [(0x100#32, 1), (0x104#32, 2), (0x108#32, 3), (0x10C#32, 4)]).mem.defined
      (elementAddr ((Quad.splat 0x100#32).lane p) k) := by
  refine ⟨by decide, ?_, ?_, ?_⟩
  · simp [allAligned, Quad.toList, rowPointers]
  · simp [allAligned, Quad.toList, Quad.splat]
  · unfold Memory.defined
    decide +kernel

theorem witness_WrapAroundLaws :
    (-2 ^ 31 : Int) ≤ -2 ^ 31 ∧ (-2 ^ 31 : Int) < 2 ^ 31 ∧ (-2 ^ 31 : Int) ≤ 2 ^ 31 - 1 ∧
    (2 ^ 31 - 1 : Int) < 2 ^ 31 := by decide

theorem witness_DivisionRows :
    (∃ k, ((start [(1, ⟨2, 0, 5, 0⟩)] []).operand 1 1).lane k = 0) ∧
    (∀ k, ((start [(1, ⟨2, 1, 5, 0xFFFFFFFF#32⟩)] []).operand 1 1).lane k ≠ 0) := by decide

theorem witness_DivisionLaws :
    (∃ k, ((start [(1, ⟨2, 0, 5, 0⟩)] []).operand 1 1).lane k = 0) ∧
    (∀ k, ((start [(1, ⟨2, 1, 5, 0xFFFFFFFF#32⟩)] []).operand 1 1).lane k ≠ 0) ∧
    (0xFFFFFFFF#32 ≠ 0 ∧ (0x80000000#32 : Word) = 0x80000000#32) ∧
    ¬ ((7#32 : Word) = 0x80000000#32 ∧ (2#32 : Word) = 0xFFFFFFFF#32) ∧
    (modLane 7 2).toInt > 0 ∧ (modLane 0xFFFFFFF9#32 2).toInt < 0 := by decide

theorem witness_IncrementDecrementRows : (1 : Reg) ≠ 0 := by decide

theorem witness_ComparisonsGiveMasks :
    (∃ t, exec (.iclt 2 0 1) State.reset = .next t) ∧
    Vec.isMask ((start [(0, ⟨ALL1, ALL0, ALL1, ALL0⟩)] []).operand 0 0) = true ∧
    Vec.isMask ((start [(0, ⟨ALL1, ALL0, ALL1, ALL0⟩)] []).operand 1 0) = true ∧
    ∃ t, exec (.ixor 2 0 0) (start [(0, ⟨ALL1, ALL0, ALL1, ALL0⟩)] []) = .next t :=
  ⟨⟨_, rfl⟩, by decide, by decide, ⟨_, rfl⟩⟩

theorem witness_MaskSelectRows :
    ((start [(0, ⟨ALL1, ALL0, 5, 6⟩)] []).operand 0 0).lane 0 = ALL1 ∧
    ((start [(0, ⟨ALL1, ALL0, 5, 6⟩)] []).operand 0 0).lane 1 = ALL0 ∧
    ∀ k, ((start [(0, ⟨ALL1, ALL0, 5, 6⟩)] []).marks 0).lane k = true := by decide

theorem witness_RoundingIsNearestEven : (-1 : Int) ≠ 0 ∧ 0 < 2 ^ 149 := by decide

theorem witness_FaddFsubAreIeee :
    isNaN 0x7F800001#32 = true ∧ isInf 0x7F800000#32 = true ∧ isInf 0xFF800000#32 = true ∧
    isFinite 0x7F7FFFFF#32 = true ∧ isFinite 0x00000001#32 = true ∧ isZero 0x80000000#32 = true ∧
    isZero 0x00000001#32 = false ∧
    ¬ (isZero 0x80000000#32 = true ∧ isZero 0x00000001#32 = true) := by decide

theorem witness_FmulIsIeee :
    isNaN 0xFFFFFFFF#32 = true ∧ (isZero 0#32 = true ∧ isInf 0xFF800000#32 = true) ∧
    (isInf 0x7F800000#32 = true ∧ isFinite 0x00000001#32 = true ∧ isZero 0x00000001#32 = false) ∧
    (isZero 0x80000000#32 = true ∧ isFinite 0x7F7FFFFF#32 = true) ∧
    isZero 0x7F7FFFFF#32 = false := by decide

theorem witness_FfmaRoundsOnce :
    isNaN 0x7FC00000#32 = true ∧ (isZero 0#32 = true ∧ isInf 0xFF800000#32 = true) ∧
    (isInf 0x7F800000#32 = true ∧ isFinite 1#32 = true ∧ isZero 1#32 = false ∧ isNaN 0#32 = false) ∧
    (isFinite 0#32 = true ∧ isZero 0#32 = true ∧ isZero 0x80000000#32 = true) ∧
    isFinite 0x7F7FFFFF#32 = true ∧ isZero 0x7F7FFFFF#32 = false := by decide

theorem witness_NanResultsAreCanonical :
    isNaN 0x7F800001#32 = true ∧ isNaN (fadd 0x7F800000#32 0xFF800000#32) = true ∧
    isNaN (fsub 0x7F800000#32 0x7F800000#32) = true ∧
    isNaN (fmul 0#32 0x7F800000#32) = true ∧ isNaN (ffma 0#32 0x7F800000#32 0#32) = true :=
  ⟨by decide, isNaN_canonNaN, isNaN_canonNaN, isNaN_canonNaN, isNaN_canonNaN⟩

theorem witness_FmulThroughFusedUnit :
    (isFinite 0x80000000#32 = true ∧ isFinite 1#32 = true ∧ isZero 0x80000000#32 = true ∧
      signBit 0x80000000#32 ≠ signBit 1#32) ∧
    ¬ (isFinite 0x7F800000#32 = true ∧ isFinite 1#32 = true ∧
      (isZero 0x7F800000#32 = true ∨ isZero 1#32 = true) ∧
      signBit 0x7F800000#32 ≠ signBit 1#32) := by decide

theorem witness_ReciprocalEstimatorAdmissible :
    isNaN 0x7FC00000#32 = true ∧
    (isFinite 0x00800000#32 = true ∧ (2 : ℚ) ^ (-126 : ℤ) ≤ |ratValue 0x00800000#32| ∧
      |ratValue 0x00800000#32| ≤ 2 ^ 126) ∧
    (isFinite 0x7E800000#32 = true ∧ (2 : ℚ) ^ (-126 : ℤ) ≤ |ratValue 0x7E800000#32| ∧
      |ratValue 0x7E800000#32| ≤ 2 ^ 126) ∧
    (isFinite 0x00000001#32 = true ∧ isZero 0x00000001#32 = false) := by
  have a : ratValue 0x00800000#32 = (2 : ℚ) ^ (-126 : ℤ) := by
    rw [ratValue, show signBit 0x00800000#32 = false from rfl, show expo 0x00800000#32 = 1#8 from rfl,
      show frac 0x00800000#32 = 0#23 from rfl,
      if_neg (by decide), if_neg (by decide)]
    norm_num
  have b : ratValue 0x7E800000#32 = 2 ^ 126 := by
    rw [ratValue, show signBit 0x7E800000#32 = false from rfl,
      show expo 0x7E800000#32 = 253#8 from rfl, show frac 0x7E800000#32 = 0#23 from rfl,
      if_neg (by decide), if_neg (by decide)]
    norm_num
  rw [a, b]
  refine ⟨by decide, ⟨by decide, ?_, ?_⟩, ⟨by decide, ?_, ?_⟩, by decide⟩ <;> norm_num

theorem witness_RsqrtEstimatorAdmissible :
    isNaN 0x7FC00000#32 = true ∧
    (isNaN 0xFF800000#32 = false ∧ isZero 0xFF800000#32 = false ∧ signBit 0xFF800000#32 = true) ∧
    (isFinite 0x00800000#32 = true ∧ signBit 0x00800000#32 = false ∧ expo 0x00800000#32 ≠ 0) ∧
    (isFinite 0x7F7FFFFF#32 = true ∧ signBit 0x7F7FFFFF#32 = false ∧ expo 0x7F7FFFFF#32 ≠ 0) ∧
    (expo 0x007FFFFF#32 = 0 ∧ signBit 0x007FFFFF#32 = false ∧ isZero 0x007FFFFF#32 = false) := by
  decide

theorem witness_PolesOfRefinedFamily :
    let s := start [(0, ⟨0x00000000#32, 0x80000000#32, 0x7F800000#32, 0xFF800000#32⟩),
      (1, ⟨0x7FC00000#32, 0xBF800000#32, 0x80000001#32, 0xFF7FFFFF#32⟩)] []
    (s.operand 0 0).lane 0 = 0x00000000#32 ∧ (s.operand 0 0).lane 1 = 0x80000000#32 ∧
    (s.operand 0 0).lane 2 = 0x7F800000#32 ∧ (s.operand 0 0).lane 3 = 0xFF800000#32 ∧
    isNaN ((s.operand 0 1).lane 0) = true ∧ isZero ((s.operand 0 0).lane 1) = true ∧
    isInf ((s.operand 1 0).lane 3) = true ∧ isNaN ((s.operand 1 1).lane 0) = true ∧
    isZero ((s.operand 1 0).lane 0) = true ∧
    ∀ k : Fin 4, k ≠ 0 → isFinite ((s.operand 0 1).lane k) = true ∧
      isZero ((s.operand 0 1).lane k) = false ∧ signBit ((s.operand 0 1).lane k) = true := by
  decide

theorem witness_FloatCompareRows :
    isNaN 0xFF800001#32 = true ∧ isNaN 0x7F800000#32 = false ∧ isNaN 0x80000000#32 = false := by
  decide

theorem witness_MemoryUpdateRows :
    (0x1000#32).toNat % 16 = 0 ∧
    ∀ k : Fin 4, (start [] [(0x1000#32, 1), (0x1004#32, 2), (0x1008#32, 3), (0x100C#32, 4)]).mem.holds
      (elementAddr 0x1000#32 k) ((⟨1, 2, 3, 4⟩ : Vec).lane k) := by
  unfold Memory.holds
  decide +kernel

end Sys2Proof.Tests
end

