-- ==== Sys2Proof/Proofs/Effect.lean ====
section
/-! SUPPORT. What one instruction can do to the state, said once. `effectOf` gives the state change of each
instruction as a function of its operands and of memory, so its type says what an instruction can read;
`exec_eq` ties it to `exec`. Frames, the invariant and noninterference are then facts about the seven
kinds of effect. -/

namespace Sys2Proof.Machine

/-! ## The kinds of effect -/

/-- The state change of one instruction. -/
inductive Effect where
  /-- Fault entry (60_exceptions.md R284). -/
  | fault (c : FaultCause) (info : Word)
  /-- Whole registers with their marks, written in this order. -/
  | regs (ws : List (Reg × VReg))
  /-- One lane of a register. -/
  | lane (r : Reg) (k : Fin 4) (x : Word)
  /-- The condition flag. -/
  | cf (b : Bool)
  /-- The scalar result. -/
  | xr (x : Word)
  /-- Vectors stored at these addresses, in this order. -/
  | store (ws : List (Word × Vec))
  /-- The word writes of a transposed store. -/
  | scatter (ws : List (Word × Word))

/-- Registers written one after the other. -/
def State.putRegs (s : State) (ws : List (Reg × VReg)) : State :=
  { s with regs := ws.foldl (fun v w => v.set w.1.val w.2 w.1.isLt) s.regs }

/-- Vectors stored one after the other. -/
def Memory.writeVecs (m : Memory) : List (Word × Vec) → Memory
  | [] => m
  | w :: ws => Memory.writeVecs (m.writeVec w.1 w.2) ws

/-- The state after an effect. -/
def Effect.apply (s : State) : Effect → State
  | .fault c info => s.raiseFault c info
  | .regs ws => s.putRegs ws
  | .lane r k x => s.writeLane r k x
  | .cf b => s.writeCF b
  | .xr x => s.writeXR x
  | .store ws => s.withMem (s.mem.writeVecs ws)
  | .scatter ws => s.scatter ws

/-- A register write that marks every lane written (10_state.md R33). -/
def Effect.reg (r : Reg) (v : Vec) : Effect := .regs [(r, ⟨v, .splat true⟩)]

/-- Two such writes, in this order. -/
def Effect.reg₂ (r : Reg) (v : Vec) (r' : Reg) (v' : Vec) : Effect :=
  .regs [(r, ⟨v, .splat true⟩), (r', ⟨v', .splat true⟩)]

/-- What register `r_k` of a transposed load receives from memory (`State.gather`). -/
def Memory.gather (m : Memory) (ptrs : Quad Word) (k : Nat) : VReg where
  val := ptrs.map fun p => m.readWord (elementAddr p k)
  written := ptrs.map fun p => m.wordWritten (elementAddr p k)

/-- What each instruction does when it does not fault, as a function of what it may read: its operands,
numbered as in `State.operand`, and memory. -/
def effectOf (op : Nat → Reg → Vec) (m : Memory) : Instr → Effect
  | .vany va => .cf (anyNonzero (op 0 va))
  | .vall va => .cf (allNonzero (op 0 va))
  | .vsplat vd va n => .reg vd (.splat ((op 0 va).lane n))
  | .vshuf vd va sel => .reg vd (Vec.shuffle (op 0 va) sel)
  | .vswap va vb => .reg₂ va (op 1 vb) vb (op 0 va)
  | .vtrn va vb vc vd =>
    let t := transpose ⟨op 0 va, op 1 vb, op 2 vc, op 3 vd⟩
    .regs [(va, ⟨t.l0, .splat true⟩), (vb, ⟨t.l1, .splat true⟩), (vc, ⟨t.l2, .splat true⟩),
      (vd, ⟨t.l3, .splat true⟩)]
  | .vmov vd va => .reg vd (op 0 va)
  | .vset vd x => .reg vd x
  | .vbcast vd x => .reg vd (.splat x)
  | .lget va n => .xr ((op 0 va).lane n)
  | .lset vd n x => .lane vd n x
  | .vld vd addr => .regs [(vd, ⟨m.readVec addr, m.vecMarks addr⟩)]
  | .vst va addr | .vsts va addr => .store [(addr, op 0 va)]
  | .mcopy dst src => .store [(dst, m.readVec src)]
  | .mswap p q => .store [(p, m.readVec q), (q, m.readVec p)]
  | .minc va addr => .store [(addr, (m.readVec addr).map₂ fadd (op 0 va))]
  | .mdec va addr => .store [(addr, (m.readVec addr).map₂ fsub (op 0 va))]
  | .mscale va addr => .store [(addr, (m.readVec addr).map₂ fmul (op 0 va))]
  | .ld4x1tr va ptrs => .regs [(va, m.gather ptrs 0)]
  | .ld4x2tr va vb ptrs => .regs [(va, m.gather ptrs 0), (vb, m.gather ptrs 1)]
  | .ld4x3tr va vb vc ptrs =>
    .regs [(va, m.gather ptrs 0), (vb, m.gather ptrs 1), (vc, m.gather ptrs 2)]
  | .ld4x4tr va vb vc vd ptrs =>
    .regs [(va, m.gather ptrs 0), (vb, m.gather ptrs 1), (vc, m.gather ptrs 2),
      (vd, m.gather ptrs 3)]
  | .st4x1tr va ptrs => .scatter (scatterWrites ptrs [op 0 va])
  | .st4x2tr va vb ptrs => .scatter (scatterWrites ptrs [op 0 va, op 1 vb])
  | .st4x3tr va vb vc ptrs => .scatter (scatterWrites ptrs [op 0 va, op 1 vb, op 2 vc])
  | .st4x4tr va vb vc vd ptrs => .scatter (scatterWrites ptrs [op 0 va, op 1 vb, op 2 vc, op 3 vd])
  | .iadd vd va vb => .reg vd ((op 0 va).map₂ addLane (op 1 vb))
  | .isub vd va vb => .reg vd ((op 0 va).map₂ subLane (op 1 vb))
  | .imul vd va vb => .reg vd ((op 0 va).map₂ mulLane (op 1 vb))
  | .idiv vd va vb => .reg vd ((op 0 va).map₂ divLane (op 1 vb))
  | .imod vd va vb => .reg vd ((op 0 va).map₂ modLane (op 1 vb))
  | .iand vd va vb => .reg vd (Vec.and (op 0 va) (op 1 vb))
  | .ior vd va vb => .reg vd (Vec.or (op 0 va) (op 1 vb))
  | .ixor vd va vb => .reg vd (Vec.xor (op 0 va) (op 1 vb))
  | .inot vd va => .reg vd (Vec.not (op 0 va))
  | .ishl vd va vb => .reg vd ((op 0 va).map₂ shlLane (op 1 vb))
  | .ishr vd va vb => .reg vd ((op 0 va).map₂ shrLane (op 1 vb))
  | .iabs vd va => .reg vd ((op 0 va).map absLane)
  | .ipreinc vd va => .reg₂ va ((op 0 va).map incLane) vd ((op 0 va).map incLane)
  | .ipostinc vd va => .reg₂ va ((op 0 va).map incLane) vd (op 0 va)
  | .ipredec vd va => .reg₂ va ((op 0 va).map decLane) vd ((op 0 va).map decLane)
  | .ipostdec vd va => .reg₂ va ((op 0 va).map decLane) vd (op 0 va)
  | .iclt vd va vb => .reg vd ((op 0 va).map₂ ltLane (op 1 vb))
  | .icgt vd va vb => .reg vd ((op 0 va).map₂ gtLane (op 1 vb))
  | .iceq vd va vb => .reg vd ((op 0 va).map₂ eqLane (op 1 vb))
  | .icne vd va vb => .reg vd ((op 0 va).map₂ neLane (op 1 vb))
  | .icle vd va vb => .reg vd ((op 0 va).map₂ leLane (op 1 vb))
  | .icge vd va vb => .reg vd ((op 0 va).map₂ geLane (op 1 vb))
  | .iland vd va vb => .reg vd ((op 0 va).map₂ landLane (op 1 vb))
  | .ilor vd va vb => .reg vd ((op 0 va).map₂ lorLane (op 1 vb))
  | .czero vd vm va | .fclrb vd vm va => .reg vd (Vec.and (op 1 va) (Vec.not (op 0 vm)))
  | .notczero vd vm va => .reg vd (Vec.and (op 1 va) (op 0 vm))
  | .merge vd vm vt vf =>
    .reg vd (Vec.or (Vec.and (op 1 vt) (op 0 vm)) (Vec.and (op 2 vf) (Vec.not (op 0 vm))))
  | .fadd vd va vb => .reg vd ((op 0 va).map₂ fadd (op 1 vb))
  | .fsub vd va vb => .reg vd ((op 0 va).map₂ fsub (op 1 vb))
  | .fmul vd va vb => .reg vd ((op 0 va).map₂ fmul (op 1 vb))
  | .fdiv vd va vb => .reg vd ((op 0 va).map₂ fdivLane (op 1 vb))
  | .frcpa vd va => .reg vd ((op 0 va).map rcpEst)
  | .frcp vd va => .reg vd ((op 0 va).map rcpLane)
  | .frsqrta vd va => .reg vd ((op 0 va).map rsqrtEst)
  | .frsqrt vd va => .reg vd ((op 0 va).map rsqrtLane)
  | .fsqrt vd va => .reg vd ((op 0 va).map fsqrtLane)
  | .fabs vd va => .reg vd ((op 0 va).map fabsLane)
  | .fcpsgn vd va vb => .reg vd ((op 0 va).map₂ copysignLane (op 1 vb))
  | .fma vd va vb vc => .reg vd (Quad.map₃ ffma (op 0 va) (op 1 vb) (op 2 vc))
  | .fnms vd va vb vc =>
    .reg vd (Quad.map₃ (fun a b c => ffma (neg a) b c) (op 0 va) (op 1 vb) (op 2 vc))
  | .fms vd va vb vc =>
    .reg vd (Quad.map₃ (fun a b c => ffma a b (neg c)) (op 0 va) (op 1 vb) (op 2 vc))
  | .fclt vd va vb => .reg vd ((op 0 va).map₂ (fun x y => maskLane (flt x y)) (op 1 vb))
  | .fcgt vd va vb => .reg vd ((op 0 va).map₂ (fun x y => maskLane (fgt x y)) (op 1 vb))
  | .fceq vd va vb => .reg vd ((op 0 va).map₂ (fun x y => maskLane (feq x y)) (op 1 vb))
  | .fcne vd va vb => .reg vd ((op 0 va).map₂ (fun x y => maskLane (fne x y)) (op 1 vb))
  | .fcle vd va vb => .reg vd ((op 0 va).map₂ (fun x y => maskLane (fle x y)) (op 1 vb))
  | .fcge vd va vb => .reg vd ((op 0 va).map₂ (fun x y => maskLane (fge x y)) (op 1 vb))
  | .fsetb vd vm va => .reg vd (Vec.or (op 1 va) (op 0 vm))
  | .ftglb vd vm va => .reg vd (Vec.xor (op 1 va) (op 0 vm))

/-- What an instruction does in a state: its fault if it has one there, else its own effect. -/
def State.outcome (s : State) (i : Instr) : Effect :=
  match s.faultOf i with
  | some (c, info) => .fault c info
  | none => effectOf s.operand s.mem i

theorem State.outcome_of_fault {s : State} {i : Instr} {c : FaultCause} {info : Word}
    (h : s.faultOf i = some (c, info)) : s.outcome i = .fault c info := by
  rw [State.outcome, h]

theorem State.outcome_of_no_fault {s : State} {i : Instr} (h : s.faultOf i = none) :
    s.outcome i = effectOf s.operand s.mem i := by
  rw [State.outcome, h]

/-! ## `exec` applies the outcome -/

/-- Pointers need no alignment when the unit is one byte. -/
theorem firstMisaligned_one (ps : List Word) : firstMisaligned 1 ps = none :=
  firstMisaligned_eq_none.mpr fun _ _ => Nat.mod_one _

/-- A row that checks its pointers alone does what its outcome says. -/
theorem exec_eq_of_aligned {i : Instr} {s : State} (hd : i.divisor = none)
    (hx : exec i s = whenAligned i.alignment i.pointers s ((effectOf s.operand s.mem i).apply s)) :
    exec i s = .next ((s.outcome i).apply s) := by
  rcases whenAligned_cases i.alignment i.pointers s ((effectOf s.operand s.mem i).apply s) with
    ⟨p, hp, hw⟩ | ⟨hn, hw⟩
  · rw [hx, hw, State.outcome_of_fault (by rw [State.faultOf, hp])]
    rfl
  · rw [hx, hw, State.outcome_of_no_fault (by rw [State.faultOf, hn, hd])]

/-- A row that checks its divisor alone does what its outcome says. -/
theorem exec_eq_of_divisor {i : Instr} {s : State} {vb : Reg} (hp : i.pointers = [])
    (hd : i.divisor = some vb)
    (hx : exec i s = whenNonzero (s.operand 1 vb) s ((effectOf s.operand s.mem i).apply s)) :
    exec i s = .next ((s.outcome i).apply s) := by
  have hf : s.faultOf i = if zeroLaneMap (s.operand 1 vb) != 0
      then some (.divzero, zeroLaneMap (s.operand 1 vb)) else none := by
    simp only [State.faultOf, hp, firstMisaligned, List.find?_nil, hd]
  rcases whenNonzero_cases (s.operand 1 vb) s ((effectOf s.operand s.mem i).apply s) with
    ⟨hz, hw⟩ | ⟨hz, hw⟩
  · rw [hx, hw, State.outcome_of_fault (hf.trans (if_pos (by simpa using hz)))]
    rfl
  · rw [hx, hw, State.outcome_of_no_fault (hf.trans (if_neg (by simpa using hz)))]

/-- `exec` applies the outcome of the instruction, and nothing else. -/
theorem exec_eq (i : Instr) (s : State) : exec i s = .next ((s.outcome i).apply s) := by
  cases i
  case vld | vst | vsts | mcopy | mswap | minc | mdec | mscale | ld4x2tr | ld4x3tr | ld4x4tr
      | st4x2tr | st4x3tr | st4x4tr =>
    exact exec_eq_of_aligned rfl rfl
  case idiv | imod => exact exec_eq_of_divisor rfl rfl rfl
  case ld4x1tr | st4x1tr =>
    rw [State.outcome_of_no_fault (by
      simp only [State.faultOf, Instr.alignment, firstMisaligned_one, Instr.divisor])]
    rfl
  all_goals rfl

/-- The one state that an instruction can lead to. -/
theorem eq_apply_of_exec {i : Instr} {s s' : State} (h : exec i s = .next s') :
    s' = (s.outcome i).apply s := by
  rw [exec_eq] at h
  injection h with h
  exact h.symm

/-! ## What an effect changes -/

@[simp] theorem State.putRegs_nil (s : State) : s.putRegs [] = s := rfl

@[simp] theorem State.putRegs_cons (s : State) (w : Reg × VReg) (ws : List (Reg × VReg)) :
    s.putRegs (w :: ws) = (s.putReg w.1 w.2).putRegs ws := rfl

theorem State.regs_get_putRegs_of_not_mem {ws : List (Reg × VReg)} {r : Reg}
    (h : r ∉ ws.map Prod.fst) (s : State) : (s.putRegs ws).regs.get r = s.regs.get r := by
  induction ws generalizing s with
  | nil => rfl
  | cons w ws ih =>
    rw [List.map_cons, List.mem_cons, not_or] at h
    rw [State.putRegs_cons, ih h.2, State.regs_get_putReg_of_ne s (Ne.symm h.1)]

theorem Memory.wf_writeVecs {m : Memory} (h : m.wf = true) (ws : List (Word × Vec)) :
    (m.writeVecs ws).wf = true := by
  induction ws generalizing m with
  | nil => exact h
  | cons w ws ih => exact ih (Memory.wf_writeVec h w.1 w.2)

namespace Effect

/-- The registers an effect writes. -/
def dests : Effect → List Reg
  | .regs ws => ws.map Prod.fst
  | .lane r _ _ => [r]
  | .fault .. | .cf .. | .xr .. | .store .. | .scatter .. => []

variable (e : Effect) (s : State)

@[simp] theorem apply_inputs : (e.apply s).inputs = s.inputs := by cases e <;> rfl

@[simp] theorem apply_taken : (e.apply s).taken = s.taken := by cases e <;> rfl

/-- A register that is no destination of the effect keeps its value and its marks. -/
theorem regs_get_apply_of_not_mem {r : Reg} (h : r ∉ e.dests) :
    (e.apply s).regs.get r = s.regs.get r := by
  cases e with
  | regs ws => exact State.regs_get_putRegs_of_not_mem h s
  | lane r' k x => exact State.regs_get_putReg_of_ne s (fun hr => h (by simp [dests, hr])) _
  | fault | cf | xr | store | scatter => rfl

/-- Only the flag effect touches `CF` or its mark. -/
theorem apply_cf_of_ne (h : ∀ b, e ≠ .cf b) :
    (e.apply s).cf = s.cf ∧ (e.apply s).cfWritten = s.cfWritten := by
  cases e with
  | cf b => exact absurd rfl (h b)
  | fault | regs | lane | xr | store | scatter => exact ⟨rfl, rfl⟩

/-- Only the scalar effect touches `XR` or its mark. -/
theorem apply_xr_of_ne (h : ∀ x, e ≠ .xr x) :
    (e.apply s).xr = s.xr ∧ (e.apply s).xrWritten = s.xrWritten := by
  cases e with
  | xr x => exact absurd rfl (h x)
  | fault | regs | lane | cf | store | scatter => exact ⟨rfl, rfl⟩

/-- Every effect keeps memory in its canonical form. -/
theorem wf_apply (h : s.mem.wf = true) : (e.apply s).mem.wf = true := by
  cases e with
  | store ws => exact Memory.wf_writeVecs h ws
  | scatter ws => exact Memory.wf_scatter h s.taken ws
  | fault | regs | lane | cf | xr => exact h

/-- Only fault entry touches `FSR` and `FINFO`. -/
theorem apply_fault_registers :
    (∃ c info, e = .fault c info) ∨ (e.apply s).fsr = s.fsr ∧ (e.apply s).finfo = s.finfo := by
  cases e with
  | fault c info => exact .inl ⟨c, info, rfl⟩
  | regs | lane | cf | xr | store | scatter => exact .inr ⟨rfl, rfl⟩

end Effect

/-! ## Which effects an instruction has -/

section EffectOf

variable (op : Nat → Reg → Vec) (m : Memory) (i : Instr)

/-- No instruction's own effect is fault entry: an instruction faults by `State.faultOf` alone. -/
theorem effectOf_ne_fault (c : FaultCause) (info : Word) : effectOf op m i ≠ .fault c info := by
  cases i <;> exact Effect.noConfusion

/-- The registers of an instruction's effect are its destinations (10_state.md R23). -/
theorem mem_dests_of_mem_effectOf {r : Reg} (h : r ∈ (effectOf op m i).dests) : r ∈ i.dests := by
  cases i
  case vswap | ipreinc | ipostinc | ipredec | ipostdec =>
    simp only [effectOf, Effect.reg₂, Effect.dests, List.map, Instr.dests, List.mem_cons,
      List.not_mem_nil, or_false] at h ⊢
    tauto
  all_goals exact h

/-- The flag effect is that of VANY and VALL (10_state.md R25). -/
theorem vany_or_vall_of_effectOf {b : Bool} (h : effectOf op m i = .cf b) :
    ∃ va, i = .vany va ∨ i = .vall va := by
  cases i
  case vany va => exact ⟨va, .inl rfl⟩
  case vall va => exact ⟨va, .inr rfl⟩
  all_goals exact Effect.noConfusion h

/-- The scalar effect is that of LGET (10_state.md R26). -/
theorem lget_of_effectOf {x : Word} (h : effectOf op m i = .xr x) : ∃ va n, i = .lget va n := by
  cases i
  case lget va n => exact ⟨va, n, rfl⟩
  all_goals exact Effect.noConfusion h

end EffectOf

/-- An outcome other than fault entry is the instruction's own effect. -/
theorem State.outcome_cases (s : State) (i : Instr) :
    (∃ c info, s.faultOf i = some (c, info) ∧ s.outcome i = .fault c info) ∨
    (s.faultOf i = none ∧ s.outcome i = effectOf s.operand s.mem i) := by
  cases h : s.faultOf i with
  | none => exact .inr ⟨rfl, State.outcome_of_no_fault h⟩
  | some f => exact .inl ⟨f.1, f.2, rfl, State.outcome_of_fault h⟩

/-- The fault that an outcome enters is the one the instruction raises. -/
theorem State.faultOf_of_outcome {s : State} {i : Instr} {c : FaultCause} {info : Word}
    (h : s.outcome i = .fault c info) : s.faultOf i = some (c, info) := by
  rcases s.outcome_cases i with ⟨c', info', hf, ho⟩ | ⟨-, ho⟩
  · rw [hf]
    rw [h] at ho
    injection ho with hc hi
    rw [hc, hi]
  · exact absurd (ho ▸ h) (effectOf_ne_fault _ _ i c info)

/-- The registers that an outcome writes are destinations of the instruction. -/
theorem State.mem_dests_of_mem_outcome {s : State} {i : Instr} {r : Reg}
    (h : r ∈ (s.outcome i).dests) : r ∈ i.dests := by
  rcases s.outcome_cases i with ⟨c, info, -, ho⟩ | ⟨-, ho⟩ <;> rw [ho] at h
  · exact absurd h List.not_mem_nil
  · exact mem_dests_of_mem_effectOf _ _ i h

end Sys2Proof.Machine
end

