-- ==== Sys2Proof/Proofs/Invariant.lean ====
section
/-! SUPPORT. The invariant of memory and the fault registers (10_state.md R27, R28): every fault entered is
legal, and every step keeps it. -/

namespace Sys2Proof.Machine

/-! ## Legal words -/

/-- Whether a row's instruction is well formed is decided by its register fields alone. -/
theorem wellFormed_row_operandWords {op : Nat} {fmt : Format} {make : Fields → Instr}
    (h : opcodeRow op = some (fmt, make)) (f : Fields) (x : Quad Word) :
    (make { f with x := x }).wellFormed = (make f).wellFormed := by
  unfold opcodeRow at h
  split at h <;> cases h <;> rfl

/-- Whether a beat decodes is decided by its command word alone (60_exceptions.md R281). -/
theorem legalWord_iff (b : Beat) : legalWord b.w = true ↔ ∃ i, decode b = .ok i := by
  have hl : legalWord b.w = true ↔ ∃ i, decode ⟨b.w, .splat 0⟩ = .ok i := by
    rw [legalWord]
    cases decode ⟨b.w, .splat 0⟩ <;> simp [Except.toBool]
  rw [hl]
  constructor
  · rintro ⟨i, hi⟩
    obtain ⟨fmt, make, hr, hz, rfl, hw⟩ := (decode_ok_iff _ _).mp hi
    exact ⟨_, (decode_ok_iff _ _).mpr
      ⟨fmt, make, hr, hz, rfl, wellFormed_row_operandWords hr (fieldsOf b) (.splat 0) ▸ hw⟩⟩
  · rintro ⟨i, hi⟩
    obtain ⟨fmt, make, hr, hz, rfl, hw⟩ := (decode_ok_iff _ _).mp hi
    exact ⟨_, (decode_ok_iff _ _).mpr
      ⟨fmt, make, hr, hz, rfl, (wellFormed_row_operandWords hr (fieldsOf b) (.splat 0)).trans hw⟩⟩

/-- The word of a beat that does not decode is no instruction. -/
theorem legalWord_of_decode_error {b : Beat} {e : DecodeError} (h : decode b = .error e) :
    legalWord b.w = false := by
  rw [← Bool.not_eq_true, legalWord_iff, h]
  rintro ⟨i, hi⟩
  cases hi

/-! ## Every fault entered is legal -/

/-- Every alignment that an instruction needs divides 16 (20_memory.md R53). -/
theorem alignment_dvd (i : Instr) : i.alignment ∣ 16 := by
  cases i <;> simp [Instr.alignment]

/-- Everything a fault can be: the first misaligned pointer, or the nonzero map of zero divisors. -/
theorem State.faultOf_cases {s : State} {i : Instr} {c : FaultCause} {info : Word}
    (h : s.faultOf i = some (c, info)) :
    (c = .misaligned ∧ firstMisaligned i.alignment i.pointers = some info) ∨
    (c = .divzero ∧ ∃ vb, i.divisor = some vb ∧ info = zeroLaneMap (s.operand 1 vb) ∧ info ≠ 0) := by
  unfold State.faultOf at h
  split at h
  · rename_i p hp
    cases h
    exact .inl ⟨rfl, hp⟩
  · split at h
    · rename_i vb hd
      split at h
      · rename_i hz
        cases h
        exact .inr ⟨rfl, vb, hd, rfl, by simpa using hz⟩
      · cases h
    · cases h

/-- The fault of a decoded instruction is legal (10_state.md R28). -/
theorem faultInfoLegal_of_faultOf {s : State} {i : Instr} {c : FaultCause} {info : Word}
    (h : s.faultOf i = some (c, info)) : faultInfoLegal (faultStatus c) info := by
  rcases State.faultOf_cases h with ⟨rfl, hp⟩ | ⟨rfl, vb, -, rfl, hz⟩
  · have hn : info.toNat % i.alignment ≠ 0 := (firstMisaligned_eq_some hp).2
    have h16 : info.toNat % 16 ≠ 0 := fun h0 =>
      hn (Nat.mod_eq_zero_of_dvd ((alignment_dvd i).trans (Nat.dvd_of_mod_eq_zero h0)))
    exact .inr (.inr (.inl ⟨rfl, h16⟩))
  · exact .inr (.inr (.inr ⟨rfl, hz, zeroLaneMap_lt _⟩))

/-! ## The invariant -/

/-- An instruction keeps the invariant, whether it faults or not. -/
theorem State.inv_apply_outcome {s : State} (h : s.Inv) (i : Instr) : ((s.outcome i).apply s).Inv := by
  obtain ⟨hm, hf⟩ := h
  refine ⟨Effect.wf_apply _ s hm, ?_⟩
  rcases Effect.apply_fault_registers (s.outcome i) s with ⟨c, info, ho⟩ | ⟨hfsr, hfinfo⟩
  · rw [ho]
    exact faultInfoLegal_of_faultOf (State.faultOf_of_outcome ho)
  · rwa [hfsr, hfinfo]

/-- A beat keeps the invariant. -/
theorem State.inv_runBeat {s t : State} {b : Beat} (h : s.Inv) (hr : runBeat b s = .next t) : t.Inv := by
  rcases runBeat_cases b s with ⟨-, e⟩ | ⟨-, ⟨d, hd⟩, e⟩ | ⟨i, -, -, e⟩ <;> rw [e] at hr
  · cases hr
    exact h
  · cases hr
    exact ⟨h.1, .inr (.inl ⟨rfl, legalWord_of_decode_error hd⟩)⟩
  · rw [eq_apply_of_exec hr]
    exact State.inv_apply_outcome h i

/-- Settles O17. The invariant speaks of memory, `FSR` and `FINFO` alone: an effect stores canonically, and
`FSR` and `FINFO` change by a legal fault or by the reset input. -/
theorem invariantKeptByEveryStep : Obligations.InvariantKeptByEveryStep := by
  intro s t h hs
  rcases hi : s.inputs with _ | ⟨b | _, rest⟩
  · rw [step_idle hi] at hs
    cases hs
    exact h
  · rw [step_beat hi] at hs
    exact State.inv_runBeat (s := s.takeInput rest) h hs
  · rw [step_reset hi] at hs
    cases hs
    exact ⟨h.1, .inl ⟨rfl, rfl⟩⟩

/-- Settles O18. Reset lists no byte and records no fault; the start of a run adds the host's memory. -/
theorem invariantHoldsAtReset : Obligations.InvariantHoldsAtReset :=
  ⟨⟨reset_memory_wf, .inl ⟨rfl, rfl⟩⟩, fun _ _ hm => ⟨hm, .inl ⟨rfl, rfl⟩⟩⟩

/-- No lane of a register has been written after reset. -/
@[simp] theorem marks_reset (r : Reg) : State.reset.marks r = .splat false :=
  State.marks_resetInput State.reset r

/-- Settles O16. -/
theorem resetStateValues : Obligations.ResetStateValues :=
  ⟨rfl, rfl, rfl, rfl, marks_reset, rfl, rfl, fun _ _ => ⟨rfl, rfl⟩⟩

/-- A beat is discarded in the faulted state (60_exceptions.md R285). -/
theorem runBeat_of_faulted {s : State} (hf : s.faulted = true) (b : Beat) : runBeat b s = .next s := by
  simp [runBeat, hf]

/-- An undecodable beat raises ILLEGAL with its word (60_exceptions.md R281). -/
theorem runBeat_of_decode_error {b : Beat} {e : DecodeError} {s : State} (hf : s.faulted = false)
    (hd : decode b = .error e) : runBeat b s = .next (s.raiseFault .illegal b.w) := by
  simp [runBeat, hf, hd]

/-- An accepted beat runs the instruction it decodes to. -/
theorem runBeat_of_decode {b : Beat} {i : Instr} {s : State} (hf : s.faulted = false)
    (hd : decode b = .ok i) : runBeat b s = exec i s := by
  simp [runBeat, hf, hd]

/-- Settles O9. Taking the input changes no fault register, so the beat is accepted as it would be before. -/
theorem stepRunsDecodedInstruction : Obligations.StepRunsDecodedInstruction :=
  ⟨fun s _ rest _ hi hf hd =>
    (step_beat hi).trans (runBeat_of_decode (s := s.takeInput rest) hf hd),
  fun _ _ _ hi => step_beat hi⟩

end Sys2Proof.Machine
end

