-- ==== Sys2Proof/Proofs/Frame.lean ====
section
/-! SUPPORT. What an instruction leaves unchanged: registers that are no destination (10_state.md R23), and
`CF` and `XR` (R25, R26). -/

namespace Sys2Proof.Machine

/-- Settles O19. An effect writes the destinations of its instruction alone. -/
theorem onlyDestinationsWritten : Obligations.OnlyDestinationsWritten := by
  refine ⟨fun i s t h r hr => ?_, fun vd n k x s t h hk => ?_⟩
  · rw [eq_apply_of_exec h]
    exact Effect.regs_get_apply_of_not_mem _ s fun hm => hr (State.mem_dests_of_mem_outcome hm)
  · have ht : t = s.writeLane vd n x := eq_apply_of_exec h
    rw [ht, State.readReg_writeLane, State.marks_writeLane, if_pos rfl, if_pos rfl]
    exact ⟨Quad.lane_setLane_of_ne _ (Ne.symm hk) x, Quad.lane_setLane_of_ne _ (Ne.symm hk) true⟩

/-- An instruction whose outcome is the flag effect is VANY or VALL. -/
theorem State.vany_or_vall_of_outcome {s : State} {i : Instr} {b : Bool} (h : s.outcome i = .cf b) :
    ∃ va, i = .vany va ∨ i = .vall va := by
  rcases s.outcome_cases i with ⟨c, info, -, ho⟩ | ⟨-, ho⟩ <;> rw [ho] at h
  · cases h
  · exact vany_or_vall_of_effectOf _ _ i h

/-- An instruction whose outcome is the scalar effect is LGET. -/
theorem State.lget_of_outcome {s : State} {i : Instr} {x : Word} (h : s.outcome i = .xr x) :
    ∃ va n, i = .lget va n := by
  rcases s.outcome_cases i with ⟨c, info, -, ho⟩ | ⟨-, ho⟩ <;> rw [ho] at h
  · cases h
  · exact lget_of_effectOf _ _ i h

/-- An effect does the same to the rest of the state whatever `CF` and `XR` hold. -/
theorem Effect.apply_setFlags (e : Effect) (s : State) (c : Bool) (x : Word) :
    { e.apply { s with cf := c, xr := x } with cf := (e.apply s).cf, xr := (e.apply s).xr } =
      e.apply s := by
  cases e <;> rfl

/-- Settles O20. `CF` and `XR` change by their own effects alone, and the outcome of an instruction is a
function of its operands and of memory, neither of which holds them. -/
theorem flagsWrittenAndReadAsStated : Obligations.FlagsWrittenAndReadAsStated := by
  intro i s t h
  obtain rfl := eq_apply_of_exec h
  refine ⟨fun hc => ?_, fun hx => ?_, fun c x => ?_⟩
  · by_contra hne
    obtain ⟨hcf, hcw⟩ := Effect.apply_cf_of_ne (s.outcome i) s fun b hb =>
      hne (State.vany_or_vall_of_outcome hb)
    exact hc.elim (· hcf) (· hcw)
  · by_contra hne
    obtain ⟨hxr, hxw⟩ := Effect.apply_xr_of_ne (s.outcome i) s fun x hx =>
      hne (State.lget_of_outcome hx)
    exact hx.elim (· hxr) (· hxw)
  · have ho : State.outcome { s with cf := c, xr := x } i = s.outcome i := rfl
    exact ⟨_, exec_eq i _, by rw [ho]; exact Effect.apply_setFlags (s.outcome i) s c x⟩

end Sys2Proof.Machine
end

