-- ==== Sys2Proof/Proofs/Noninterference.lean ====
section
/-! SUPPORT. What no command has written cannot reach what a command writes (10_state.md R33,
70_reset_and_hazards.md R313): operands that agree in the lanes an instruction reads give the same outcome,
and the same outcome keeps two states in agreement. -/

namespace Sys2Proof.Machine

/-! ## Agreement of two states -/

section Agreement

variable {s t : State}

theorem VReg.agree_refl (v : VReg) : v.agree v := ⟨rfl, fun _ _ => rfl⟩

/-- Registers that agree still do after the same write of one lane. -/
theorem VReg.agree_setLane {v w : VReg} (h : v.agree w) (k : Fin 4) (x : Word) :
    VReg.agree ⟨v.val.setLane k x, v.written.setLane k true⟩
      ⟨w.val.setLane k x, w.written.setLane k true⟩ := by
  obtain ⟨hm, hv⟩ := h
  refine ⟨by rw [hm], fun j hj => ?_⟩
  by_cases e : k = j
  · subst e
    simp only [Quad.lane_setLane_same]
  · simp only [Quad.lane_setLane_of_ne _ e] at hj ⊢
    exact hv j hj

theorem State.agreeOnWritten_putReg (h : s.agreeOnWritten t) (r : Reg) {v w : VReg} (hv : v.agree w) :
    (s.putReg r v).agreeOnWritten (t.putReg r w) := by
  obtain ⟨hr, hrest⟩ := h
  refine ⟨fun r' => ?_, hrest⟩
  by_cases e : r = r'
  · subst e
    simpa [State.putReg, Vector.get_eq_getElem] using hv
  · rw [State.regs_get_putReg_of_ne s e, State.regs_get_putReg_of_ne t e]
    exact hr r'

theorem State.agreeOnWritten_putRegs (h : s.agreeOnWritten t) (ws : List (Reg × VReg)) :
    (s.putRegs ws).agreeOnWritten (t.putRegs ws) := by
  induction ws generalizing s t with
  | nil => exact h
  | cons w ws ih => exact ih (State.agreeOnWritten_putReg h w.1 (VReg.agree_refl w.2))

/-- States that agree still do after the same effect, if the free choices of a transposed store come out
alike. -/
theorem Effect.agreeOnWritten_apply (h : s.agreeOnWritten t) (e : Effect)
    (hsc : ∀ ws, e = .scatter ws → s.mem.scatter s.taken ws = s.mem.scatter t.taken ws) :
    (e.apply s).agreeOnWritten (e.apply t) := by
  have ⟨hr, hcf, hxr, hfsr, hfinfo, hm, hi⟩ := h
  cases e with
  | fault c info => exact ⟨hr, hcf, hxr, rfl, rfl, hm, hi⟩
  | regs ws => exact State.agreeOnWritten_putRegs h ws
  | lane r k x => exact State.agreeOnWritten_putReg h r (VReg.agree_setLane (hr r) k x)
  | cf b => exact ⟨hr, ⟨rfl, fun _ => rfl⟩, hxr, hfsr, hfinfo, hm, hi⟩
  | xr x => exact ⟨hr, hcf, ⟨rfl, fun _ => rfl⟩, hfsr, hfinfo, hm, hi⟩
  | store ws => exact ⟨hr, hcf, hxr, hfsr, hfinfo, congrArg (Memory.writeVecs · ws) hm, hi⟩
  | scatter ws =>
    have hmem : s.mem.scatter s.taken ws = t.mem.scatter t.taken ws :=
      (hsc ws rfl).trans (congrArg (Memory.scatter · t.taken ws) hm)
    exact ⟨hr, hcf, hxr, hfsr, hfinfo, hmem, hi⟩

/-- A written lane reads alike in states that agree. -/
theorem State.lane_operand_of_agree (h : s.agreeOnWritten t) {r : Reg} {k : Fin 4}
    (hw : (s.marks r).lane k = true) (j : Nat) :
    (s.operand j r).lane k = (t.operand j r).lane k := by
  obtain ⟨hm, hv⟩ := h.1 r
  have hw' : (t.marks r).lane k = true := (congrArg (Quad.lane · k) hm).symm.trans hw
  rw [State.lane_operand_of_written s hw, State.lane_operand_of_written t hw']
  exact hv k hw

/-- Every operand reads alike in states that agree and draw the same free values. -/
theorem State.operand_of_agree (h : s.agreeOnWritten t) (hn : s.taken = t.taken) :
    s.operand = t.operand := by
  funext j r
  refine Quad.ext_lane fun k => ?_
  by_cases hw : (s.marks r).lane k = true
  · exact State.lane_operand_of_agree h hw j
  · have hw' : ¬ (t.marks r).lane k = true :=
      fun e => hw ((congrArg (Quad.lane · k) (h.1 r).1).trans e)
    rw [State.lane_operand, State.lane_operand, if_neg hw, if_neg hw', hn]

end Agreement

/-! ## An outcome depends on the lanes that are read -/

/-- Two readings of the operands agree in these lanes. -/
def lanesAgree (op op' : Nat → Reg → Vec) (ls : List (Reg × Fin 4)) : Prop :=
  ∀ j, ∀ rk ∈ ls, (op j rk.1).lane rk.2 = (op' j rk.1).lane rk.2

section Reads

variable {op op' : Nat → Reg → Vec}

theorem lanesAgree_allLanes {rs : List Reg} :
    lanesAgree op op' (allLanes rs) ↔ ∀ r ∈ rs, ∀ j, op j r = op' j r := by
  constructor
  · intro h r hr j
    exact Quad.ext_lane fun k => h j (r, k) (by simp [allLanes, hr])
  · rintro h j ⟨r, k⟩ hrk
    have hr : r ∈ rs := by simpa [allLanes] using hrk
    rw [h r hr j]

/-- An instruction's effect depends on the operand lanes it reads (`Instr.sources`) and on memory alone. -/
theorem effectOf_congr {i : Instr} (h : lanesAgree op op' i.sources) (m : Memory) :
    effectOf op m i = effectOf op' m i := by
  cases i
  case vsplat vd va n =>
    exact congrArg (fun x => Effect.reg vd (.splat x)) (h 0 (va, n) List.mem_cons_self)
  case lget va n => exact congrArg Effect.xr (h 0 (va, n) List.mem_cons_self)
  case vshuf vd va sel =>
    refine congrArg (Effect.reg vd) (Quad.ext_lane fun k => ?_)
    rw [lane_shuffle, lane_shuffle]
    exact h 0 (va, selectorIndex sel k) (by simp [Instr.sources])
  all_goals
    simp only [Instr.sources, lanesAgree_allLanes, List.forall_mem_cons] at h
    simp only [effectOf, h]

/-- The divisor is read in every lane. -/
theorem mem_sources_of_divisor {i : Instr} {vb : Reg} (h : i.divisor = some vb) (k : Fin 4) :
    (vb, k) ∈ i.sources := by
  cases i
  case idiv | imod =>
    cases h
    simp [Instr.sources, allLanes]
  all_goals cases h

/-- A fault depends on the operand lanes the instruction reads. -/
theorem State.faultOf_congr {s t : State} {i : Instr} (h : lanesAgree s.operand t.operand i.sources) :
    s.faultOf i = t.faultOf i := by
  unfold State.faultOf
  cases hd : i.divisor with
  | none => rfl
  | some vb =>
    have hv : s.operand 1 vb = t.operand 1 vb :=
      Quad.ext_lane fun k => h 1 (vb, k) (mem_sources_of_divisor hd k)
    simp only [hv]

/-- An outcome depends on memory and on the operand lanes the instruction reads. -/
theorem State.outcome_congr {s t : State} {i : Instr} (hm : s.mem = t.mem)
    (h : lanesAgree s.operand t.operand i.sources) : s.outcome i = t.outcome i := by
  unfold State.outcome
  rw [State.faultOf_congr h, effectOf_congr h, hm]

end Reads

/-! ## Transposed stores whose writes do not overlap -/

/-- The bytes of element `e`, one after the other, are at the offsets `4e + b` of the pointer. -/
theorem elementAddr_add_ofNat (p : Word) (e b : Nat) :
    elementAddr p e + BitVec.ofNat 32 b = p + BitVec.ofNat 32 (4 * e + b) := by
  rw [elementAddr, BitVec.ofNat_add, BitVec.add_assoc]

/-- Offsets below 2^32 are different addresses. -/
theorem offset_injective {p : Word} {i j : Nat} (hi : i < 2 ^ 32) (hj : j < 2 ^ 32)
    (h : p + BitVec.ofNat 32 i = p + BitVec.ofNat 32 j) : i = j := by
  have h' := congrArg BitVec.toNat (BitVec.add_right_inj p |>.mp h)
  rwa [BitVec.toNat_ofNat, BitVec.toNat_ofNat, Nat.mod_eq_of_lt hi, Nat.mod_eq_of_lt hj] at h'

/-- The addresses that word writes cover: four bytes of each. -/
theorem byteWrites_addresses (ws : List (Word × Word)) :
    (byteWrites ws).map Prod.fst =
      (ws.map Prod.fst).flatMap fun a => (List.range 4).map fun b => a + BitVec.ofNat 32 b := by
  rw [byteWrites, List.map_flatMap, List.flatMap_map]
  congr 1
  funext w
  simp [List.range_succ]

/-- The addresses of the words of a transposed store: each element of each pointer. -/
theorem scatterWrites_addresses (ptrs : Quad Word) (rs : List Vec) :
    (scatterWrites ptrs rs).map Prod.fst =
      (List.finRange 4).flatMap fun p => (List.range rs.length).map (elementAddr (ptrs.lane p)) := by
  have hz : rs.zipIdx.map Prod.snd = List.range rs.length := by
    rw [List.zipIdx_map_snd, List.range_eq_range']
  simp only [scatterWrites, List.map_flatMap, List.map_map, ← hz]
  rfl

/-- The elements of one pointer cover no byte twice. -/
theorem elementBytes_nodup (p : Word) {n : Nat} (hn : n ≤ 4) :
    (((List.range n).map (elementAddr p)).flatMap fun a =>
      (List.range 4).map fun b => a + BitVec.ofNat 32 b).Nodup := by
  have hinj : ∀ {e e' b b' : Nat}, e < 4 → e' < 4 → b < 4 → b' < 4 →
      elementAddr p e + BitVec.ofNat 32 b = elementAddr p e' + BitVec.ofNat 32 b' →
      4 * e + b = 4 * e' + b' := fun he he' hb hb' h => by
    rw [elementAddr_add_ofNat, elementAddr_add_ofNat] at h
    exact offset_injective (by omega) (by omega) h
  rw [List.flatMap_map, List.nodup_flatMap]
  constructor
  · intro e he
    refine List.Nodup.map_on (fun b hb b' hb' h => ?_) List.nodup_range
    rw [List.mem_range] at he hb hb'
    have := hinj (by omega) (by omega) hb hb' h
    omega
  · refine List.nodup_range.imp_of_mem fun {e e'} he he' hne => ?_
    rintro a ha ha'
    obtain ⟨b, hb, rfl⟩ := List.mem_map.mp ha
    obtain ⟨b', hb', h⟩ := List.mem_map.mp ha'
    rw [List.mem_range] at he he' hb hb'
    have := hinj (by omega) (by omega) hb' hb h
    omega

/-- A byte of an element is a byte of its pointer's range. -/
theorem mem_elementBytes {p a : Word} {n : Nat}
    (h : a ∈ ((List.range n).map (elementAddr p)).flatMap fun a =>
      (List.range 4).map fun b => a + BitVec.ofNat 32 b) :
    ∃ i : Fin (4 * n), a = p + BitVec.ofNat 32 i := by
  simp only [List.mem_flatMap, List.mem_map, List.mem_range] at h
  obtain ⟨_, ⟨e, he, rfl⟩, b, hb, rfl⟩ := h
  exact ⟨⟨4 * e + b, by omega⟩, elementAddr_add_ofNat p e b⟩

/-- Disjoint write ranges (70_reset_and_hazards.md R313) cover no byte twice. -/
theorem byteWrites_scatterWrites_nodup {ptrs : Quad Word} {rs : List Vec} (hn : rs.length ≤ 4)
    (h : pointersDisjoint (4 * rs.length) ptrs) :
    ((byteWrites (scatterWrites ptrs rs)).map Prod.fst).Nodup := by
  rw [byteWrites_addresses, scatterWrites_addresses, List.flatMap_assoc, List.nodup_flatMap]
  refine ⟨fun p _ => elementBytes_nodup (ptrs.lane p) hn, ?_⟩
  refine (List.nodup_finRange 4).imp fun {p q} hpq a ha ha' => ?_
  obtain ⟨i, hi⟩ := mem_elementBytes ha
  obtain ⟨j, hj⟩ := mem_elementBytes ha'
  exact h p q hpq i j (hi.symm.trans hj)

/-- At most one write covers an address when no two writes share one. -/
theorem coveringBytes_length_le_one {cs : List (Word × Byte)} (h : (cs.map Prod.fst).Nodup) (a : Word) :
    (coveringBytes cs a).length ≤ 1 := by
  have hc : (coveringBytes cs a).length = (cs.map Prod.fst).count a := by
    rw [coveringBytes, List.length_map, ← List.countP_eq_length_filter, List.count, List.countP_map]
    rfl
  exact hc ▸ List.nodup_iff_count_le_one.mp h a

/-- A byte that at most one write covers is no free choice. -/
theorem resolveByte_of_nodup {cs : List (Word × Byte)} (h : (cs.map Prod.fst).Nodup) (n n' : Nat)
    (a : Word) : resolveByte n cs a = resolveByte n' cs a := by
  have hl := coveringBytes_length_le_one h a
  unfold resolveByte
  rcases hc : coveringBytes cs a with _ | ⟨b, _ | ⟨b', bs⟩⟩
  · rfl
  · rfl
  · rw [hc] at hl
    simp at hl

/-- Writes that cover no byte twice make no free choice. -/
theorem Memory.scatter_of_nodup {ws : List (Word × Word)} (h : ((byteWrites ws).map Prod.fst).Nodup)
    (m : Memory) (n n' : Nat) : m.scatter n ws = m.scatter n' ws := by
  simp only [Memory.scatter, resolveByte_of_nodup h n n']

/-- The scatter effect is that of a transposed store, of one to four registers. -/
theorem scatterWrites_of_effectOf {op : Nat → Reg → Vec} {m : Memory} {i : Instr}
    {ws : List (Word × Word)} (h : effectOf op m i = .scatter ws) (hd : writesDisjoint i) :
    ∃ ptrs rs, ws = scatterWrites ptrs rs ∧ rs.length ≤ 4 ∧ pointersDisjoint (4 * rs.length) ptrs := by
  cases i
  case st4x1tr | st4x2tr | st4x3tr | st4x4tr =>
    cases h
    exact ⟨_, _, rfl, by simp, hd⟩
  all_goals cases h

/-- A command whose write ranges are disjoint makes no free choice (20_memory.md R67). -/
theorem State.scatter_of_outcome {s : State} {i : Instr} {ws : List (Word × Word)}
    (h : s.outcome i = .scatter ws) (hd : writesDisjoint i) (n n' : Nat) :
    s.mem.scatter n ws = s.mem.scatter n' ws := by
  rcases s.outcome_cases i with ⟨c, info, -, ho⟩ | ⟨-, ho⟩ <;> rw [ho] at h
  · cases h
  · obtain ⟨ptrs, rs, rfl, hl, hp⟩ := scatterWrites_of_effectOf h hd
    exact Memory.scatter_of_nodup (byteWrites_scatterWrites_nodup hl hp) s.mem n n'

/-! ## One instruction, one step -/

section Step

variable {s s' t : State}

/-- An instruction that reads alike in two states that agree, and whose free choices come out alike, leads
to states that agree. -/
theorem exec_agreeOnWritten {i : Instr} (h : s.agreeOnWritten t)
    (hop : lanesAgree s.operand t.operand i.sources)
    (hsc : ∀ ws, s.outcome i = .scatter ws → s.mem.scatter s.taken ws = s.mem.scatter t.taken ws)
    (hx : exec i s = .next s') :
    ∃ t', exec i t = .next t' ∧ s'.agreeOnWritten t' := by
  have ⟨_, _, _, _, _, hm, _⟩ := h
  refine ⟨_, exec_eq i t, ?_⟩
  rw [eq_apply_of_exec hx, ← State.outcome_congr hm hop]
  exact Effect.agreeOnWritten_apply h _ hsc

/-- No instruction touches the count of inputs. -/
theorem taken_of_exec {i : Instr} (hx : exec i s = .next s') : s'.taken = s.taken := by
  rw [eq_apply_of_exec hx, Effect.apply_taken]

theorem State.agreeOnWritten_takeInput (h : s.agreeOnWritten t) (rest : List HostInput) :
    (s.takeInput rest).agreeOnWritten (t.takeInput rest) := by
  obtain ⟨hr, hcf, hxr, hfsr, hfinfo, hm, -⟩ := h
  exact ⟨hr, hcf, hxr, hfsr, hfinfo, hm, rfl⟩

theorem State.agreeOnWritten_resetInput (h : s.agreeOnWritten t) :
    s.resetInput.agreeOnWritten t.resetInput := by
  obtain ⟨-, -, -, -, -, hm, hi⟩ := h
  exact ⟨fun _ => VReg.agree_refl _, ⟨rfl, fun _ => rfl⟩, ⟨rfl, fun _ => rfl⟩, rfl, rfl, hm, hi⟩

/-- A beat keeps two states in agreement that draw the same free values. -/
theorem runBeat_agreeOnWritten {b : Beat} (h : s.agreeOnWritten t) (hn : s.taken = t.taken)
    (hx : runBeat b s = .next s') :
    ∃ t', runBeat b t = .next t' ∧ s'.agreeOnWritten t' ∧ s'.taken = t'.taken := by
  have ⟨_, _, _, hfsr, _, _, _⟩ := h
  have hf : s.faulted = t.faulted := congrArg (BitVec.getLsbD · 0) hfsr
  rcases runBeat_cases b s with ⟨hs, e⟩ | ⟨hs, ⟨d, hd⟩, e⟩ | ⟨i, hs, hd, e⟩ <;> rw [e] at hx
  · cases hx
    exact ⟨t, runBeat_of_faulted (hf ▸ hs) b, h, hn⟩
  · cases hx
    exact ⟨t.raiseFault .illegal b.w, runBeat_of_decode_error (hf ▸ hs) hd,
      Effect.agreeOnWritten_apply h (.fault .illegal b.w) nofun, hn⟩
  · have hop : lanesAgree s.operand t.operand i.sources := fun _ _ _ => by
      rw [State.operand_of_agree h hn]
    obtain ⟨t', ht, ha⟩ := exec_agreeOnWritten h hop (fun ws _ => by rw [hn]) hx
    exact ⟨t', (runBeat_of_decode (hf ▸ hs) hd).trans ht, ha,
      by rw [taken_of_exec hx, taken_of_exec ht, hn]⟩

/-- A step keeps two states in agreement that draw the same free values. -/
theorem step_agreeOnWritten (h : s.agreeOnWritten t) (hn : s.taken = t.taken) (hx : step s = .next s') :
    ∃ t', step t = .next t' ∧ s'.agreeOnWritten t' ∧ s'.taken = t'.taken := by
  have ⟨_, _, _, _, _, _, hi⟩ := h
  rcases hs : s.inputs with _ | ⟨b | _, rest⟩ <;> rw [hs] at hi
  · rw [step_idle hs] at hx
    cases hx
    exact ⟨t, step_idle hi.symm, h, hn⟩
  · rw [step_beat hs] at hx
    rw [step_beat hi.symm]
    exact runBeat_agreeOnWritten (State.agreeOnWritten_takeInput h rest) (congrArg (· + 1) hn) hx
  · rw [step_reset hs] at hx
    cases hx
    exact ⟨_, step_reset hi.symm,
      State.agreeOnWritten_resetInput (State.agreeOnWritten_takeInput h rest), congrArg (· + 1) hn⟩

/-- An instruction that reads written lanes only, and whose writes do not overlap, keeps two states in
agreement whatever the free values. -/
theorem exec_agreeOnWritten_of_readsWritten {i : Instr} (h : s.agreeOnWritten t)
    (hr : s.readsWritten i = true) (hd : writesDisjoint i) (hx : exec i s = .next s') :
    ∃ t', exec i t = .next t' ∧ s'.agreeOnWritten t' := by
  have hop : lanesAgree s.operand t.operand i.sources := fun j rk hrk =>
    State.lane_operand_of_agree h (List.all_eq_true.mp hr rk hrk) j
  exact exec_agreeOnWritten h hop
    (fun ws ho => State.scatter_of_outcome ho hd s.taken t.taken) hx

end Step

/-- Settles O23. With the same free values every operand reads alike, so a step does the same in both states;
without, the lanes that are read do, and disjoint writes leave no free choice. -/
theorem definedResultsIgnoreUnwritten : Obligations.DefinedResultsIgnoreUnwritten :=
  ⟨fun s j _ _ hw => State.lane_operand_of_written s hw j,
    fun _ _ _ h hn hx => step_agreeOnWritten h hn hx,
    fun _ _ _ _ h hr hd hx => exec_agreeOnWritten_of_readsWritten h hr hd hx⟩

end Sys2Proof.Machine
end

