-- ==== Sys2Proof/Proofs/ByteWrites.lean ====
section
/-! SUPPORT. The byte writes of an effect: which bytes it carries to which address. Memory after an effect
holds at each written address one of the bytes carried there, and is unchanged elsewhere (20_memory.md R61,
R67). -/

namespace Sys2Proof.Machine

/-! ## Bytes at rising addresses -/

/-- The bytes of a list with the addresses they go to, modulo 2^32 (20_memory.md R50). -/
def bytesAt (a : Word) : List Byte → List (Word × Byte)
  | [] => []
  | b :: bs => (a, b) :: bytesAt (a + 1) bs

theorem bytesAt_append (a : Word) (bs bs' : List Byte) :
    bytesAt a (bs ++ bs') = bytesAt a bs ++ bytesAt (a + BitVec.ofNat 32 bs.length) bs' := by
  induction bs generalizing a with
  | nil => simp [bytesAt]
  | cons b bs ih =>
    have hadd : a + 1 + BitVec.ofNat 32 bs.length = a + BitVec.ofNat 32 (b :: bs).length := by
      rw [List.length_cons, BitVec.ofNat_add, BitVec.add_comm (BitVec.ofNat 32 bs.length),
        ← BitVec.add_assoc]
      rfl
    rw [List.cons_append, bytesAt, ih, hadd]
    rfl

/-- Byte `j` of the list goes `j` addresses up. -/
theorem mem_bytesAt {a a' : Word} {bs : List Byte} {b : Byte} :
    (a', b) ∈ bytesAt a bs ↔ ∃ j : Nat, a' = a + BitVec.ofNat 32 j ∧ bs[j]? = some b := by
  induction bs generalizing a with
  | nil => simp [bytesAt]
  | cons c bs ih =>
    have hsucc (j : Nat) : a + BitVec.ofNat 32 (j + 1) = a + 1 + BitVec.ofNat 32 j := by
      rw [BitVec.ofNat_add, BitVec.add_comm (BitVec.ofNat 32 j), ← BitVec.add_assoc]
      rfl
    rw [bytesAt, List.mem_cons, ih]
    constructor
    · rintro (h | ⟨j, rfl, hj⟩)
      · cases h
        exact ⟨0, by simp, rfl⟩
      · exact ⟨j + 1, (hsucc j).symm, hj⟩
    · rintro ⟨j, rfl, hj⟩
      cases j with
      | zero => exact .inl (by simpa using hj.symm)
      | succ j => exact .inr ⟨j, hsucc j, hj⟩

/-- The addresses are those at an offset below the length. -/
theorem mem_bytesAt_addresses {a a' : Word} {bs : List Byte} :
    a' ∈ (bytesAt a bs).map Prod.fst ↔ (a' - a).toNat < bs.length := by
  constructor
  · intro h
    obtain ⟨⟨_, b⟩, hmem, rfl⟩ := List.mem_map.mp h
    obtain ⟨j, rfl, hj⟩ := mem_bytesAt.mp hmem
    have hlt : j < bs.length := (List.getElem?_eq_some_iff.mp hj).1
    rw [BitVec.add_comm, BitVec.add_sub_cancel, BitVec.toNat_ofNat]
    exact (Nat.mod_le j _).trans_lt hlt
  · intro h
    refine List.mem_map.mpr ⟨(a', bs[(a' - a).toNat]), mem_bytesAt.mpr ⟨(a' - a).toNat, ?_, ?_⟩, rfl⟩
    · rw [BitVec.ofNat_toNat, BitVec.setWidth_eq, BitVec.add_comm, BitVec.sub_add_cancel]
    · exact List.getElem?_eq_getElem h

/-- The byte writes of word writes, word by word. -/
theorem byteWrites_eq_flatMap (ws : List (Word × Word)) :
    byteWrites ws = ws.flatMap fun w => bytesAt w.1 (wordBytes w.2) := by
  unfold byteWrites
  congr 1
  funext w
  simp [wordBytes, bytesAt, BitVec.add_assoc]

/-! ## Memory after the writes of one command -/

/-- Memory `m'` comes from `m` by these byte writes: a byte that some of them cover ends with what one of
those carries, every other keeps its value and whether it has been written. -/
def Memory.wroteOneOf (m m' : Memory) (cs : List (Word × Byte)) : Prop :=
  ∀ a : Word, (a, m'.byteAt a) ∈ cs ∨
    a ∉ cs.map Prod.fst ∧ m'.find a.toNat = m.find a.toNat

theorem Memory.byteAt_congr {m m' : Memory} {a : Word} (h : m'.find a.toNat = m.find a.toNat) :
    m'.byteAt a = m.byteAt a := by
  rw [Memory.byteAt, Memory.byteAt, h]

theorem Memory.wroteOneOf_nil (m : Memory) : m.wroteOneOf m [] := fun _ =>
  .inr ⟨List.not_mem_nil, rfl⟩

/-- Writes one after the other: what the later ones do not cover is left from the earlier ones. -/
theorem Memory.wroteOneOf_append {m m' m'' : Memory} {cs ds : List (Word × Byte)}
    (h : m.wroteOneOf m' cs) (h' : m'.wroteOneOf m'' ds) : m.wroteOneOf m'' (cs ++ ds) := by
  intro a
  rcases h' a with hd | ⟨hd, hfind'⟩
  · exact .inl (List.mem_append_right cs hd)
  · rcases h a with hc | ⟨hc, hfind⟩
    · exact .inl (List.mem_append_left ds (Memory.byteAt_congr hfind' ▸ hc))
    · have hcd : a ∉ (cs ++ ds).map Prod.fst := by
        rw [List.map_append, List.mem_append]
        exact fun e => e.elim hc hd
      exact .inr ⟨hcd, hfind'.trans hfind⟩

theorem Memory.wroteOneOf_put (m : Memory) (a : Word) (b : Byte) :
    m.wroteOneOf (m.put a.toNat b) [(a, b)] := by
  intro a'
  by_cases h : a = a'
  · subst h
    exact .inl (by simp [Memory.byteAt_put])
  · have hn : a.toNat ≠ a'.toNat := fun e => h (BitVec.toNat_inj.mp e)
    exact .inr ⟨by simpa using Ne.symm h, by rw [Memory.find_put, if_neg hn]⟩

theorem Memory.wroteOneOf_writeBytes (m : Memory) (a : Word) (bs : List Byte) :
    m.wroteOneOf (m.writeBytes a bs) (bytesAt a bs) := by
  induction bs generalizing m a with
  | nil => exact Memory.wroteOneOf_nil m
  | cons b bs ih => exact Memory.wroteOneOf_append (Memory.wroteOneOf_put m a b) (ih _ (a + 1))

theorem Memory.wroteOneOf_writeVecs (m : Memory) (ws : List (Word × Vec)) :
    m.wroteOneOf (m.writeVecs ws) (ws.flatMap fun w => bytesAt w.1 (vecBytes w.2)) := by
  induction ws generalizing m with
  | nil => exact Memory.wroteOneOf_nil m
  | cons w ws ih =>
    exact Memory.wroteOneOf_append (Memory.wroteOneOf_writeBytes m w.1 (vecBytes w.2)) (ih _)

/-- Byte writes in order, each carrying the byte that `f` gives its address. -/
theorem Memory.wroteOneOf_foldl_put (f : Word → Byte) (m : Memory) (cs : List (Word × Byte)) :
    m.wroteOneOf (cs.foldl (fun m c => m.put c.1.toNat (f c.1)) m) (cs.map fun c => (c.1, f c.1)) := by
  induction cs generalizing m with
  | nil => exact Memory.wroteOneOf_nil m
  | cons c cs ih => exact Memory.wroteOneOf_append (Memory.wroteOneOf_put m c.1 (f c.1)) (ih _)

/-- The writes of a transposed store, whatever the free choices (20_memory.md R67). -/
theorem Memory.wroteOneOf_scatter (m : Memory) (n : Nat) (ws : List (Word × Word)) :
    m.wroteOneOf (m.scatter n ws) (byteWrites ws) := by
  intro a
  rcases Memory.wroteOneOf_foldl_put (resolveByte n (byteWrites ws)) m (byteWrites ws) a with
    h | ⟨h, hfind⟩
  · obtain ⟨c, hc, heq⟩ := List.mem_map.mp h
    obtain ⟨rfl, hb⟩ := Prod.mk.inj heq
    have hcov := resolveByte_mem n (List.mem_map_of_mem (f := Prod.fst) hc)
    obtain ⟨⟨a', b⟩, hmem, hval⟩ := List.mem_map.mp hcov
    obtain ⟨hmem, ha⟩ := List.mem_filter.mp hmem
    obtain rfl : a' = c.1 := by simpa using ha
    exact .inl ((hval.trans hb : b = _) ▸ hmem)
  · exact .inr ⟨by simpa [List.map_map] using h, hfind⟩

/-! ## The byte writes of an effect -/

/-- The byte writes an effect makes. -/
def Effect.byteWrites : Effect → List (Word × Byte)
  | .store ws => ws.flatMap fun w => bytesAt w.1 (vecBytes w.2)
  | .scatter ws => Machine.byteWrites ws
  | .fault .. | .regs .. | .lane .. | .cf .. | .xr .. => []

/-- Everything an effect does to memory. -/
theorem Effect.wroteOneOf_apply (e : Effect) (s : State) :
    s.mem.wroteOneOf (e.apply s).mem e.byteWrites := by
  cases e with
  | store ws => exact Memory.wroteOneOf_writeVecs s.mem ws
  | scatter ws => exact Memory.wroteOneOf_scatter s.mem s.taken ws
  | regs | fault | lane | cf | xr => exact Memory.wroteOneOf_nil s.mem

end Sys2Proof.Machine
end

