-- ==== Sys2Proof/Proofs/Port.lean ====
section
/-! SUPPORT. What an instruction does on the memory port is what its effect does to memory (20_memory.md R55,
10_state.md R34): the write accesses carry exactly the byte writes of the effect. -/

namespace Sys2Proof.Machine

/-! ## The transfers of an instruction -/

/-- The reads come before the writes (20_memory.md R61). -/
theorem portAccesses_reads_append_writes (i : Instr) :
    (portAccesses i).filter (!·.write) ++ (portAccesses i).filter (·.write) = portAccesses i := by
  cases i <;> rfl

/-- Each write request carries as many bytes as its access says. -/
theorem writeData_sizes (s : State) (i : Instr) :
    (s.writeData i).map List.length = ((portAccesses i).filter (·.write)).map (·.size) := by
  cases i <;> rfl

@[simp] theorem Memory.readBytes_length (m : Memory) (a : Word) (n : Nat) :
    (m.readBytes a n).length = n := by
  simp [Memory.readBytes]

theorem Memory.readBytes_getElem? (m : Memory) (a : Word) {n j : Nat} (h : j < n) :
    (m.readBytes a n)[j]? = some (m.byteAt (a + BitVec.ofNat 32 j)) := by
  simp [Memory.readBytes, h]

/-- Write requests zipped from accesses and data of their sizes: one access of the list each, with as many
bytes as its size. -/
theorem mem_zipWith_portTransfer {ps : List PortAccess} {ds : List (List Byte)} {x : PortTransfer}
    (hs : ds.map List.length = ps.map (·.size)) (hx : x ∈ ps.zipWith PortTransfer.mk ds) :
    x.access ∈ ps ∧ x.data.length = x.access.size := by
  obtain ⟨n, hn, rfl⟩ := List.mem_iff_getElem.mp hx
  rw [List.getElem_zipWith]
  have hn' : n < ps.length ∧ n < ds.length := by simpa using hn
  have hsize : (ds.map List.length)[n]? = (ps.map (·.size))[n]? := by rw [hs]
  exact ⟨List.getElem_mem _, by simpa [hn'.1, hn'.2] using hsize⟩

theorem portTransfers_accesses (s : State) (i : Instr) :
    (s.portTransfers i).map (·.access) = portAccesses i := by
  have hr : (((portAccesses i).filter (!·.write)).map
      fun p => PortTransfer.mk p (s.mem.readBytes p.addr p.size)).map (·.access) =
      (portAccesses i).filter (!·.write) := by
    rw [List.map_map]
    exact List.map_id _
  have hw : (((portAccesses i).filter (·.write)).zipWith PortTransfer.mk (s.writeData i)).map
      (·.access) = (portAccesses i).filter (·.write) := by
    rw [← List.map_uncurry_zip_eq_zipWith, List.map_map]
    exact List.map_fst_zip (writeData_length s i).ge
  rw [State.portTransfers, List.map_append, hr, hw, portAccesses_reads_append_writes]

/-- A transfer is a read of what memory holds, or a write request with as many bytes as its access says. -/
theorem portTransfer_cases {s : State} {i : Instr} {x : PortTransfer} (hx : x ∈ s.portTransfers i) :
    (x.access.write = false ∧ x.data = s.mem.readBytes x.access.addr x.access.size) ∨
    (x.access.write = true ∧ x.data.length = x.access.size) := by
  rw [State.portTransfers, List.mem_append] at hx
  rcases hx with hx | hx
  · obtain ⟨p, hp, rfl⟩ := List.mem_map.mp hx
    exact .inl ⟨by simpa using (List.mem_filter.mp hp).2, rfl⟩
  · obtain ⟨hmem, hsize⟩ := mem_zipWith_portTransfer (writeData_sizes s i) hx
    exact .inr ⟨(List.mem_filter.mp hmem).2, hsize⟩

theorem portTransfer_data_length {s : State} {i : Instr} {x : PortTransfer}
    (hx : x ∈ s.portTransfers i) : x.data.length = x.access.size := by
  rcases portTransfer_cases hx with ⟨-, hd⟩ | ⟨-, hd⟩
  · rw [hd, Memory.readBytes_length]
  · exact hd

/-! ## The byte writes that the write requests carry -/

/-- The bytes that an instruction's write requests carry, each with its address. -/
def State.portByteWrites (s : State) (i : Instr) : List (Word × Byte) :=
  ((s.portTransfers i).filter (·.access.write)).flatMap fun x => bytesAt x.access.addr x.data

theorem mem_portByteWrites {s : State} {i : Instr} {a : Word} {b : Byte} :
    (a, b) ∈ s.portByteWrites i ↔ ∃ x ∈ s.portTransfers i, ∃ j : Nat, x.access.write = true ∧
      a = x.access.addr + BitVec.ofNat 32 j ∧ x.data[j]? = some b := by
  simp only [State.portByteWrites, List.mem_flatMap, List.mem_filter, mem_bytesAt, and_assoc,
    exists_and_left]

/-- The addresses written are those that the write accesses cover. -/
theorem mayStore_iff (s : State) (i : Instr) (a : Word) :
    mayStore i a = true ↔ a ∈ (s.portByteWrites i).map Prod.fst := by
  have hcov {x : PortTransfer} (hx : x ∈ s.portTransfers i) :
      x.access.covers a = true ↔ a ∈ (bytesAt x.access.addr x.data).map Prod.fst := by
    rw [mem_bytesAt_addresses, portTransfer_data_length hx, PortAccess.covers, decide_eq_true_iff]
  rw [mayStore, ← portTransfers_accesses s i, List.any_map, List.any_eq_true, State.portByteWrites,
    List.map_flatMap, List.mem_flatMap]
  constructor
  · rintro ⟨x, hx, h⟩
    obtain ⟨hw, hc⟩ := Bool.and_eq_true_iff.mp h
    exact ⟨x, List.mem_filter.mpr ⟨hx, hw⟩, (hcov hx).mp hc⟩
  · rintro ⟨x, hx, ha⟩
    obtain ⟨hx, hw⟩ := List.mem_filter.mp hx
    exact ⟨x, hx, Bool.and_eq_true_iff.mpr ⟨hw, (hcov hx).mpr ha⟩⟩

/-- A transposed store writes at each pointer the words of that structure, one after the other. -/
theorem byteWrites_scatterWrites (ptrs : Quad Word) (rs : List Vec) :
    byteWrites (scatterWrites ptrs rs) = (List.finRange 4).flatMap fun p =>
      bytesAt (ptrs.lane p) (rs.flatMap fun r => wordBytes (r.lane p)) := by
  have hp (p : Fin 4) (k : Nat) (rs : List Vec) :
      ((rs.zipIdx k).flatMap fun r => bytesAt (elementAddr (ptrs.lane p) r.2) (wordBytes (r.1.lane p))) =
        bytesAt (elementAddr (ptrs.lane p) k) (rs.flatMap fun r => wordBytes (r.lane p)) := by
    induction rs generalizing k with
    | nil => rfl
    | cons r rs ih =>
      rw [List.zipIdx_cons, List.flatMap_cons, List.flatMap_cons, ih, bytesAt_append,
        wordBytes_length, elementAddr_add_ofNat]
      rfl
  rw [byteWrites_eq_flatMap, scatterWrites, List.flatMap_assoc]
  congr 1
  funext p
  rw [List.flatMap_map]
  exact (hp p 0 rs).trans (congrArg (bytesAt · _) (BitVec.add_zero _))

/-- The write requests carry what the instruction writes: each byte of its effect, and no other. -/
theorem effectOf_byteWrites (s : State) (i : Instr) :
    (effectOf s.operand s.mem i).byteWrites = s.portByteWrites i := by
  cases i
  case st4x1tr | st4x2tr | st4x4tr =>
    exact byteWrites_scatterWrites _ _
  case st4x3tr va vb vc ptrs =>
    -- The third word of a structure is an access of its own.
    have hsplit (p : Fin 4) :
        bytesAt (ptrs.lane p) ([s.operand 0 va, s.operand 1 vb, s.operand 2 vc].flatMap
          fun r => wordBytes (r.lane p)) =
        bytesAt (ptrs.lane p) (wordBytes ((s.operand 0 va).lane p) ++
          wordBytes ((s.operand 1 vb).lane p)) ++
        bytesAt (elementAddr (ptrs.lane p) 2) (wordBytes ((s.operand 2 vc).lane p)) :=
      bytesAt_append (ptrs.lane p)
        (wordBytes ((s.operand 0 va).lane p) ++ wordBytes ((s.operand 1 vb).lane p)) _
    exact (byteWrites_scatterWrites _ _).trans
      (congrArg (List.flatMap · (List.finRange 4)) (funext hsplit))
  all_goals rfl

/-! ## The memory of an instruction -/

/-- Everything an instruction that does not fault does to memory: what its write requests carry. -/
theorem wroteOneOf_of_exec {i : Instr} {s t : State} (hf : s.faultOf i = none)
    (h : exec i s = .next t) : s.mem.wroteOneOf t.mem (s.portByteWrites i) := by
  rw [eq_apply_of_exec h, State.outcome_of_no_fault hf, ← effectOf_byteWrites]
  exact Effect.wroteOneOf_apply _ s

/-- A byte that no write access covers keeps its value and whether it has been written, in a fault as
well. -/
theorem find_of_exec_of_not_mayStore {i : Instr} {s t : State} (h : exec i s = .next t) {a : Word}
    (ha : mayStore i a = false) : t.mem.find a.toNat = s.mem.find a.toNat := by
  rcases s.outcome_cases i with ⟨c, info, -, ho⟩ | ⟨hf, -⟩
  · rw [eq_apply_of_exec h, ho]
    rfl
  · rcases wroteOneOf_of_exec hf h a with hmem | ⟨-, hfind⟩
    · have hcov := (mayStore_iff s i a).mpr (List.mem_map_of_mem hmem)
      rw [ha] at hcov
      cases hcov
    · exact hfind

/-- A byte that a write access covers ends with a byte that a write request carries there. -/
theorem mem_portByteWrites_of_exec {i : Instr} {s t : State} (hf : s.faultOf i = none)
    (h : exec i s = .next t) {a : Word} (ha : mayStore i a = true) :
    (a, t.mem.byteAt a) ∈ s.portByteWrites i :=
  (wroteOneOf_of_exec hf h a).resolve_right fun hn => hn.1 ((mayStore_iff s i a).mp ha)

/-- Settles O21. The write requests carry the byte writes of the instruction's effect, and memory comes from
those alone. -/
theorem storesOnlyWhereWriteAccessesCover : Obligations.StoresOnlyWhereWriteAccessesCover := by
  refine ⟨fun i s t h => ⟨?_, taken_of_exec h, fun a ha => ?_⟩, fun i s t hf h a ha => ?_,
    fun i s => ⟨portTransfers_accesses s i, fun x hx => ⟨portTransfer_data_length hx, ?_⟩⟩⟩
  · rw [eq_apply_of_exec h, Effect.apply_inputs]
  · have hfind := find_of_exec_of_not_mayStore h ha
    exact ⟨Memory.byteAt_congr hfind, hfind⟩
  · exact mem_portByteWrites.mp (mem_portByteWrites_of_exec hf h ha)
  · intro hw j hj
    rcases portTransfer_cases hx with ⟨-, hd⟩ | ⟨hw', -⟩
    · rw [hd, Memory.readBytes_getElem? _ _ hj]
    · rw [hw] at hw'
      cases hw'

/-! ## The accesses of the next step -/

/-- An accepted beat that does not fault makes the transfers of its instruction. -/
theorem stepTransfers_of_decode {s : State} {b : Beat} {rest : List HostInput} {i : Instr}
    (hi : s.inputs = .beat b :: rest) (hf : s.faulted = false) (hd : decode b = .ok i)
    (hn : (s.takeInput rest).faultOf i = none) :
    s.stepTransfers = (s.takeInput rest).portTransfers i := by
  simp [State.stepTransfers, hi, hf, hd, hn]

/-- The opcodes of the memory instructions (30_encoding.md R86); no other instruction makes an access. -/
theorem portAccesses_of_opcode {i : Instr} (h : i.opcode ∉ [0x10, 0x11, 0x12, 0x13, 0x14, 0x15, 0x16,
    0x17, 0x18, 0x19, 0x1A, 0x1B, 0x1C, 0x1D, 0x1E, 0x1F]) : portAccesses i = [] := by
  cases i
  case vld | vst | vsts | mcopy | mswap | minc | mdec | mscale | ld4x1tr | ld4x2tr | ld4x3tr | ld4x4tr
      | st4x1tr | st4x2tr | st4x3tr | st4x4tr =>
    exact absurd (by simp [Instr.opcode]) h
  all_goals rfl

/-- Settles O22. The table is `portAccesses` row by row. -/
theorem memoryPortAccesses : Obligations.MemoryPortAccesses := by
  refine ⟨fun s b rest i hi hf hd hn => ?_, fun _ _ _ _ _ _ _ _ _ _ => ?_,
    fun i h => portAccesses_of_opcode h⟩
  · have ht := stepTransfers_of_decode hi hf hd hn
    exact ⟨by rw [State.stepAccesses, ht, portTransfers_accesses], ht⟩
  · exact ⟨rfl, rfl, rfl, rfl, rfl, rfl, rfl, rfl, rfl, rfl, rfl, rfl, rfl, rfl, rfl, rfl⟩

end Sys2Proof.Machine
end

