-- ==== Sys2Proof/Proofs/Overlap.lean ====
section
/-! SUPPORT. Transposed stores whose writes may overlap (20_memory.md R67, log 5): the structures are what is
written, and each of their bytes ends with the byte of a write that covers it. -/

namespace Sys2Proof.Machine

theorem inStructures_iff {n : Nat} {ptrs : Quad Word} {a : Word} :
    inStructures n ptrs a = true ↔ ∃ p, (a - ptrs.lane p).toNat < n := by
  simp only [inStructures, List.any_eq_true, Quad.mem_toList, within, decide_eq_true_iff]
  exact ⟨fun ⟨_, ⟨p, hp⟩, h⟩ => ⟨p, hp ▸ h⟩, fun ⟨p, h⟩ => ⟨_, ⟨p, rfl⟩, h⟩⟩

/-- The bytes of `n` words in a row. -/
theorem flatMap_wordBytes_length (p : Fin 4) (rs : List Vec) :
    (rs.flatMap fun r => wordBytes (r.lane p)).length = 4 * rs.length := by
  simp [List.length_flatMap, Nat.mul_comm]

/-- A transposed store of `n` registers writes the `4n` bytes of each structure. -/
theorem mem_scatterWrites_addresses {ptrs : Quad Word} {rs : List Vec} {a : Word} :
    a ∈ (byteWrites (scatterWrites ptrs rs)).map Prod.fst ↔
      inStructures (4 * rs.length) ptrs a = true := by
  simp only [byteWrites_scatterWrites, List.map_flatMap, List.mem_flatMap, mem_bytesAt_addresses,
    flatMap_wordBytes_length, inStructures_iff, List.mem_finRange, true_and]

/-- The bytes of a word are its bytes 0 to 3. -/
theorem byteOf_of_wordBytes_getElem? {x : Word} {j : Nat} {b : Byte} (h : (wordBytes x)[j]? = some b) :
    ∃ j' : Fin 4, j = j' ∧ b = byteOf x j' := by
  have hj : j < 4 := (List.getElem?_eq_some_iff.mp h).1
  refine ⟨⟨j, hj⟩, rfl, ?_⟩
  match j, hj with
  | 0, _ | 1, _ | 2, _ | 3, _ => exact (Option.some.inj h).symm

/-- A byte write of a transposed store is byte `j` of lane `p` of its register `k`, at element `k` of
pointer `p`. -/
theorem exists_of_mem_scatterWrites {ptrs : Quad Word} {rs : List Vec} {a : Word} {b : Byte}
    (h : (a, b) ∈ byteWrites (scatterWrites ptrs rs)) :
    ∃ (p j : Fin 4) (k : Fin rs.length), a = elementAddr (ptrs.lane p) k + BitVec.ofNat 32 j ∧
      b = byteOf (rs[k].lane p) j := by
  rw [byteWrites_eq_flatMap] at h
  obtain ⟨_, hw, hb⟩ := List.mem_flatMap.mp h
  obtain ⟨p, -, hw⟩ := List.mem_flatMap.mp hw
  obtain ⟨⟨r, k⟩, hr, rfl⟩ := List.mem_map.mp hw
  obtain ⟨hk, hrk⟩ := List.getElem?_eq_some_iff.mp (List.mem_zipIdx_iff_getElem?.mp hr)
  obtain ⟨j, ha, hj⟩ := mem_bytesAt.mp hb
  obtain ⟨j', rfl, hb⟩ := byteOf_of_wordBytes_getElem? hj
  exact ⟨p, j', ⟨k, hk⟩, ha, hrk ▸ hb⟩

/-- A row that scatters registers with these values, whatever the pointers and the free choices: only the
structures change, and each of their bytes ends with the byte of a write that covers it. -/
theorem scatter_keeps_one_write {i : Instr} {s : State} {ptrs : Quad Word} {rs : List Vec}
    (v : Fin rs.length → Vec) (hv : ∀ k : Fin rs.length, rs[k] = v k)
    (hx : exec i s = .next (s.scatter (scatterWrites ptrs rs))) :
    ∃ t, exec i s = .next t ∧ s.storesOnly t (inStructures (4 * rs.length) ptrs) ∧
      ∀ a, inStructures (4 * rs.length) ptrs a = true →
        ∃ (p j : Fin 4) (k : Fin rs.length), a = elementAddr (ptrs.lane p) k + BitVec.ofNat 32 j ∧
          t.mem.byteAt a = byteOf ((v k).lane p) j := by
  have hw := Memory.wroteOneOf_scatter s.mem s.taken (scatterWrites ptrs rs)
  refine ⟨_, hx, ⟨rfl, fun a ha => ?_⟩, fun a ha => ?_⟩
  · rcases hw a with hmem | ⟨-, hfind⟩
    · have hin := mem_scatterWrites_addresses.mp (List.mem_map_of_mem hmem)
      rw [ha] at hin
      cases hin
    · exact Memory.byteAt_congr hfind
  · obtain ⟨p, j, k, hk, hb⟩ := exists_of_mem_scatterWrites
      ((hw a).resolve_right fun hn => hn.1 (mem_scatterWrites_addresses.mpr ha))
    exact ⟨p, j, k, hk, hv k ▸ hb⟩

/-- Settles O35. With its pointers aligned each row is one scatter of its registers. -/
theorem overlappingStoresKeepOneWrite : Obligations.OverlappingStoresKeepOneWrite := by
  intro va vb vc vd ptrs s
  refine ⟨?_, fun hal => ?_, fun hal => ?_, fun hal => ?_⟩
  · obtain ⟨t, hx, hs, hb⟩ := scatter_keeps_one_write (i := .st4x1tr va ptrs)
      (rs := [s.operand 0 va]) (fun _ => s.operand 0 va) (fun k => match k with | 0 => rfl) rfl
    refine ⟨t, hx, hs, fun a ha => ?_⟩
    obtain ⟨p, j, k, ha, hb⟩ := hb a ha
    have hk : k.val = 0 := Nat.lt_one_iff.mp k.isLt
    exact ⟨p, j, by simpa [elementAddr, hk] using ha, hb⟩
  · exact scatter_keeps_one_write (rs := [s.operand 0 va, s.operand 1 vb])
      (fun k => s.operand k (if k = 0 then va else vb)) (fun k => match k with | 0 | 1 => rfl)
      (whenAligned_of_aligned hal _ _)
  · exact scatter_keeps_one_write (rs := [s.operand 0 va, s.operand 1 vb, s.operand 2 vc])
      (fun k => s.operand k (if k = 0 then va else if k = 1 then vb else vc))
      (fun k => match k with | 0 | 1 | 2 => rfl) (whenAligned_of_aligned hal _ _)
  · exact scatter_keeps_one_write
      (rs := [s.operand 0 va, s.operand 1 vb, s.operand 2 vc, s.operand 3 vd])
      (fun k => s.operand k ((⟨va, vb, vc, vd⟩ : Quad Reg).lane k))
      (fun k => match k with | 0 | 1 | 2 | 3 => rfl) (whenAligned_of_aligned hal _ _)

end Sys2Proof.Machine
end

