-- ==== Sys2Proof/Proofs/Encoding.lean ====
section
/-! SUPPORT. What the decoder refuses (30_encoding.md R83, R87, R88) and what it accepts: a beat is refused
for its opcode, for a reserved bit or for its registers, and every well-formed instruction decodes from its
encoding. -/

namespace Sys2Proof.Machine

/-! ## The opcode map -/

/-- The opcode field of a command word has eight bits (R81). -/
theorem opcodeOf_lt (w : Word) : opcodeOf w < 256 := by
  have := w.isLt
  rw [opcodeOf]
  omega

/-- The opcodes without a row are the ones of R87's list: each row's opcode is off the list, and one that
is no row's lies in a gap of it. -/
theorem opcodeRow_eq_none_iff {op : Nat} (h : op < 256) :
    opcodeRow op = none ↔ unassignedOpcode op = true := by
  unfold opcodeRow
  split
  case h_78 =>
    refine iff_of_true rfl ?_
    simp only [unassignedOpcode, Bool.or_eq_true, Bool.and_eq_true, beq_iff_eq, decide_eq_true_iff]
    simp only [imp_false] at *
    omega
  all_goals exact ⟨nofun, nofun⟩

/-- A beat without a row is refused for its opcode. -/
theorem decode_of_unassigned {b : Beat} (h : unassignedOpcode (opcodeOf b.w) = true) :
    decode b = .error .unassignedOpcode := by
  rw [decode, (opcodeRow_eq_none_iff (opcodeOf_lt b.w)).mpr h]

/-- Settles O4. An opcode of the list has no row, so the decoder refuses the word. -/
theorem unassignedOpcodesIllegal : Obligations.UnassignedOpcodesIllegal :=
  have illegal : ∀ (b : Beat) (s : State), unassignedOpcode (opcodeOf b.w) = true →
      s.faulted = false → runBeat b s = .next (s.raiseFault .illegal b.w) :=
    fun _ _ h hf => runBeat_of_decode_error hf (decode_of_unassigned h)
  have allZero : unassignedOpcode (opcodeOf 0x00000000#32) = true := by decide
  have allOnes : unassignedOpcode (opcodeOf 0xFFFFFFFF#32) = true := by decide
  ⟨fun _ h => (opcodeRow_eq_none_iff h).symm, illegal,
    fun x s hf =>
      ⟨illegal ⟨0x00000000#32, x⟩ s allZero hf, illegal ⟨0xFFFFFFFF#32, x⟩ s allOnes hf⟩⟩

/-! ## Reserved bits -/

/-- The `k` bits of `n` from bit `lo` on are zero exactly if the mask of these bits meets none. -/
theorem bits_eq_zero_iff_and_mask (n lo k : Nat) :
    n % 2 ^ (lo + k) / 2 ^ lo = 0 ↔ n &&& (2 ^ k - 1) <<< lo = 0 := by
  have bits : n % 2 ^ (lo + k) / 2 ^ lo = n >>> lo &&& (2 ^ k - 1) := by
    rw [pow_add, Nat.mod_mul_right_div_self, Nat.shiftRight_eq_div_pow, Nat.and_two_pow_sub_one_eq_mod]
  have mask : n &&& (2 ^ k - 1) <<< lo = (n >>> lo &&& (2 ^ k - 1)) <<< lo := by
    refine Nat.eq_of_testBit_eq fun j => ?_
    rcases Nat.lt_or_ge j lo with hj | hj
    · simp [Nat.not_le.mpr hj]
    · simp [hj, Bool.and_comm]
  rw [bits, mask, Nat.shiftLeft_eq_zero_iff]

/-- The decoder's check of a format's reserved bits is the check against their mask (R82). -/
theorem reservedBitsZero_iff (fmt : Format) (w : Word) :
    reservedBitsZero fmt w = true ↔ w &&& reservedMask fmt = 0 := by
  have field := bits_eq_zero_iff_and_mask w.toNat
  rw [← BitVec.toNat_inj, BitVec.toNat_and]
  cases fmt with
  | z => simpa [reservedBitsZero, reservedMask] using field 0 24
  | r1 => simpa [reservedBitsZero, reservedMask] using field 0 20
  | r2 => simpa [reservedBitsZero, reservedMask] using field 0 16
  | r3 => simpa [reservedBitsZero, reservedMask] using field 0 12
  | r4 => simpa [reservedBitsZero, reservedMask] using field 0 8
  | r1i => simpa [reservedBitsZero, reservedMask] using field 2 18
  | r2i2 => simpa [reservedBitsZero, reservedMask] using field 2 14
  | r2i8 => simpa [reservedBitsZero, reservedMask] using field 8 8

/-- A beat with a reserved bit set is refused for it, whatever its registers are. -/
theorem decode_of_reservedBit {b : Beat} {fmt : Format} {make : Fields → Instr}
    (hr : opcodeRow (opcodeOf b.w) = some (fmt, make)) (hb : b.w &&& reservedMask fmt ≠ 0) :
    decode b = .error .reservedBit := by
  have hz : ¬ reservedBitsZero fmt b.w = true := fun h => hb ((reservedBitsZero_iff fmt b.w).mp h)
  rw [decode, hr]
  exact if_neg hz

/-- Settles O5. The decoder looks at the reserved bits before the registers. -/
theorem reservedBitsIllegal : Obligations.ReservedBitsIllegal :=
  fun _ _ _ _ hr hb hf => runBeat_of_decode_error hf (decode_of_reservedBit hr hb)

/-! ## Reserved register combinations -/

/-- The row of an instruction's opcode has its format and makes it from its fields (R86). -/
theorem opcodeRow_opcode (i : Instr) :
    ∃ make, opcodeRow i.opcode = some (i.format, make) ∧ make i.fields = i := by
  cases i
  case vsplat vd va n => exact ⟨_, rfl, congrArg (Instr.vsplat vd va) (laneIndex_ofNat ..)⟩
  case lget va n => exact ⟨_, rfl, congrArg (Instr.lget va) (laneIndex_ofNat ..)⟩
  case lset vd n x => exact ⟨_, rfl, congrArg (Instr.lset vd · x) (laneIndex_ofNat ..)⟩
  all_goals exact ⟨_, rfl, rfl⟩

/-- An instruction's command word has the reserved bits of its format zero (R82): the fields that the format
does not use are zero in `Instr.fields`. -/
theorem reservedBitsZero_encode (i : Instr) : reservedBitsZero i.format (encode i).w = true := by
  obtain ⟨hz, hr1, hr2, hr3, hr4, -, -, -⟩ :=
    Laws.reserved_of_low i.opcode_lt (f := i.fields)
  cases i
  case vsplat => exact (Laws.EncodedFields.vsplat ..).2
  case vshuf => exact (Laws.EncodedFields.vshuf ..).2
  case lget => exact (Laws.EncodedFields.lget ..).2
  case lset => exact (Laws.EncodedFields.lset ..).2
  all_goals simp_all [Instr.format, Instr.fields, encode]

/-- A well-formed instruction decodes from its encoding (R80 to R89). -/
theorem decode_encode {i : Instr} (h : i.wellFormed = true) : decode (encode i) = .ok i := by
  obtain ⟨make, hr, hm⟩ := opcodeRow_opcode i
  exact (decode_ok_iff _ _).mpr ⟨i.format, make, (opcodeOf_encode i).symm ▸ hr,
    reservedBitsZero_encode i, (fieldsOf_encode i).symm ▸ hm, h⟩

/-- Only the six instructions of R88 have reserved register combinations. -/
theorem wellFormed_of_opcode {i : Instr}
    (h : i.opcode ∉ [0x06, 0x19, 0x1A, 0x1B, 0x2D, 0x2F]) : i.wellFormed = true := by
  cases i
  case vtrn | ld4x2tr | ld4x3tr | ld4x4tr | ipostinc | ipostdec => simp [Instr.opcode] at h
  all_goals rfl

section EncodesRow

variable {op : Nat} {a b c d : Reg} {i : BitVec 8} {ins : Quad Word → Instr}

/-- A beat of a row decodes to the row's instruction if that is well formed. -/
theorem encodesRow.decode_of_wellFormed (h : encodesRow op a b c d i ins) {x : Quad Word}
    (hw : (ins x).wellFormed = true) : decode (beatOf op a b c d i x) = .ok (ins x) :=
  (h x).trans (if_pos hw)

/-- A beat of a row raises ILLEGAL if the row's instruction is not well formed. -/
theorem encodesRow.runBeat_of_not_wellFormed (h : encodesRow op a b c d i ins) {x : Quad Word}
    {s : State} (hf : s.faulted = false) (hw : ¬ (ins x).wellFormed = true) :
    runBeat (beatOf op a b c d i x) s =
      .next (s.raiseFault .illegal (beatOf op a b c d i x).w) :=
  runBeat_of_decode_error hf ((h x).trans (if_neg hw))

end EncodesRow

/-! The rows of the six instructions (R86). -/

theorem encodesRow_vtrn (a b c d : Reg) : encodesRow 0x06 a b c d 0 fun _ => .vtrn a b c d :=
  encodesRow_r4 (by decide) rfl fun _ => rfl

theorem encodesRow_ld4x2tr (a b : Reg) : encodesRow 0x19 a b 0 0 0 (.ld4x2tr a b) :=
  encodesRow_r2 (by decide) rfl fun _ => rfl

theorem encodesRow_ld4x3tr (a b c : Reg) : encodesRow 0x1A a b c 0 0 (.ld4x3tr a b c) :=
  encodesRow_r3 (by decide) rfl fun _ => rfl

theorem encodesRow_ld4x4tr (a b c d : Reg) : encodesRow 0x1B a b c d 0 (.ld4x4tr a b c d) :=
  encodesRow_r4 (by decide) rfl fun _ => rfl

theorem encodesRow_ipostinc (a b : Reg) : encodesRow 0x2D a b 0 0 0 fun _ => .ipostinc a b :=
  encodesRow_r2 (by decide) rfl fun _ => rfl

theorem encodesRow_ipostdec (a b : Reg) : encodesRow 0x2F a b 0 0 0 fun _ => .ipostdec a b :=
  encodesRow_r2 (by decide) rfl fun _ => rfl

/-- Settles O6. Each of the six rows is its instruction when the registers differ and ILLEGAL when they do
not; every other instruction is well formed. -/
theorem reservedRegistersIllegal : Obligations.ReservedRegistersIllegal := by
  refine ⟨fun a b c d x s hf => ⟨fun h => ?_, fun h => ?_, fun h => ?_⟩,
    fun a b c d x => ⟨fun h => ?_, fun h => ?_, fun h => ?_⟩,
    fun i h => decode_encode (wellFormed_of_opcode h)⟩
  · have h : ¬ decide [a, b, c, d].Nodup = true := by simpa using h
    exact ⟨(encodesRow_vtrn a b c d).runBeat_of_not_wellFormed hf h,
      (encodesRow_ld4x4tr a b c d).runBeat_of_not_wellFormed hf h⟩
  · have h : ¬ decide [a, b, c].Nodup = true := by simpa using h
    exact (encodesRow_ld4x3tr a b c).runBeat_of_not_wellFormed hf h
  · have h : ¬ decide [a, b].Nodup = true := by simpa using h
    exact ⟨(encodesRow_ld4x2tr a b).runBeat_of_not_wellFormed hf h,
      (encodesRow_ipostinc a b).runBeat_of_not_wellFormed hf h,
      (encodesRow_ipostdec a b).runBeat_of_not_wellFormed hf h⟩
  · have h : decide [a, b, c, d].Nodup = true := decide_eq_true h
    exact ⟨(encodesRow_vtrn a b c d).decode_of_wellFormed h,
      (encodesRow_ld4x4tr a b c d).decode_of_wellFormed h⟩
  · exact (encodesRow_ld4x3tr a b c).decode_of_wellFormed (decide_eq_true h)
  · have h : decide [a, b].Nodup = true := by simpa using h
    exact ⟨(encodesRow_ld4x2tr a b).decode_of_wellFormed h,
      (encodesRow_ipostinc a b).decode_of_wellFormed h,
      (encodesRow_ipostdec a b).decode_of_wellFormed h⟩

end Sys2Proof.Machine
end

