-- ==== Sys2Proof/Proofs/VectorBits.lean ====
section
/-! SUPPORT. A vector as 128 bits (00_scope.md R8): where a lane and a byte of it lie, and what the lane
tests, the selector and the transpose network are in those terms. -/

namespace Sys2Proof.Machine

/-! ## Lanes and bytes of the 128-bit value -/

theorem getLsbD_bits (v : Vec) (i : Nat) :
    v.bits.getLsbD i = if i < 32 then v.l0.getLsbD i else if i - 32 < 32 then v.l1.getLsbD (i - 32)
      else if i - 32 - 32 < 32 then v.l2.getLsbD (i - 32 - 32)
      else v.l3.getLsbD (i - 32 - 32 - 32) := by
  change (v.l3 ++ v.l2 ++ v.l1 ++ v.l0 : BitVec (32 + 32 + 32 + 32)).getLsbD i = _
  simp only [BitVec.getLsbD_append]

/-- Lane `k` is bits `32k+31 : 32k` (R8). -/
theorem extractLsb'_lane_bits (v : Vec) (k : Fin 4) : v.bits.extractLsb' (32 * k.val) 32 = v.lane k := by
  apply BitVec.eq_of_getLsbD_eq
  intro i hi
  rw [BitVec.getLsbD_extractLsb', getLsbD_bits, decide_eq_true hi, Bool.true_and]
  match k with
  | 0 | 1 | 2 | 3 => grind [Quad.lane]

/-- Byte `4k + j` is byte `j` of lane `k` (40_vector_base.md R114). -/
theorem extractLsb'_byte_bits (v : Vec) (k j : Fin 4) :
    v.bits.extractLsb' (8 * (4 * k.val + j.val)) 8 = byteOf (v.lane k) j := by
  have hj := j.isLt
  rw [byteOf, ← extractLsb'_lane_bits]
  apply BitVec.eq_of_getLsbD_eq
  intro i hi
  simp only [BitVec.getLsbD_extractLsb', hi, show 8 * j.val + i < 32 by omega, decide_true,
    Bool.true_and]
  congr 1
  omega

/-- A vector has some nonzero lane exactly if its bits are not all zero. -/
theorem exists_lane_ne_zero_iff (v : Vec) : (∃ k, v.lane k ≠ 0) ↔ v.bits ≠ 0 := by
  constructor
  · rintro ⟨k, hk⟩ hv
    rw [← extractLsb'_lane_bits, hv] at hk
    exact hk (by simp)
  · intro hv
    by_contra hk
    push Not at hk
    have hz : v = .splat 0 := Quad.ext_lane fun k => by rw [hk k, Quad.lane_splat]
    exact hv (by rw [hz]; rfl)

theorem anyNonzero_eq (v : Vec) : anyNonzero v = decide (∃ k, v.lane k ≠ 0) := by
  rw [Bool.eq_iff_iff, decide_eq_true_iff]
  simp [anyNonzero, Fin.exists_fin_succ, Quad.lane, or_assoc]

theorem allNonzero_eq (v : Vec) : allNonzero v = decide (∀ k, v.lane k ≠ 0) := by
  rw [Bool.eq_iff_iff, decide_eq_true_iff]
  simp [allNonzero, Fin.forall_fin_succ, Quad.lane, and_assoc]

/-! ## The shuffle -/

/-- `i_k = sel[2k+1:2k]` (30_encoding.md R84). -/
theorem selectorIndex_eq_extractLsb' (sel : BitVec 8) (k : Fin 4) :
    selectorIndex sel k = (sel.extractLsb' (2 * k.val) 2).toFin := by
  apply Fin.ext
  simp only [selectorIndex, Fin.ofNat, BitVec.val_toFin, BitVec.extractLsb'_toNat,
    Nat.shiftRight_eq_div_pow, Nat.pow_mul]

/-- The entry for byte `j` of lane `k` is byte `j` of the lane that the selector names. -/
theorem permutationTable_byte (sel : BitVec 8) (k j : Fin 4) :
    permutationTable sel (Fin.ofNat 16 (4 * k.val + j.val)) =
      4 * (selectorIndex sel k).val + j.val := by
  have hk := k.isLt
  have hj := j.isLt
  have hb : (Fin.ofNat 16 (4 * k.val + j.val)).val = 4 * k.val + j.val :=
    Nat.mod_eq_of_lt (by omega)
  have hq : Fin.ofNat 4 ((4 * k.val + j.val) / 4) = k := Fin.ext (by simp [Fin.ofNat]; omega)
  rw [permutationTable, hb, hq]
  omega

/-- A byte number is a lane number and a byte number in the lane. -/
theorem exists_byte_eq (b : Fin 16) : ∃ k j : Fin 4, b = Fin.ofNat 16 (4 * k.val + j.val) := by
  have hb := b.isLt
  exact ⟨⟨b.val / 4, by omega⟩, ⟨b.val % 4, by omega⟩, Fin.ext (by simp [Fin.ofNat]; omega)⟩

/-- Shuffling lanes moves bytes as the table says. -/
theorem extractLsb'_bits_shuffle (v : Vec) (sel : BitVec 8) (b : Fin 16) :
    (Vec.shuffle v sel).bits.extractLsb' (8 * b.val) 8 =
      v.bits.extractLsb' (8 * permutationTable sel b) 8 := by
  obtain ⟨k, j, rfl⟩ := exists_byte_eq b
  have hk := k.isLt
  have hj := j.isLt
  rw [permutationTable_byte, extractLsb'_byte_bits, ← lane_shuffle, ← extractLsb'_byte_bits]
  congr 2
  exact Nat.mod_eq_of_lt (by omega)

/-! ## The transpose -/

/-- The columns of the columns are the rows. -/
theorem transpose_transpose {α : Type} (rows : Quad (Quad α)) : transpose (transpose rows) = rows :=
  Quad.ext_lane fun k => Quad.ext_lane fun p => by rw [lane_transpose, lane_transpose]

theorem transposeNetwork_eq_transpose (rows : Quad Vec) : transposeNetwork rows = transpose rows := rfl

/-- Settles O28. Bytes of a shuffled vector follow their lane, and the network's second stage picks lane
`k` of each row for column `k`. -/
theorem shuffleAndTransposeWiring : Obligations.ShuffleAndTransposeWiring :=
  ⟨extractLsb'_bits_shuffle,
    fun sel k j => by rw [permutationTable_byte, selectorIndex_eq_extractLsb', BitVec.val_toFin],
    transposeNetwork_eq_transpose⟩

end Sys2Proof.Machine
end

