-- ==== Sys2Proof/Proofs/VectorBase.lean ====
section
/-! SUPPORT. The rows of 40_vector_base.md: how each is encoded (30_encoding.md R86), and what it does to
the registers, from the one register write or list of register writes that it makes. -/

namespace Sys2Proof.Machine

/-! ## The encodings of the rows -/

theorem encodesRow_vany (a : Reg) : encodesRow 0x01 a 0 0 0 0 fun _ => .vany a :=
  encodesRow_r1 (by decide) rfl fun _ => rfl

theorem encodesRow_vall (a : Reg) : encodesRow 0x02 a 0 0 0 0 fun _ => .vall a :=
  encodesRow_r1 (by decide) rfl fun _ => rfl

theorem encodesRow_vsplat (a b : Reg) (n : Fin 4) :
    encodesRow 0x03 a b 0 0 (BitVec.ofNat 8 n) fun _ => .vsplat a b n :=
  encodesRow_r2i2 (by decide) rfl fun x => congrArg (Instr.vsplat a b) (laneIndex_ofNat a b 0 0 n x)

theorem encodesRow_vshuf (a b : Reg) (sel : BitVec 8) :
    encodesRow 0x04 a b 0 0 sel fun _ => .vshuf a b sel :=
  encodesRow_r2i8 (by decide) rfl fun _ => rfl

theorem encodesRow_vswap (a b : Reg) : encodesRow 0x05 a b 0 0 0 fun _ => .vswap a b :=
  encodesRow_r2 (by decide) rfl fun _ => rfl

theorem encodesRow_vmov (a b : Reg) : encodesRow 0x07 a b 0 0 0 fun _ => .vmov a b :=
  encodesRow_r2 (by decide) rfl fun _ => rfl

theorem encodesRow_vset (a : Reg) : encodesRow 0x08 a 0 0 0 0 fun x => .vset a x :=
  encodesRow_r1 (by decide) rfl fun _ => rfl

theorem encodesRow_vbcast (a : Reg) : encodesRow 0x09 a 0 0 0 0 fun x => .vbcast a (x.lane 0) :=
  encodesRow_r1 (by decide) rfl fun _ => rfl

theorem encodesRow_lget (a : Reg) (n : Fin 4) :
    encodesRow 0x0A a 0 0 0 (BitVec.ofNat 8 n) fun _ => .lget a n :=
  encodesRow_r1i (by decide) rfl fun x => congrArg (Instr.lget a) (laneIndex_ofNat a 0 0 0 n x)

theorem encodesRow_lset (a : Reg) (n : Fin 4) :
    encodesRow 0x0B a 0 0 0 (BitVec.ofNat 8 n) fun x => .lset a n (x.lane 0) :=
  encodesRow_r1i (by decide) rfl fun x =>
    congrArg (Instr.lset a · (x.lane 0)) (laneIndex_ofNat a 0 0 0 n x)

/-! ## CF and XR -/

/-- Settles O24. The two lane tests are the quantifiers over lanes, and a register with no nonzero lane is
the all-zero one. -/
theorem scalarResultRows : Obligations.ScalarResultRows := fun va n s =>
  ⟨encodesRow_vany va, encodesRow_vall va, encodesRow_lget va n,
    congrArg (Host.Outcome.next ∘ s.writeCF) (anyNonzero_eq (s.operand 0 va)),
    congrArg (Host.Outcome.next ∘ s.writeCF) (allNonzero_eq (s.operand 0 va)),
    exists_lane_ne_zero_iff (s.operand 0 va), rfl⟩

/-! ## One register written -/

section OneRegister

variable {i : Instr} {s : State} {vd : Reg} {v : Vec}

/-- What a row does whose meaning is one register write. -/
theorem exec_writeReg (hx : exec i s = .next (s.writeReg vd v)) :
    ∃ t, exec i s = .next t ∧ s.changesOnly t [vd] ∧ t.marks vd = .splat true ∧ t.readReg vd = v :=
  ⟨_, hx, changesOnly_writeReg s vd v, (State.marks_writeReg s vd vd v).trans (if_pos rfl),
    (State.readReg_writeReg s vd vd v).trans (if_pos rfl)⟩

/-- The same, the value given lane by lane. -/
theorem exec_writeReg_lanes (hx : exec i s = .next (s.writeReg vd v)) {f : Fin 4 → Word}
    (hv : ∀ k, v.lane k = f k) :
    ∃ t, exec i s = .next t ∧ s.changesOnly t [vd] ∧ t.marks vd = .splat true ∧
      ∀ k, (t.readReg vd).lane k = f k := by
  obtain ⟨t, ht, hc, hm, rfl⟩ := exec_writeReg hx
  exact ⟨t, ht, hc, hm, hv⟩

end OneRegister

/-- Settles O25. Each row is one register write of lanes of the operand. -/
theorem laneMovesWithinRegister : Obligations.LaneMovesWithinRegister := fun vd va s =>
  ⟨fun n => ⟨encodesRow_vsplat vd va n, exec_writeReg_lanes rfl (Quad.lane_splat _)⟩,
    fun sel => ⟨encodesRow_vshuf vd va sel, exec_writeReg_lanes rfl fun k => by
      rw [lane_shuffle, selectorIndex_eq_extractLsb']⟩,
    encodesRow_vmov vd va, exec_writeReg rfl⟩

/-- Everything a lane write does to the lanes of a value. -/
theorem lane_setLane {α : Type} (v : Quad α) (n : Fin 4) (x : α) (k : Fin 4) :
    (v.setLane n x).lane k = if k = n then x else v.lane k := by
  split
  · rename_i h; subst h; exact Quad.lane_setLane_same v k x
  · rename_i h; exact Quad.lane_setLane_of_ne v (Ne.symm h) x

/-- Settles O26. VSET and VBCAST write a register, LSET one lane of it and that lane's mark. -/
theorem operandWordsIntoLanes : Obligations.OperandWordsIntoLanes := fun vd s =>
  ⟨encodesRow_vset vd, fun _ => exec_writeReg rfl,
    encodesRow_vbcast vd, fun x => exec_writeReg_lanes rfl (Quad.lane_splat x),
    fun n => ⟨encodesRow_lset vd n, fun x => ⟨_, rfl, changesOnly_writeLane s vd n x,
      fun k => by rw [State.readReg_writeLane, if_pos rfl, lane_setLane],
      fun k => by rw [State.marks_writeLane, if_pos rfl, lane_setLane]⟩⟩⟩

/-! ## Several registers written -/

/-- Of registers that are written once each, every one holds what was written to it. -/
theorem State.regs_get_putRegs_of_mem {ws : List (Reg × VReg)} (hn : (ws.map Prod.fst).Nodup)
    {r : Reg} {v : VReg} (h : (r, v) ∈ ws) (s : State) : (s.putRegs ws).regs.get r = v := by
  induction ws generalizing s with
  | nil => exact absurd h List.not_mem_nil
  | cons w ws ih =>
    rw [List.map_cons, List.nodup_cons] at hn
    rcases List.mem_cons.mp h with rfl | h
    · rw [State.putRegs_cons, State.regs_get_putRegs_of_not_mem hn.1]
      simp [Vector.get_eq_getElem]
    · exact ih hn.2 h (s.putReg w.1 w.2)

/-- Register writes one after the other change the registers written. -/
theorem changesOnly_putRegs (s : State) (ws : List (Reg × VReg)) :
    s.changesOnly (s.putRegs ws) (ws.map Prod.fst) := by
  induction ws generalizing s with
  | nil => exact ⟨rfl, fun _ _ => rfl, fun _ _ => rfl⟩
  | cons w ws ih => exact changesOnly_trans (changesOnly_putReg s w.1 w.2) (ih _)

/-- The writes of four registers with every lane marked written, in the order of the fields. -/
def quadWrites (rs : Quad Reg) (vs : Quad Vec) : List (Reg × VReg) :=
  (List.finRange 4).map fun k => (rs.lane k, ⟨vs.lane k, .splat true⟩)

theorem quadWrites_fst (rs : Quad Reg) (vs : Quad Vec) : (quadWrites rs vs).map Prod.fst = rs.toList := rfl

theorem mem_quadWrites (rs : Quad Reg) (vs : Quad Vec) (k : Fin 4) :
    (rs.lane k, ⟨vs.lane k, .splat true⟩) ∈ quadWrites rs vs :=
  List.mem_map.mpr ⟨k, List.mem_finRange k, rfl⟩

section FourRegisters

variable {rs : Quad Reg} (hn : rs.toList.Nodup) (s : State) (vs : Quad Vec) (k : Fin 4)

include hn

theorem regs_get_quadWrites :
    (s.putRegs (quadWrites rs vs)).regs.get (rs.lane k) = ⟨vs.lane k, .splat true⟩ :=
  State.regs_get_putRegs_of_mem (by rwa [quadWrites_fst]) (mem_quadWrites rs vs k) s

theorem readReg_quadWrites : (s.putRegs (quadWrites rs vs)).readReg (rs.lane k) = vs.lane k :=
  congrArg VReg.val (regs_get_quadWrites hn s vs k)

theorem marks_quadWrites : (s.putRegs (quadWrites rs vs)).marks (rs.lane k) = .splat true :=
  congrArg VReg.written (regs_get_quadWrites hn s vs k)

theorem operand_quadWrites (j : Nat) :
    (s.putRegs (quadWrites rs vs)).operand j (rs.lane k) = vs.lane k := by
  rw [State.operand_of_written _ (by simp [marks_quadWrites hn]), readReg_quadWrites hn]

end FourRegisters

/-- The rows of the matrix that VTRN reads (R116). -/
def State.rowOperands (s : State) (rs : Quad Reg) : Quad Vec := .ofFn fun p => s.operand p (rs.lane p)

/-- VTRN writes the columns of what it reads. -/
theorem exec_vtrn (rs : Quad Reg) (s : State) : exec (.vtrn rs.l0 rs.l1 rs.l2 rs.l3) s =
    .next (s.putRegs (quadWrites rs (transpose (s.rowOperands rs)))) := rfl

/-- After four registers were written, VTRN reads what was written. -/
theorem rowOperands_quadWrites {rs : Quad Reg} (hn : rs.toList.Nodup) (s : State) (vs : Quad Vec) :
    (s.putRegs (quadWrites rs vs)).rowOperands rs = vs :=
  Quad.ext_lane fun p => (Quad.lane_ofFn _ p).trans (operand_quadWrites hn s vs p p)

/-- VSWAP on any two registers. With `va = vb` the second write stays, which is what operand 0 read. -/
theorem vswap_exchanges (va vb : Reg) (s : State) :
    ∃ t, exec (.vswap va vb) s = .next t ∧ s.changesOnly t [va, vb] ∧
      t.readReg va = (if va = vb then s.operand 0 va else s.operand 1 vb) ∧
      t.readReg vb = s.operand 0 va ∧ t.marks va = .splat true ∧ t.marks vb = .splat true ∧
      (va = vb → ∀ k, (s.marks va).lane k = true →
        (t.readReg va).lane k = (s.readReg va).lane k) := by
  have hva : ((s.writeReg va (s.operand 1 vb)).writeReg vb (s.operand 0 va)).readReg va =
      if va = vb then s.operand 0 va else s.operand 1 vb := by
    simp [State.readReg_writeReg, eq_comm]
  refine ⟨_, rfl, changesOnly_trans (changesOnly_writeReg ..) (changesOnly_writeReg ..), hva,
    by simp [State.readReg_writeReg], by simp [State.marks_writeReg], by simp [State.marks_writeReg],
    fun h k hk => ?_⟩
  rw [hva, if_pos h, State.lane_operand_of_written s hk]

/-- VTRN on four different registers, run twice. -/
theorem vtrn_transposes {rs : Quad Reg} (hn : rs.toList.Nodup) (s : State) :
    ∃ t u, exec (.vtrn rs.l0 rs.l1 rs.l2 rs.l3) s = .next t ∧ s.changesOnly t rs.toList ∧
      (∀ r ∈ rs.toList, t.marks r = .splat true) ∧
      (∀ k p : Fin 4, (t.readReg (rs.lane k)).lane p = (s.operand p (rs.lane p)).lane k) ∧
      exec (.vtrn rs.l0 rs.l1 rs.l2 rs.l3) t = .next u ∧ s.changesOnly u rs.toList ∧
      ∀ p : Fin 4, u.readReg (rs.lane p) = s.operand p (rs.lane p) := by
  have hrow (p : Fin 4) : (s.rowOperands rs).lane p = s.operand p (rs.lane p) := Quad.lane_ofFn _ p
  refine ⟨_, _, exec_vtrn rs s, changesOnly_putRegs s _, fun r hr => ?_, fun k p => ?_, exec_vtrn rs _,
    ?_, fun p => ?_⟩
  · obtain ⟨k, rfl⟩ := Quad.mem_toList.mp hr
    exact marks_quadWrites hn s _ k
  · rw [readReg_quadWrites hn, lane_transpose, hrow]
  · exact changesOnly_mono (changesOnly_trans (changesOnly_putRegs s _) (changesOnly_putRegs _ _))
      fun r hr => (List.mem_append.mp hr).elim id id
  · rw [readReg_quadWrites hn, rowOperands_quadWrites hn, transpose_transpose, hrow]

/-- Settles O27. The transpose of the transpose is the rows, and what VTRN wrote reads back whatever the
marks were before. -/
theorem registerExchangeRows : Obligations.RegisterExchangeRows := fun va vb vc vd s =>
  ⟨encodesRow_vswap va vb, encodesRow_vtrn va vb vc vd, vswap_exchanges va vb s,
    fun hn => vtrn_transposes (rs := ⟨va, vb, vc, vd⟩) hn s⟩

end Sys2Proof.Machine
end

