-- ==== Sys2Proof/Proofs/MemoryBlocks.lean ====
section
/-! SUPPORT. The rows of 41_vector_memory.md that move 16 bytes at a pointer (R131 to R135): a word holds the
bytes it is read from, a vector write changes its own 16 bytes, and a block written with what another block
reads holds that block's bytes. -/

namespace Sys2Proof.Machine

/-! ## The encodings of the rows (30_encoding.md R86) -/

theorem encodesRow_vld (a : Reg) : encodesRow 0x10 a 0 0 0 0 fun x => .vld a (x.lane 0) :=
  encodesRow_r1 (by decide) rfl fun _ => rfl

theorem encodesRow_vst (a : Reg) : encodesRow 0x11 a 0 0 0 0 fun x => .vst a (x.lane 0) :=
  encodesRow_r1 (by decide) rfl fun _ => rfl

theorem encodesRow_vsts (a : Reg) : encodesRow 0x12 a 0 0 0 0 fun x => .vsts a (x.lane 0) :=
  encodesRow_r1 (by decide) rfl fun _ => rfl

theorem encodesRow_mcopy : encodesRow 0x13 0 0 0 0 0 fun x => .mcopy (x.lane 0) (x.lane 1) :=
  encodesRow_z (by decide) rfl fun _ => rfl

theorem encodesRow_mswap : encodesRow 0x14 0 0 0 0 0 fun x => .mswap (x.lane 0) (x.lane 1) :=
  encodesRow_z (by decide) rfl fun _ => rfl

/-! ## Alignment -/

/-- Every instruction checks its own pointers at its own alignment (60_exceptions.md R282). -/
theorem checksAlignment_pointers (i : Instr) : checksAlignment i i.alignment i.pointers := by
  intro s p hp
  rw [exec_eq, State.outcome_of_fault (by rw [State.faultOf, hp])]
  rfl

/-! ## Words -/

/-- Byte `j` of a word put together from bytes (20_memory.md R51). -/
theorem byteOf_append (b3 b2 b1 b0 : Byte) (j : Fin 4) :
    byteOf (b3 ++ b2 ++ b1 ++ b0) j = (⟨b0, b1, b2, b3⟩ : Quad Byte).lane j := by
  apply BitVec.eq_of_getLsbD_eq
  intro i hi
  rw [byteOf, BitVec.getLsbD_extractLsb', decide_eq_true hi, Bool.true_and]
  match j with
  | 0 | 1 | 2 | 3 => grind [Quad.lane]

/-- The four bytes of a word at an address are those of `x` exactly if the word reads as `x`. -/
theorem Memory.holds_iff {m : Memory} {a x : Word} : m.holds a x ↔ m.readWord a = x := by
  constructor
  · intro h
    have h0 : m.byteAt a = byteOf x 0 := by simpa using h 0
    have h1 : m.byteAt (a + 1) = byteOf x 1 := h 1
    have h2 : m.byteAt (a + 2) = byteOf x 2 := h 2
    have h3 : m.byteAt (a + 3) = byteOf x 3 := h 3
    rw [Memory.readWord, h0, h1, h2, h3]
    exact wordBytes_append x
  · rintro rfl j
    rw [Memory.readWord, byteOf_append]
    match j with
    | 0 => simp [Quad.lane]
    | 1 | 2 | 3 => rfl

theorem Memory.holds_readWord (m : Memory) (a : Word) : m.holds a (m.readWord a) :=
  Memory.holds_iff.mpr rfl

/-- Settles O29. The register gets the vector at `X[0]`, whose lanes hold the bytes they are read from. -/
theorem vldLoadsVector : Obligations.VldLoadsVector := fun vd addr s =>
  ⟨encodesRow_vld vd, checksAlignment_pointers (.vld vd addr), fun hal =>
    ⟨_, whenAligned_of_aligned (by simpa using hal) _ _, changesOnly_putReg s vd _, fun k => by
      rw [State.readReg_putReg_same, lane_readVec]
      exact Memory.holds_readWord s.mem _⟩⟩

/-! ## Byte ranges -/

theorem within_eq_true {a b : Word} {n : Nat} : within a n b = true ↔ (b - a).toNat < n :=
  decide_eq_true_iff

theorem within_eq_false {a b : Word} {n : Nat} : within a n b = false ↔ n ≤ (b - a).toNat := by
  rw [within, decide_eq_false_iff_not, Nat.not_lt]

theorem add_ofNat_sub (a : Word) (j : Nat) : a + BitVec.ofNat 32 j - a = BitVec.ofNat 32 j := by
  rw [BitVec.add_comm, BitVec.add_sub_cancel]

/-- The offset of a byte of a range. -/
theorem toNat_add_ofNat_sub (a : Word) {j : Nat} (h : j < 2 ^ 32) :
    (a + BitVec.ofNat 32 j - a).toNat = j := by
  rw [add_ofNat_sub, BitVec.toNat_ofNat, Nat.mod_eq_of_lt h]

theorem within_add_ofNat (a : Word) (j : Fin 16) : within a 16 (a + BitVec.ofNat 32 j) = true := by
  have hj := j.isLt
  rw [within_eq_true, toNat_add_ofNat_sub a (by omega)]
  exact hj

/-- Aligned 16-byte blocks that share a byte are the same block (20_memory.md R67). -/
theorem eq_of_within_aligned {p q : Word} (hp : p.toNat % 16 = 0) (hq : q.toNat % 16 = 0)
    {j : Fin 16} (h : within q 16 (p + BitVec.ofNat 32 j) = true) : p = q := by
  have hj := j.isLt
  rw [within_eq_true] at h
  bv_omega

/-! ## Vector writes -/

/-- A vector write changes the 16 bytes at its address alone. -/
theorem Memory.byteAt_writeVec_outside (m : Memory) (v : Vec) {a b : Word}
    (h : within a 16 b = false) : (m.writeVec a v).byteAt b = m.byteAt b :=
  Memory.byteAt_writeBytes_outside m a _ (by rw [vecBytes_length]; decide)
    (within_eq_false.mp h)

/-- A row that replaces the memory alone stores the bytes in which the two differ. -/
theorem storesOnly_withMem {s : State} {m : Memory} {p : Word → Bool}
    (h : ∀ a, p a = false → m.byteAt a = s.mem.byteAt a) : s.storesOnly (s.withMem m) p :=
  ⟨rfl, h⟩

theorem storesOnly_writeVec (s : State) (a : Word) (v : Vec) :
    s.storesOnly (s.withMem (s.mem.writeVec a v)) (within a 16) :=
  storesOnly_withMem fun _ h => Memory.byteAt_writeVec_outside s.mem v h

/-- Lane `k` of a vector write is at `a + 4k` (20_memory.md R52). -/
theorem Memory.holds_writeVec (m : Memory) (a : Word) (v : Vec) (k : Fin 4) :
    (m.writeVec a v).holds (elementAddr a k) (v.lane k) := by
  rw [Memory.holds_iff, ← lane_readVec, Memory.readVec_writeVec_same]

theorem exec_vst {addr : Word} (h : addr.toNat % 16 = 0) (va : Reg) (s : State) :
    exec (.vst va addr) s = .next (s.withMem (s.mem.writeVec addr (s.operand 0 va))) :=
  whenAligned_of_aligned (by simpa using h) _ _

/-- The hint of VSTS changes no state (R133). -/
theorem exec_vsts_eq_exec_vst (va : Reg) (addr : Word) (s : State) :
    exec (.vsts va addr) s = exec (.vst va addr) s := rfl

/-- Settles O30. Both rows write the operand at `X[0]`, and the port shows the hint. -/
theorem vstVstsStoreVector : Obligations.VstVstsStoreVector := by
  refine fun va addr s => ⟨encodesRow_vst va, encodesRow_vsts va, checksAlignment_pointers (.vst va addr),
    checksAlignment_pointers (.vsts va addr), rfl, rfl, fun hal => ?_⟩
  have hx := exec_vst hal va s
  refine ⟨_, hx, (exec_vsts_eq_exec_vst va addr s).trans hx, storesOnly_writeVec s addr _, fun k => ?_⟩
  rw [State.withMem_mem]
  exact Memory.holds_writeVec s.mem addr _ k

/-! ## Block copy and swap -/

/-- The bytes of the word read at an address. -/
theorem wordBytes_readWord (m : Memory) (a : Word) : wordBytes (m.readWord a) = m.readBytes a 4 := by
  have h (j : Fin 4) : byteOf (m.readWord a) j = m.byteAt (a + BitVec.ofNat 32 j) :=
    (Memory.holds_readWord m a j).symm
  change [byteOf _ 0, byteOf _ 1, byteOf _ 2, byteOf _ 3] = _
  rw [h, h, h, h]
  rfl

/-- Byte `j` of the vector read at an address is the byte `j` addresses up. -/
theorem vecBytes_readVec (m : Memory) (a : Word) : vecBytes (m.readVec a) = m.readBytes a 16 := by
  have h (k : Fin 4) : wordBytes ((m.readVec a).lane k) =
      (List.range 4).map fun j => m.byteAt (a + BitVec.ofNat 32 (4 * k + j)) := by
    simp only [lane_readVec, wordBytes_readWord, Memory.readBytes, elementAddr_add_ofNat]
  change wordBytes ((m.readVec a).lane 0) ++ (wordBytes ((m.readVec a).lane 1) ++
    (wordBytes ((m.readVec a).lane 2) ++ (wordBytes ((m.readVec a).lane 3) ++ []))) = _
  rw [h, h, h, h]
  rfl

/-- Everything a block copy does to one byte: inside the written block it is the byte at the same offset of
the block that was read, outside it is as before. -/
theorem Memory.byteAt_writeVec_readVec (m m' : Memory) (p q a : Word) :
    (m.writeVec p (m'.readVec q)).byteAt a =
      if within p 16 a then m'.byteAt (q + (a - p)) else m.byteAt a := by
  split
  · rename_i h
    rw [Memory.byteAt_writeVec, vecBytes_readVec,
      Memory.readBytes_getElem? _ _ (within_eq_true.mp h), Option.getD_some, BitVec.ofNat_toNat,
      BitVec.setWidth_eq]
  · rename_i h
    exact Memory.byteAt_writeVec_outside m _ (Bool.eq_false_iff.mpr h)

/-- Byte `j` of the written block is byte `j` of the block that was read. -/
theorem Memory.byteAt_copied (m m' : Memory) (p q : Word) (j : Fin 16) :
    (m.writeVec p (m'.readVec q)).byteAt (p + BitVec.ofNat 32 j) =
      m'.byteAt (q + BitVec.ofNat 32 j) := by
  rw [Memory.byteAt_writeVec_readVec, if_pos (within_add_ofNat p j), add_ofNat_sub]

/-- A block copied onto itself reads as before. -/
theorem Memory.byteAt_copied_same (m m' : Memory) (p : Word) {a : Word}
    (h : m.byteAt a = m'.byteAt a) : (m.writeVec p (m'.readVec p)).byteAt a = m'.byteAt a := by
  rw [Memory.byteAt_writeVec_readVec]
  split
  · rw [BitVec.add_comm, BitVec.sub_add_cancel]
  · exact h

/-- Memory after MSWAP: both blocks are read before both are written. -/
def Memory.swapBlocks (m : Memory) (p q : Word) : Memory :=
  (m.writeVec p (m.readVec q)).writeVec q (m.readVec p)

theorem exec_mcopy {p q : Word} (h : allAligned 16 [p, q]) (s : State) :
    exec (.mcopy p q) s = .next (s.withMem (s.mem.writeVec p (s.mem.readVec q))) :=
  whenAligned_of_aligned h _ _

theorem exec_mswap {p q : Word} (h : allAligned 16 [p, q]) (s : State) :
    exec (.mswap p q) s = .next (s.withMem (s.mem.swapBlocks p q)) :=
  whenAligned_of_aligned h _ _

theorem storesOnly_swapBlocks (s : State) (p q : Word) :
    s.storesOnly (s.withMem (s.mem.swapBlocks p q)) fun a => within p 16 a || within q 16 a := by
  refine storesOnly_withMem fun a h => ?_
  obtain ⟨hp, hq⟩ := Bool.or_eq_false_iff.mp h
  exact (Memory.byteAt_writeVec_outside _ _ hq).trans (Memory.byteAt_writeVec_outside _ _ hp)

/-- The first block gets the second one's bytes. The second write reaches it only if the blocks are the same,
and then carries the same bytes. -/
theorem Memory.byteAt_swapBlocks_first (m : Memory) {p q : Word} (h : allAligned 16 [p, q])
    (j : Fin 16) :
    (m.swapBlocks p q).byteAt (p + BitVec.ofNat 32 j) = m.byteAt (q + BitVec.ofNat 32 j) := by
  cases hw : within q 16 (p + BitVec.ofNat 32 j) with
  | true =>
    obtain rfl := eq_of_within_aligned (h p (by simp)) (h q (by simp)) hw
    exact Memory.byteAt_copied _ m p p j
  | false => exact (Memory.byteAt_writeVec_outside _ _ hw).trans (Memory.byteAt_copied m m p q j)

/-- MCOPY on aligned blocks. -/
theorem mcopy_copies {p q : Word} (h : allAligned 16 [p, q]) (s : State) :
    ∃ t, exec (.mcopy p q) s = .next t ∧ s.storesOnly t (within p 16) ∧
      (∀ j : Fin 16, t.mem.byteAt (p + BitVec.ofNat 32 j) = s.mem.byteAt (q + BitVec.ofNat 32 j)) ∧
      (p = q → ∀ a, t.mem.byteAt a = s.mem.byteAt a) := by
  refine ⟨_, exec_mcopy h s, storesOnly_writeVec s p _, fun j => ?_, fun hpq a => ?_⟩ <;>
    rw [State.withMem_mem]
  · exact Memory.byteAt_copied s.mem s.mem p q j
  · rw [← hpq]
    exact Memory.byteAt_copied_same s.mem s.mem p rfl

/-- MSWAP on aligned blocks. -/
theorem mswap_exchanges {p q : Word} (h : allAligned 16 [p, q]) (s : State) :
    ∃ t, exec (.mswap p q) s = .next t ∧ s.storesOnly t (fun a => within p 16 a || within q 16 a) ∧
      (∀ j : Fin 16, t.mem.byteAt (p + BitVec.ofNat 32 j) = s.mem.byteAt (q + BitVec.ofNat 32 j) ∧
        t.mem.byteAt (q + BitVec.ofNat 32 j) = s.mem.byteAt (p + BitVec.ofNat 32 j)) ∧
      (p = q → ∀ a, t.mem.byteAt a = s.mem.byteAt a) := by
  refine ⟨_, exec_mswap h s, storesOnly_swapBlocks s p q, fun j => ?_, fun hpq a => ?_⟩ <;>
    rw [State.withMem_mem]
  · exact ⟨Memory.byteAt_swapBlocks_first s.mem h j, Memory.byteAt_copied _ s.mem q p j⟩
  · rw [Memory.swapBlocks, ← hpq]
    exact Memory.byteAt_copied_same _ s.mem p (Memory.byteAt_copied_same s.mem s.mem p rfl)

/-- Settles O31. A block copy is described byte by byte; two aligned blocks are the same or share no byte. -/
theorem blockCopyAndSwapRows : Obligations.BlockCopyAndSwapRows := fun p q s =>
  ⟨encodesRow_mcopy, encodesRow_mswap, checksAlignment_pointers (.mcopy p q),
    checksAlignment_pointers (.mswap p q), fun hal => ⟨mcopy_copies hal s, mswap_exchanges hal s⟩⟩

end Sys2Proof.Machine
end

