-- ==== Sys2Proof/Proofs/Transposed.lean ====
section
/-! SUPPORT. The transposed family (41_vector_memory.md R136 to R145): a load of `n` fields is one list of
register writes, a store of `n` fields whose ranges are disjoint gives every element its own lane, and a
load of what a store left reads it back. -/

namespace Sys2Proof.Machine

/-! ## The encodings of the rows (30_encoding.md R86) -/

theorem encodesRow_ld4x1tr (a : Reg) : encodesRow 0x18 a 0 0 0 0 (.ld4x1tr a) :=
  encodesRow_r1 (by decide) rfl fun _ => rfl

theorem encodesRow_st4x1tr (a : Reg) : encodesRow 0x1C a 0 0 0 0 (.st4x1tr a) :=
  encodesRow_r1 (by decide) rfl fun _ => rfl

theorem encodesRow_st4x2tr (a b : Reg) : encodesRow 0x1D a b 0 0 0 (.st4x2tr a b) :=
  encodesRow_r2 (by decide) rfl fun _ => rfl

theorem encodesRow_st4x3tr (a b c : Reg) : encodesRow 0x1E a b c 0 0 (.st4x3tr a b c) :=
  encodesRow_r3 (by decide) rfl fun _ => rfl

theorem encodesRow_st4x4tr (a b c d : Reg) : encodesRow 0x1F a b c d 0 (.st4x4tr a b c d) :=
  encodesRow_r4 (by decide) rfl fun _ => rfl

/-! ## Loads -/

/-- The register writes of a transposed load: register `r_k` gets element `k` of the four structures. -/
def State.gatherWrites (s : State) (ptrs : Quad Word) (rs : List Reg) : List (Reg × VReg) :=
  rs.zipIdx.map fun r => (r.1, s.gather ptrs r.2)

theorem gatherWrites_fst (s : State) (ptrs : Quad Word) (rs : List Reg) :
    (s.gatherWrites ptrs rs).map Prod.fst = rs := by
  rw [State.gatherWrites, List.map_map]
  exact List.zipIdx_map_fst 0 rs

theorem mem_gatherWrites (s : State) (ptrs : Quad Word) {rs : List Reg} (k : Fin rs.length) :
    (rs[k], s.gather ptrs k) ∈ s.gatherWrites ptrs rs :=
  List.mem_map.mpr ⟨(rs[k], k), List.mem_zipIdx_iff_getElem?.mpr (by simp), rfl⟩

/-- What register `k` of a transposed load holds. -/
theorem regs_get_gatherWrites {rs : List Reg} (hn : rs.Nodup) (s : State) (ptrs : Quad Word)
    (k : Fin rs.length) :
    (s.putRegs (s.gatherWrites ptrs rs)).regs.get rs[k] = s.gather ptrs k :=
  State.regs_get_putRegs_of_mem (by rwa [gatherWrites_fst]) (mem_gatherWrites s ptrs k) s

/-- A register that was gathered holds the bytes of its element in every lane. -/
theorem loadsField_of_gather {s t : State} {ptrs : Quad Word} {r : Reg} {k : Nat}
    (h : t.regs.get r = s.gather ptrs k) : loadsField s t ptrs r k := fun p => by
  rw [State.readReg, h, lane_gather_val]
  exact Memory.holds_readWord s.mem _

/-- A row that gathers into different registers: each holds its element, and nothing else changes. -/
theorem gather_loads_fields {i : Instr} {s : State} {ptrs : Quad Word} {rs : List Reg}
    (hn : rs.Nodup) (hx : exec i s = .next (s.putRegs (s.gatherWrites ptrs rs))) :
    ∃ t, exec i s = .next t ∧ s.changesOnly t rs ∧
      ∀ k : Fin rs.length, loadsField s t ptrs rs[k] k := by
  refine ⟨_, hx, ?_, fun k => loadsField_of_gather (regs_get_gatherWrites hn s ptrs k)⟩
  simpa only [gatherWrites_fst] using changesOnly_putRegs s (s.gatherWrites ptrs rs)

section ExecLoads

variable (va vb vc vd : Reg) {ptrs : Quad Word} (s : State)

theorem exec_ld4x1tr (ptrs : Quad Word) :
    exec (.ld4x1tr va ptrs) s = .next (s.putRegs (s.gatherWrites ptrs [va])) := rfl

theorem exec_ld4x2tr (h : allAligned 8 ptrs.toList) :
    exec (.ld4x2tr va vb ptrs) s = .next (s.putRegs (s.gatherWrites ptrs [va, vb])) :=
  whenAligned_of_aligned h _ _

theorem exec_ld4x3tr (h : allAligned 16 ptrs.toList) :
    exec (.ld4x3tr va vb vc ptrs) s = .next (s.putRegs (s.gatherWrites ptrs [va, vb, vc])) :=
  whenAligned_of_aligned h _ _

theorem exec_ld4x4tr (h : allAligned 16 ptrs.toList) :
    exec (.ld4x4tr va vb vc vd ptrs) s = .next (s.putRegs (s.gatherWrites ptrs [va, vb, vc, vd])) :=
  whenAligned_of_aligned h _ _

end ExecLoads

/-- Settles O32. Each row gathers its registers. -/
theorem transposedLoads : Obligations.TransposedLoads := by
  intro va vb vc ptrs s
  refine ⟨⟨encodesRow_ld4x1tr va, ?_⟩,
    ⟨encodesRow_ld4x2tr va vb, checksAlignment_pointers (.ld4x2tr va vb ptrs), fun hn hal => ?_⟩,
    encodesRow_ld4x3tr va vb vc, checksAlignment_pointers (.ld4x3tr va vb vc ptrs), fun hn hal => ?_⟩
  · obtain ⟨t, hx, hc, hl⟩ := gather_loads_fields (List.nodup_singleton va) (exec_ld4x1tr va s ptrs)
    exact ⟨t, hx, hc, hl 0⟩
  · obtain ⟨t, hx, hc, hl⟩ := gather_loads_fields hn (exec_ld4x2tr va vb s hal)
    exact ⟨t, hx, hc, hl 0, hl 1⟩
  · obtain ⟨t, hx, hc, hl⟩ := gather_loads_fields hn (exec_ld4x3tr va vb vc s hal)
    exact ⟨t, hx, hc, hl 0, hl 1, hl 2⟩

/-! ## Stores to disjoint ranges -/

/-- Where the ranges are disjoint a byte belongs to one element of one structure. -/
theorem elementByte_injective {n : Nat} (hn : n ≤ 4) {ptrs : Quad Word}
    (hd : pointersDisjoint (4 * n) ptrs) {p p' j j' : Fin 4} {k k' : Fin n}
    (h : elementAddr (ptrs.lane p) k + BitVec.ofNat 32 j =
      elementAddr (ptrs.lane p') k' + BitVec.ofNat 32 j') : p = p' ∧ k = k' ∧ j = j' := by
  have hj := j.isLt
  have hj' := j'.isLt
  have hk := k.isLt
  have hk' := k'.isLt
  rw [elementAddr_add_ofNat, elementAddr_add_ofNat] at h
  obtain rfl : p = p' := by
    by_contra hp
    exact hd p p' hp ⟨4 * k + j, by omega⟩ ⟨4 * k' + j', by omega⟩ h
  have hoff : 4 * k.val + j.val = 4 * k'.val + j'.val :=
    offset_injective (by omega) (by omega) h
  exact ⟨rfl, Fin.ext (by omega), Fin.ext (by omega)⟩

/-- The bytes of the elements are bytes of the structures. -/
theorem inStructures_elementByte {n : Nat} (hn : n ≤ 4) (ptrs : Quad Word) (p j : Fin 4) (k : Fin n) :
    inStructures (4 * n) ptrs (elementAddr (ptrs.lane p) k + BitVec.ofNat 32 j) = true := by
  have hj := j.isLt
  have hk := k.isLt
  refine inStructures_iff.mpr ⟨p, ?_⟩
  rw [elementAddr_add_ofNat, toNat_add_ofNat_sub _ (by omega)]
  omega

/-- A row that scatters registers to disjoint ranges: every element becomes its lane, and no other byte
changes. The one write that covers a byte is the one that is meant for it. -/
theorem scatter_stores_fields {i : Instr} {s : State} {ptrs : Quad Word} {vs : List Vec}
    (hx : exec i s = .next (s.scatter (scatterWrites ptrs vs))) (hl : vs.length ≤ 4)
    (hd : pointersDisjoint (4 * vs.length) ptrs) :
    ∃ t, exec i s = .next t ∧ s.storesOnly t (inStructures (4 * vs.length) ptrs) ∧
      ∀ (k : Fin vs.length) (p : Fin 4),
        t.mem.holds (elementAddr (ptrs.lane p) k) (vs[k].lane p) := by
  obtain ⟨t, ht, hs, hb⟩ := scatter_keeps_one_write (fun k => vs[k]) (fun _ => rfl) hx
  refine ⟨t, ht, hs, fun k p j => ?_⟩
  obtain ⟨p', j', k', ha, hbyte⟩ := hb _ (inStructures_elementByte hl ptrs p j k)
  obtain ⟨rfl, rfl, rfl⟩ := elementByte_injective hl hd ha
  exact hbyte

section ExecStores

variable (va vb vc vd : Reg) {ptrs : Quad Word} (s : State)

theorem exec_st4x1tr (ptrs : Quad Word) :
    exec (.st4x1tr va ptrs) s = .next (s.scatter (scatterWrites ptrs [s.operand 0 va])) := rfl

theorem exec_st4x2tr (h : allAligned 8 ptrs.toList) : exec (.st4x2tr va vb ptrs) s =
    .next (s.scatter (scatterWrites ptrs [s.operand 0 va, s.operand 1 vb])) :=
  whenAligned_of_aligned h _ _

theorem exec_st4x3tr (h : allAligned 16 ptrs.toList) : exec (.st4x3tr va vb vc ptrs) s =
    .next (s.scatter (scatterWrites ptrs [s.operand 0 va, s.operand 1 vb, s.operand 2 vc])) :=
  whenAligned_of_aligned h _ _

theorem exec_st4x4tr (h : allAligned 16 ptrs.toList) : exec (.st4x4tr va vb vc vd ptrs) s =
    .next (s.scatter (scatterWrites ptrs
      [s.operand 0 va, s.operand 1 vb, s.operand 2 vc, s.operand 3 vd])) :=
  whenAligned_of_aligned h _ _

end ExecStores

/-- Settles O34. Each row scatters its operands. -/
theorem transposedStores : Obligations.TransposedStores := by
  intro va vb vc vd ptrs s
  refine ⟨⟨encodesRow_st4x1tr va, fun hd => ?_⟩,
    ⟨encodesRow_st4x2tr va vb, checksAlignment_pointers (.st4x2tr va vb ptrs), fun hd hal => ?_⟩,
    ⟨encodesRow_st4x3tr va vb vc, checksAlignment_pointers (.st4x3tr va vb vc ptrs),
      fun hd hal => ?_⟩,
    encodesRow_st4x4tr va vb vc vd, checksAlignment_pointers (.st4x4tr va vb vc vd ptrs),
      fun hd hal => ?_⟩
  · obtain ⟨t, hx, hs, hf⟩ := scatter_stores_fields (exec_st4x1tr va s ptrs) (by simp) hd
    exact ⟨t, hx, hs, hf 0⟩
  · obtain ⟨t, hx, hs, hf⟩ := scatter_stores_fields (exec_st4x2tr va vb s hal) (by simp) hd
    exact ⟨t, hx, hs, hf 0, hf 1⟩
  · obtain ⟨t, hx, hs, hf⟩ := scatter_stores_fields (exec_st4x3tr va vb vc s hal) (by simp) hd
    exact ⟨t, hx, hs, hf 0, hf 1, hf 2⟩
  · obtain ⟨t, hx, hs, hf⟩ := scatter_stores_fields (exec_st4x4tr va vb vc vd s hal) (by simp) hd
    exact ⟨t, hx, hs, hf 0, hf 1, hf 2, hf 3⟩

/-! ## A store, then a load -/

/-- What is gathered from structures that hold a vector in their element `k` is that vector. -/
theorem gather_val_of_holds {s : State} {ptrs : Quad Word} {k : Nat} {v : Vec}
    (h : ∀ p, s.mem.holds (elementAddr (ptrs.lane p) k) (v.lane p)) : (s.gather ptrs k).val = v :=
  Quad.ext_lane fun p => (lane_gather_val s ptrs k p).trans (Memory.holds_iff.mp (h p))

/-- A scatter to disjoint ranges, then a gather of as many registers from the same pointers. -/
theorem gather_after_scatter {i i' : Instr} {s : State} {ptrs : Quad Word} {vs : List Vec}
    {rs : List Reg} (hx : exec i s = .next (s.scatter (scatterWrites ptrs vs)))
    (hx' : ∀ t, exec i' t = .next (t.putRegs (t.gatherWrites ptrs rs)))
    (hlen : vs.length = rs.length) (hl : vs.length ≤ 4)
    (hd : pointersDisjoint (4 * vs.length) ptrs) (hn : rs.Nodup) :
    ∃ t u, exec i s = .next t ∧ exec i' t = .next u ∧
      ∀ k : Fin rs.length, u.readReg rs[k] = vs[k] := by
  obtain ⟨t, ht, -, hf⟩ := scatter_stores_fields hx hl hd
  refine ⟨t, _, ht, hx' t, fun k => ?_⟩
  rw [State.readReg, regs_get_gatherWrites hn]
  exact gather_val_of_holds (hf (k.cast hlen.symm))

/-- Settles O36. Every register of the load gets the operand that the store scattered in its place. -/
theorem transposedRoundTrip : Obligations.TransposedRoundTrip := by
  intro va vb vc vd wa wb wc wd ptrs s
  refine ⟨fun hd => ?_, fun hd hal hn => ?_, fun hd hal hn => ?_, fun hd hal hn => ?_⟩
  · obtain ⟨t, u, hx, hx', hr⟩ := gather_after_scatter (exec_st4x1tr va s ptrs)
      (exec_ld4x1tr wa · ptrs) rfl (by simp) hd (List.nodup_singleton wa)
    exact ⟨t, u, hx, hx', hr 0⟩
  · obtain ⟨t, u, hx, hx', hr⟩ := gather_after_scatter (exec_st4x2tr va vb s hal)
      (exec_ld4x2tr wa wb · hal) rfl (by simp) hd hn
    exact ⟨t, u, hx, hx', hr 0, hr 1⟩
  · obtain ⟨t, u, hx, hx', hr⟩ := gather_after_scatter (exec_st4x3tr va vb vc s hal)
      (exec_ld4x3tr wa wb wc · hal) rfl (by simp) hd hn
    exact ⟨t, u, hx, hx', hr 0, hr 1, hr 2⟩
  · obtain ⟨t, u, hx, hx', hr⟩ := gather_after_scatter (exec_st4x4tr va vb vc vd s hal)
      (exec_ld4x4tr wa wb wc wd · hal) rfl (by simp) hd hn
    exact ⟨t, u, hx, hx', hr 0, hr 1, hr 2, hr 3⟩

/-! ## LD4X4TR as four VLD and VTRN -/

/-- Register writes are lost when the same registers are written again. -/
theorem putRegs_putRegs {ws ws' : List (Reg × VReg)} (hf : ws.map Prod.fst = ws'.map Prod.fst)
    (hn : (ws'.map Prod.fst).Nodup) (s : State) : (s.putRegs ws).putRegs ws' = s.putRegs ws' := by
  have hregs : ((s.putRegs ws).putRegs ws').regs = (s.putRegs ws').regs := State.regs_ext fun r => by
    by_cases hr : r ∈ ws'.map Prod.fst
    · obtain ⟨⟨_, v⟩, hw, rfl⟩ := List.mem_map.mp hr
      rw [State.regs_get_putRegs_of_mem hn hw, State.regs_get_putRegs_of_mem hn hw]
    · rw [State.regs_get_putRegs_of_not_mem hr, State.regs_get_putRegs_of_not_mem (hf ▸ hr),
        State.regs_get_putRegs_of_not_mem hr]
  exact congrArg (fun v => { s with regs := v }) hregs

theorem putRegs_quadWrites_twice {rs : Quad Reg} (hn : rs.toList.Nodup) (s : State) (vs vs' : Quad Vec) :
    (s.putRegs (quadWrites rs vs)).putRegs (quadWrites rs vs') = s.putRegs (quadWrites rs vs') :=
  putRegs_putRegs (by rw [quadWrites_fst, quadWrites_fst]) (by rwa [quadWrites_fst]) s

/-- A word's mark is set exactly if its four bytes have been written (70_reset_and_hazards.md R311). -/
theorem Memory.wordWritten_iff {m : Memory} {a : Word} : m.wordWritten a = true ↔ m.defined a := by
  have hlist : [a, a + 1, a + 2, a + 3] =
      (List.finRange 4).map fun j => a + BitVec.ofNat 32 j.val := by simp [List.finRange_succ]
  rw [Memory.wordWritten, hlist]
  simp [Memory.defined]

theorem Memory.vecMarks_of_defined {m : Memory} {a : Word} (h : ∀ k : Fin 4, m.defined (elementAddr a k)) :
    m.vecMarks a = .splat true :=
  Quad.ext_lane fun k => by
    rw [Memory.vecMarks, Quad.lane_ofFn, Quad.lane_splat]
    exact Memory.wordWritten_iff.mpr (h k)

/-- VLD of written memory marks every lane written. -/
theorem exec_vld_of_defined {a : Word} (hal : a.toNat % 16 = 0) {s : State}
    (h : ∀ k : Fin 4, s.mem.defined (elementAddr a k)) (vd : Reg) :
    exec (.vld vd a) s = .next (s.writeReg vd (s.mem.readVec a)) := by
  rw [State.writeReg, ← Memory.vecMarks_of_defined h]
  exact whenAligned_of_aligned (by simpa using hal) _ _

/-- The four structures as the rows of a matrix. -/
def Memory.readRows (m : Memory) (ptrs : Quad Word) : Quad Vec := ptrs.map m.readVec

/-- Of written memory, what is gathered into `r_k` is column `k` of the rows, with every lane marked. -/
theorem gather_of_defined {s : State} {ptrs : Quad Word} {k : Fin 4}
    (h : ∀ p : Fin 4, s.mem.defined (elementAddr (ptrs.lane p) k)) :
    s.gather ptrs k = ⟨(transpose (s.mem.readRows ptrs)).lane k, .splat true⟩ := by
  have hval : (s.gather ptrs k).val = (transpose (s.mem.readRows ptrs)).lane k :=
    Quad.ext_lane fun p => by
      rw [lane_gather_val, lane_transpose, Memory.readRows, Quad.lane_map, lane_readVec]
  have hmarks : (s.gather ptrs k).written = .splat true := Quad.ext_lane fun p =>
    (Quad.lane_map _ ptrs p).trans
      ((Memory.wordWritten_iff.mpr (h p)).trans (Quad.lane_splat true p).symm)
  rw [← hval, ← hmarks]

/-- Of written memory, a transposed load of four fields writes the columns of the rows. -/
theorem gatherWrites_of_defined {s : State} {ptrs : Quad Word}
    (h : ∀ p k : Fin 4, s.mem.defined (elementAddr (ptrs.lane p) k)) (rs : Quad Reg) :
    s.gatherWrites ptrs rs.toList = quadWrites rs (transpose (s.mem.readRows ptrs)) := by
  change [(rs.lane 0, s.gather ptrs (0 : Fin 4)), (rs.lane 1, s.gather ptrs (1 : Fin 4)),
    (rs.lane 2, s.gather ptrs (2 : Fin 4)), (rs.lane 3, s.gather ptrs (3 : Fin 4))] = _
  rw [gather_of_defined (h · 0), gather_of_defined (h · 1), gather_of_defined (h · 2),
    gather_of_defined (h · 3)]
  rfl

/-- Four VLD into the rows, and VTRN of the rows. -/
theorem exec_vlds_vtrn {rs : Quad Reg} (hn : rs.toList.Nodup) {ptrs : Quad Word}
    (hal : allAligned 16 ptrs.toList) {s : State}
    (h : ∀ p k : Fin 4, s.mem.defined (elementAddr (ptrs.lane p) k)) :
    ∃ s1 s2 s3 s4, exec (.vld rs.l0 (ptrs.lane 0)) s = .next s1 ∧
      exec (.vld rs.l1 (ptrs.lane 1)) s1 = .next s2 ∧ exec (.vld rs.l2 (ptrs.lane 2)) s2 = .next s3 ∧
      exec (.vld rs.l3 (ptrs.lane 3)) s3 = .next s4 ∧
      exec (.vtrn rs.l0 rs.l1 rs.l2 rs.l3) s4 = .next (s.putRegs (s.gatherWrites ptrs rs.toList)) := by
  have hld (p : Fin 4) (r : Reg) (t : State) (ht : t.mem = s.mem) :
      exec (.vld r (ptrs.lane p)) t = .next (t.writeReg r (s.mem.readVec (ptrs.lane p))) := by
    rw [← ht]
    exact exec_vld_of_defined (hal _ (Quad.mem_toList.mpr ⟨p, rfl⟩)) (fun k => ht ▸ h p k) r
  refine ⟨_, _, _, _, hld 0 rs.l0 s rfl, hld 1 rs.l1 _ rfl, hld 2 rs.l2 _ rfl, hld 3 rs.l3 _ rfl, ?_⟩
  change exec (.vtrn rs.l0 rs.l1 rs.l2 rs.l3) (s.putRegs (quadWrites rs (s.mem.readRows ptrs))) = _
  rw [exec_vtrn, rowOperands_quadWrites hn, gatherWrites_of_defined h, putRegs_quadWrites_twice hn]

/-- Settles O37. Of written memory the rows are loaded with every lane marked, so VTRN reads them as they
are, and its columns are what LD4X4TR gathers. -/
theorem loadTransposeIsLoadsThenVtrn : Obligations.LoadTransposeIsLoadsThenVtrn := by
  intro va vb vc vd ptrs s
  refine ⟨encodesRow_ld4x4tr va vb vc vd, checksAlignment_pointers (.ld4x4tr va vb vc vd ptrs),
    fun hn hal => ?_⟩
  have hx := exec_ld4x4tr va vb vc vd s hal
  obtain ⟨t, ht, hc, hl⟩ := gather_loads_fields hn hx
  refine ⟨t, ht, hc, hl 0, hl 1, hl 2, hl 3, fun hdef => ?_⟩
  obtain rfl := Host.Outcome.next.inj (hx.symm.trans ht)
  exact exec_vlds_vtrn (rs := ⟨va, vb, vc, vd⟩) hn hal hdef

end Sys2Proof.Machine
end

