-- ==== Sys2Proof/Proofs/IntegerArith.lean ====
section
/-! SUPPORT. The lane-wise rows of 42_integer_arith.md. `w32` takes sums, differences and products of
integers to those of words, so the signed and the unsigned reading of an operand give one result (R177).
A shift of a word is the multiplication or division by a power of two that its lane operation is defined
by. -/

namespace Sys2Proof.Machine

/-! ## Reduction modulo 2^32 -/

theorem w32_add (m n : Int) : w32 (m + n) = w32 m + w32 n := BitVec.ofInt_add m n

theorem w32_mul (m n : Int) : w32 (m * n) = w32 m * w32 n := BitVec.ofInt_mul m n

theorem w32_sub (m n : Int) : w32 (m - n) = w32 m - w32 n := by
  rw [eq_sub_iff_add_eq, ← w32_add, Int.sub_add_cancel]

@[simp] theorem w32_toInt (a : Word) : w32 a.toInt = a := BitVec.ofInt_toInt

@[simp] theorem w32_toNat (a : Word) : w32 a.toNat = a := by
  rw [w32, BitVec.ofInt_natCast, BitVec.ofNat_toNat, BitVec.setWidth_eq]

/-- A signed value that fits 32 bits is kept. -/
theorem toInt_w32 {n : Int} (hl : -2 ^ 31 ≤ n) (hu : n < 2 ^ 31) : (w32 n).toInt = n :=
  BitVec.toInt_ofInt_eq_self (by decide) hl hu

/-- The unsigned value of `w32 n` is `n` modulo 2^32 (00_scope.md R9). -/
theorem toNat_w32 (n : Int) : ((w32 n).toNat : Int) = n % 2 ^ 32 := by
  rw [w32, BitVec.toNat_ofInt]
  exact Int.toNat_of_nonneg (Int.emod_nonneg n (by decide))

/-- Settles O39. Both readings of an operand reduce to the operand itself. -/
theorem wrapAroundLaws : Obligations.WrapAroundLaws := by
  refine ⟨fun a b => ⟨?_, ?_, ?_⟩, fun _ hl hu => toInt_w32 hl hu, toNat_w32⟩
  · simp only [w32_add, w32_toInt, w32_toNat]
  · simp only [w32_sub, w32_toInt, w32_toNat]
  · simp only [w32_mul, w32_toInt, w32_toNat]

/-! ## Rows whose meaning is one lane-wise register write -/

theorem lanewiseUnary_r2 {op : Nat} {ins : Reg → Reg → Instr} {f : Word → Word} (h : op < 256)
    (hr : opcodeRow op = some (.r2, fun g => ins g.a g.b))
    (hx : ∀ vd va s, exec (ins vd va) s = .next (s.writeReg vd ((s.operand 0 va).map f))) :
    lanewiseUnary op ins f :=
  lanewiseUnary_of (fun _ _ => encodesRow_r2 h hr fun _ => rfl) hx

theorem lanewiseBinary_r3 {op : Nat} {ins : Reg → Reg → Reg → Instr} {f : Word → Word → Word}
    (h : op < 256) (hr : opcodeRow op = some (.r3, fun g => ins g.a g.b g.c))
    (hx : ∀ vd va vb s, exec (ins vd va vb) s =
      .next (s.writeReg vd ((s.operand 0 va).map₂ f (s.operand 1 vb)))) :
    lanewiseBinary op ins f :=
  lanewiseBinary_of (fun _ _ _ => encodesRow_r3 h hr fun _ => rfl) hx

theorem iadd_row : lanewiseBinary 0x20 .iadd addLane :=
  lanewiseBinary_r3 (by decide) rfl fun _ _ _ _ => rfl

theorem isub_row : lanewiseBinary 0x21 .isub subLane :=
  lanewiseBinary_r3 (by decide) rfl fun _ _ _ _ => rfl

theorem imul_row : lanewiseBinary 0x22 .imul mulLane :=
  lanewiseBinary_r3 (by decide) rfl fun _ _ _ _ => rfl

theorem iabs_row : lanewiseUnary 0x2B .iabs absLane :=
  lanewiseUnary_r2 (by decide) rfl fun _ _ _ => rfl

theorem ishl_row : lanewiseBinary 0x29 .ishl shlLane :=
  lanewiseBinary_r3 (by decide) rfl fun _ _ _ _ => rfl

theorem ishr_row : lanewiseBinary 0x2A .ishr shrLane :=
  lanewiseBinary_r3 (by decide) rfl fun _ _ _ _ => rfl

/-- Settles O38. The lane operations are defined by the formulas of R161, R162, R163 and R172. -/
theorem integerArithmeticRows : Obligations.IntegerArithmeticRows :=
  ⟨iadd_row, isub_row, imul_row, iabs_row⟩

/-! ## Shifts -/

/-- The low 5 bits of the right operand (R170). -/
theorem shiftAmount_eq (b : Word) : shiftAmount b = b.toNat % 32 := by
  rw [shiftAmount, BitVec.extractLsb'_toNat, Nat.shiftRight_zero]

/-- A left shift multiplies by a power of two and wraps. -/
theorem shiftLeft_eq_w32 (a : Word) (n : Nat) : a <<< n = w32 (a.toNat * 2 ^ n) := by
  apply BitVec.eq_of_toNat_eq
  rw [BitVec.toNat_shiftLeft, Nat.shiftLeft_eq, ← Int.natCast_inj, toNat_w32]
  push_cast
  rfl

/-- An arithmetic right shift divides by a power of two, rounding down. -/
theorem sshiftRight_eq_w32 (a : Word) (n : Nat) : a.sshiftRight n = w32 (a.toInt.fdiv (2 ^ n)) := by
  have hdiv : (a.sshiftRight n).toInt = a.toInt.fdiv (2 ^ n) := by
    rw [BitVec.toInt_sshiftRight, Int.shiftRight_eq_div_pow,
      Int.fdiv_eq_ediv_of_nonneg _ (by positivity)]
    push_cast
    rfl
  rw [← hdiv, w32_toInt]

theorem shlLane_eq (a b : Word) : shlLane a b = a <<< (b.toNat % 32) := by
  rw [shlLane, shiftAmount_eq, shiftLeft_eq_w32, w32, ← BitVec.ofInt_natCast]
  push_cast
  rfl

theorem shrLane_eq (a b : Word) : shrLane a b = a.sshiftRight (b.toNat % 32) := by
  rw [shrLane, shiftAmount_eq, sshiftRight_eq_w32]

/-- Settles O43. The shift of a word is the arithmetic that the lane operations are defined by. -/
theorem shiftRows : Obligations.ShiftRows := by
  refine ⟨?_, ?_, fun a b => ⟨shiftLeft_eq_w32 a _, sshiftRight_eq_w32 a _⟩⟩
  · simpa only [← shlLane_eq] using ishl_row
  · simpa only [← shrLane_eq] using ishr_row

/-! ## Increment and decrement -/

theorem encodesRow_ipreinc (a b : Reg) : encodesRow 0x2C a b 0 0 0 fun _ => .ipreinc a b :=
  encodesRow_r2 (by decide) rfl fun _ => rfl

theorem encodesRow_ipredec (a b : Reg) : encodesRow 0x2E a b 0 0 0 fun _ => .ipredec a b :=
  encodesRow_r2 (by decide) rfl fun _ => rfl

/-- What a row does that writes `va` and then `vd`: `vd` holds its own value, and `va` too unless the second
write replaces it by a different one. -/
theorem exec_writeReg_writeReg {i : Instr} {s : State} {vd va : Reg} {v w : Vec}
    (hx : exec i s = .next ((s.writeReg va w).writeReg vd v)) (hvw : vd = va → v = w) :
    ∃ t, exec i s = .next t ∧ s.changesOnly t [vd, va] ∧ t.marks vd = .splat true ∧
      t.marks va = .splat true ∧ t.readReg va = w ∧ t.readReg vd = v := by
  have hc : s.changesOnly ((s.writeReg va w).writeReg vd v) [vd, va] :=
    changesOnly_mono (changesOnly_trans (changesOnly_writeReg ..) (changesOnly_writeReg ..))
      fun r hr => (List.Perm.swap vd va []).mem_iff.mp hr
  have hva : ((s.writeReg va w).writeReg vd v).readReg va = w := by
    rw [State.readReg_writeReg]
    split
    · exact hvw ‹_›
    · rw [State.readReg_writeReg, if_pos rfl]
  exact ⟨_, hx, hc, by simp [State.marks_writeReg], by simp [State.marks_writeReg], hva,
    by simp [State.readReg_writeReg]⟩

/-- The same, both values given lane by lane. -/
theorem exec_writeReg_writeReg_lanes {i : Instr} {s : State} {vd va : Reg} {v w : Vec}
    (hx : exec i s = .next ((s.writeReg va w).writeReg vd v)) (hvw : vd = va → v = w)
    {f g : Fin 4 → Word} (hf : ∀ k, w.lane k = f k) (hg : ∀ k, v.lane k = g k) :
    ∃ t, exec i s = .next t ∧ s.changesOnly t [vd, va] ∧ t.marks vd = .splat true ∧
      t.marks va = .splat true ∧ ∀ k, (t.readReg va).lane k = f k ∧ (t.readReg vd).lane k = g k := by
  obtain ⟨t, ht, hc, hvd, hva, rfl, rfl⟩ := exec_writeReg_writeReg hx hvw
  exact ⟨t, ht, hc, hvd, hva, fun k => ⟨hf k, hg k⟩⟩

/-- Settles O44. Each row writes `va` and then `vd`. In R173 and R175 the two values are the same one, and in
R174 and R176 the registers are different ones. -/
theorem incrementDecrementRows : Obligations.IncrementDecrementRows := fun vd va s =>
  have inc : ∀ k, ((s.operand 0 va).map incLane).lane k = w32 (((s.operand 0 va).lane k).toInt + 1) :=
    Quad.lane_map incLane _
  have dec : ∀ k, ((s.operand 0 va).map decLane).lane k = w32 (((s.operand 0 va).lane k).toInt - 1) :=
    Quad.lane_map decLane _
  ⟨encodesRow_ipreinc vd va, encodesRow_ipostinc vd va, encodesRow_ipredec vd va,
    encodesRow_ipostdec vd va,
    exec_writeReg_writeReg_lanes rfl (fun _ => rfl) inc inc,
    exec_writeReg_writeReg_lanes rfl (fun _ => rfl) dec dec,
    fun hne => exec_writeReg_writeReg_lanes rfl (fun he => absurd he hne) inc fun _ => rfl,
    fun hne => exec_writeReg_writeReg_lanes rfl (fun he => absurd he hne) dec fun _ => rfl⟩

end Sys2Proof.Machine
end

