-- ==== Sys2Proof/Proofs/Bitwise.lean ====
section
/-! SUPPORT. The bitwise rows (42_integer_arith.md R166 to R169, 46_float_compare_bits.md R257 to R259): a
bitwise operation on the four lanes is the operation on the 128-bit value. -/

namespace Sys2Proof.Machine

/-! ## Lanes side by side -/

/-- An operation that distributes over concatenation acts on the 128-bit value as it acts on each lane. -/
theorem bits_map₂ {f : {w : Nat} → BitVec w → BitVec w → BitVec w}
    (hf : ∀ {w w' : Nat} (x x' : BitVec w) (y y' : BitVec w'), f (x ++ y) (x' ++ y') = f x x' ++ f y y')
    (v v' : Vec) : Vec.bits (v.map₂ f v') = f v.bits v'.bits :=
  calc Vec.bits (v.map₂ f v')
      = f v.l3 v'.l3 ++ f v.l2 v'.l2 ++ f v.l1 v'.l1 ++ f v.l0 v'.l0 := rfl
    _ = f (v.l3 ++ v.l2 ++ v.l1 ++ v.l0 : BitVec (32 + 32 + 32 + 32))
          (v'.l3 ++ v'.l2 ++ v'.l1 ++ v'.l0 : BitVec (32 + 32 + 32 + 32)) := by rw [hf, hf, hf]

theorem bits_and (v w : Vec) : (Vec.and v w).bits = v.bits &&& w.bits :=
  bits_map₂ (f := (· &&& ·)) (fun _ _ _ _ => BitVec.and_append) v w

theorem bits_or (v w : Vec) : (Vec.or v w).bits = v.bits ||| w.bits :=
  bits_map₂ (f := (· ||| ·)) (fun _ _ _ _ => BitVec.or_append) v w

theorem bits_xor (v w : Vec) : (Vec.xor v w).bits = v.bits ^^^ w.bits :=
  bits_map₂ (f := (· ^^^ ·)) (fun _ _ _ _ => BitVec.xor_append) v w

theorem bits_not (v : Vec) : (Vec.not v).bits = ~~~ v.bits :=
  bits_map₂ (f := fun x _ => ~~~ x) (fun _ _ _ _ => BitVec.not_append) v v

/-! ## The rows -/

/-- A row of format R3 whose meaning is one register write with this 128-bit value. -/
theorem bitwiseRow_r3 {op : Nat} {ins : Reg → Reg → Reg → Instr}
    {f : BitVec 128 → BitVec 128 → BitVec 128} {g : Vec → Vec → Vec} (h : op < 256)
    (hr : opcodeRow op = some (.r3, fun x => ins x.a x.b x.c))
    (hx : ∀ vd va vb s, exec (ins vd va vb) s =
      .next (s.writeReg vd (g (s.operand 0 va) (s.operand 1 vb))))
    (hg : ∀ v w, (g v w).bits = f v.bits w.bits) : bitwiseRow op ins f := by
  intro vd va vb s
  obtain ⟨t, ht, hc, hm, hv⟩ := exec_writeReg (hx vd va vb s)
  exact ⟨encodesRow_r3 h hr fun _ => rfl, t, ht, hc, hm, by rw [hv, hg]⟩

/-- IXOR of a register with itself: the two operands read the same value in a written lane. -/
theorem lane_xor_self_of_written (s : State) {va : Reg} {k : Fin 4} (h : (s.marks va).lane k = true) :
    (Vec.xor (s.operand 0 va) (s.operand 1 va)).lane k = 0 := by
  rw [lane_xor, State.lane_operand_of_written s h, State.lane_operand_of_written s h, BitVec.xor_self]
  rfl

theorem encodesRow_inot (a b : Reg) : encodesRow 0x28 a b 0 0 0 fun _ => .inot a b :=
  encodesRow_r2 (by decide) rfl fun _ => rfl

theorem inot_complements (vd va : Reg) (s : State) :
    ∃ t, exec (.inot vd va) s = .next t ∧ s.changesOnly t [vd] ∧ t.marks vd = .splat true ∧
      (t.readReg vd).bits = ~~~ (s.operand 0 va).bits := by
  obtain ⟨t, ht, hc, hm, hv⟩ := exec_writeReg (i := .inot vd va) (s := s) rfl
  exact ⟨t, ht, hc, hm, by rw [hv, bits_not]⟩

/-- Settles O42. Each row writes one register, and its lane-wise operation is the one on all 128 bits. -/
theorem bitwiseRows : Obligations.BitwiseRows := by
  refine ⟨?iand, ?ior, ?ixor, fun vd va s => ?ixorSelf,
    fun vd va s => ⟨encodesRow_inot vd va, inot_complements vd va s⟩, ?fclrb, ?fsetb, ?ftglb⟩
  case iand => exact bitwiseRow_r3 (by decide) rfl (fun _ _ _ _ => rfl) bits_and
  case ior => exact bitwiseRow_r3 (by decide) rfl (fun _ _ _ _ => rfl) bits_or
  case ixor => exact bitwiseRow_r3 (by decide) rfl (fun _ _ _ _ => rfl) bits_xor
  case ixorSelf =>
    obtain ⟨t, ht, -, -, hv⟩ := exec_writeReg (i := .ixor vd va va) (s := s) rfl
    exact ⟨t, ht, fun k hk => by rw [hv, lane_xor_self_of_written s hk]⟩
  case fclrb =>
    exact bitwiseRow_r3 (g := fun m a => Vec.and a (Vec.not m)) (by decide) rfl
      (fun _ _ _ _ => rfl) fun m a => by rw [bits_and, bits_not]
  case fsetb =>
    exact bitwiseRow_r3 (g := fun m a => Vec.or a m) (by decide) rfl
      (fun _ _ _ _ => rfl) fun m a => bits_or a m
  case ftglb =>
    exact bitwiseRow_r3 (g := fun m a => Vec.xor a m) (by decide) rfl
      (fun _ _ _ _ => rfl) fun m a => bits_xor a m

end Sys2Proof.Machine
end

