-- ==== Sys2Proof/Proofs/Division.lean ====
section
/-! SUPPORT. IDIV and IMOD (42_integer_arith.md R164, R165, R178): the divisor check, and the quotient and
remainder as the signed division of words. -/

namespace Sys2Proof.Machine

/-! ## The divisor check (60_exceptions.md R283) -/

/-- Bit `k` of the map is 1 exactly when lane `k` is zero. -/
theorem getLsbD_zeroLaneMap (v : Vec) (k : Fin 4) :
    (zeroLaneMap v).getLsbD k = true ↔ v.lane k = 0 := by
  have hbit : ∀ (b0 b1 b2 b3 : Bool) (k : Fin 4), ((BitVec.ofBool b3 ++ BitVec.ofBool b2 ++
      BitVec.ofBool b1 ++ BitVec.ofBool b0).setWidth 32).getLsbD k =
      (⟨b0, b1, b2, b3⟩ : Quad Bool).lane k := by decide
  have hlane : (v.map (· == 0)).lane k = true ↔ v.lane k = 0 := by rw [Quad.lane_map, beq_iff_eq]
  rw [← hlane]
  exact Bool.eq_iff_iff.mp (hbit (v.l0 == 0) (v.l1 == 0) (v.l2 == 0) (v.l3 == 0) k)

theorem whenNonzero_of_zero {d : Vec} (h : ∃ k, d.lane k = 0) (s next : State) :
    whenNonzero d s next = .next (s.raiseFault .divzero (zeroLaneMap d)) := by
  rcases whenNonzero_cases d s next with ⟨-, hw⟩ | ⟨hz, -⟩
  · exact hw
  · obtain ⟨k, hk⟩ := h
    exact absurd hk (zeroLaneMap_eq_zero.mp hz k)

theorem whenNonzero_of_nonzero {d : Vec} (h : ∀ k, d.lane k ≠ 0) (s next : State) :
    whenNonzero d s next = .next next := by
  rcases whenNonzero_cases d s next with ⟨hz, -⟩ | ⟨-, hw⟩
  · exact absurd (zeroLaneMap_eq_zero.mpr h) hz
  · exact hw

/-! ## The rows -/

theorem encodesRow_idiv (a b c : Reg) : encodesRow 0x23 a b c 0 0 fun _ => .idiv a b c :=
  encodesRow_r3 (by decide) rfl fun _ => rfl

theorem encodesRow_imod (a b c : Reg) : encodesRow 0x24 a b c 0 0 fun _ => .imod a b c :=
  encodesRow_r3 (by decide) rfl fun _ => rfl

theorem exec_idiv (vd va vb : Reg) (s : State) : exec (.idiv vd va vb) s =
    whenNonzero (s.operand 1 vb) s
      (s.writeReg vd ((s.operand 0 va).map₂ divLane (s.operand 1 vb))) := rfl

theorem exec_imod (vd va vb : Reg) (s : State) : exec (.imod vd va vb) s =
    whenNonzero (s.operand 1 vb) s
      (s.writeReg vd ((s.operand 0 va).map₂ modLane (s.operand 1 vb))) := rfl

section Rows

variable (vd va : Reg) {vb : Reg} {s : State}

/-- With a zero lane in the divisor both rows are the DIVZERO fault with the lane map. -/
theorem exec_idiv_imod_of_zero (h : ∃ k, (s.operand 1 vb).lane k = 0) :
    exec (.idiv vd va vb) s = .next (s.raiseFault .divzero (zeroLaneMap (s.operand 1 vb))) ∧
    exec (.imod vd va vb) s = .next (s.raiseFault .divzero (zeroLaneMap (s.operand 1 vb))) :=
  ⟨(exec_idiv ..).trans (whenNonzero_of_zero h _ _),
    (exec_imod ..).trans (whenNonzero_of_zero h _ _)⟩

theorem exec_idiv_of_nonzero (h : ∀ k, (s.operand 1 vb).lane k ≠ 0) :
    ∃ t, exec (.idiv vd va vb) s = .next t ∧ s.changesOnly t [vd] ∧ t.marks vd = .splat true ∧
      ∀ k, (t.readReg vd).lane k = divLane ((s.operand 0 va).lane k) ((s.operand 1 vb).lane k) :=
  exec_writeReg_lanes ((exec_idiv ..).trans (whenNonzero_of_nonzero h _ _))
    (Quad.lane_map₂ divLane _ _)

theorem exec_imod_of_nonzero (h : ∀ k, (s.operand 1 vb).lane k ≠ 0) :
    ∃ t, exec (.imod vd va vb) s = .next t ∧ s.changesOnly t [vd] ∧ t.marks vd = .splat true ∧
      ∀ k, (t.readReg vd).lane k = modLane ((s.operand 0 va).lane k) ((s.operand 1 vb).lane k) :=
  exec_writeReg_lanes ((exec_imod ..).trans (whenNonzero_of_nonzero h _ _))
    (Quad.lane_map₂ modLane _ _)

end Rows

/-- Settles O40. The divisor check answers the fault or lets the register write through; FDIV and FRCP are
register writes without a check. -/
theorem divisionRows : Obligations.DivisionRows := fun vd va vb s =>
  ⟨encodesRow_idiv vd va vb, encodesRow_imod vd va vb,
    fun hz =>
      have ⟨hdiv, hmod⟩ := exec_idiv_imod_of_zero vd va hz
      ⟨_, hdiv, hmod, zeroLaneMap_lt _, getLsbD_zeroLaneMap _⟩,
    ⟨_, _, rfl, rfl, State.writeReg_fsr s vd _, State.writeReg_fsr s vd _⟩,
    fun hn => ⟨exec_idiv_of_nonzero vd va hn, exec_imod_of_nonzero vd va hn⟩⟩

/-! ## Quotient and remainder of one lane -/

theorem addLane_eq (a b : Word) : addLane a b = a + b := by rw [addLane, w32_add, w32_toInt, w32_toInt]

theorem mulLane_eq (a b : Word) : mulLane a b = a * b := by rw [mulLane, w32_mul, w32_toInt, w32_toInt]

/-- The quotient is the signed division of words, which wraps as R178 says. -/
theorem divLane_eq_sdiv (a b : Word) : divLane a b = a.sdiv b := by
  apply BitVec.eq_of_toInt_eq
  rw [BitVec.toInt_sdiv, divLane, w32, BitVec.toInt_ofInt]

/-- The remainder is the signed remainder of words. -/
theorem modLane_eq_srem (a b : Word) : modLane a b = a.srem b := by
  rw [modLane, Int.mul_comm, ← Int.tmod_def, ← BitVec.toInt_srem, w32_toInt]

/-- The remainder never wraps. -/
theorem toInt_modLane (a b : Word) : (modLane a b).toInt = a.toInt.tmod b.toInt := by
  rw [modLane_eq_srem, BitVec.toInt_srem]

/-- The wrapped product is taken off before the wrapped remainder is added, so nothing is lost. -/
theorem addLane_mulLane_divLane_modLane (a b : Word) :
    addLane (mulLane (divLane a b) b) (modLane a b) = a := by
  rw [addLane_eq, mulLane_eq, divLane, modLane, w32_sub, w32_mul, w32_toInt, w32_toInt,
    BitVec.add_comm, BitVec.sub_add_cancel]

theorem natAbs_modLane_lt (a : Word) {b : Word} (h : b ≠ 0) :
    (modLane a b).toInt.natAbs < b.toInt.natAbs := by
  have hb : b.toInt ≠ 0 := fun h0 => h (BitVec.eq_of_toInt_eq h0)
  rw [toInt_modLane, Int.natAbs_tmod]
  exact Nat.mod_lt _ (Int.natAbs_pos.mpr hb)

theorem neg_of_modLane_neg {a b : Word} (h : (modLane a b).toInt < 0) : a.toInt < 0 := by
  rw [toInt_modLane] at h
  by_contra ha
  exact absurd (Int.tmod_nonneg b.toInt (Int.not_lt.mp ha)) (Int.not_le.mpr h)

theorem pos_of_modLane_pos {a b : Word} (h : 0 < (modLane a b).toInt) : 0 < a.toInt := by
  rw [toInt_modLane] at h
  by_contra ha
  have hneg : 0 ≤ (-a.toInt).tmod b.toInt := Int.tmod_nonneg _ (by omega)
  rw [Int.neg_tmod] at hneg
  omega

/-- The quotient is exact but for `-2^31 / -1`. -/
theorem divLane_mul_add_modLane {a b : Word} (h : ¬ (a = 0x80000000#32 ∧ b = 0xFFFFFFFF#32)) :
    (divLane a b).toInt * b.toInt + (modLane a b).toInt = a.toInt := by
  have hquot : (divLane a b).toInt = a.toInt.tdiv b.toInt := by
    rw [divLane_eq_sdiv]
    exact BitVec.toInt_sdiv_of_ne_or_ne a b (not_and_or.mp h)
  rw [hquot, toInt_modLane, Int.tdiv_mul_add_tmod]

/-- Settles O41. Every law is one of signed division and remainder. -/
theorem divisionLaws : Obligations.DivisionLaws := by
  refine ⟨fun vd va vb s => ⟨fun hz => ⟨_, exec_idiv_imod_of_zero vd va hz⟩, fun hn => ?_⟩,
    fun a b hb => ⟨addLane_mulLane_divLane_modLane a b, natAbs_modLane_lt a hb, neg_of_modLane_neg,
      pos_of_modLane_pos, divLane_mul_add_modLane, ?_⟩⟩
  · obtain ⟨t, ht, -, -, hdiv⟩ := exec_idiv_of_nonzero vd va hn
    obtain ⟨u, hu, -, -, hmod⟩ := exec_imod_of_nonzero vd va hn
    exact ⟨t, u, ht, hu, fun k => ⟨hdiv k, hmod k⟩⟩
  · rintro rfl rfl
    exact ⟨by decide, by decide⟩

end Sys2Proof.Machine
end

