-- ==== Sys2Proof/Proofs/Masks.lean ====
section
/-! SUPPORT. Masks (43_integer_compare_mask.md R203): a Mask is four mask lanes, a comparison writes a mask
lane for each of its predicate's answers (R190 to R198, 46_float_compare_bits.md R250), and the bitwise
operations on mask lanes are those on the answers. -/

namespace Sys2Proof.Machine

/-! ## Mask lanes -/

theorem maskLane_eq_ite {b : Bool} {p : Prop} [Decidable p] (h : b = true ↔ p) :
    maskLane b = if p then ALL1 else ALL0 := by
  by_cases hp : p
  · rw [if_pos hp, h.mpr hp]
    rfl
  · rw [if_neg hp, Bool.eq_false_iff.mpr fun hb => hp (h.mp hb)]
    rfl

theorem maskLane_and : ∀ a b, maskLane a &&& maskLane b = maskLane (a && b) := by decide

theorem maskLane_or : ∀ a b, maskLane a ||| maskLane b = maskLane (a || b) := by decide

theorem maskLane_xor : ∀ a b, maskLane a ^^^ maskLane b = maskLane (a ^^ b) := by decide

theorem maskLane_not : ∀ a, ~~~ maskLane a = maskLane (!a) := by decide

/-! ## Masks -/

/-- A Mask is a value whose every lane is a mask lane. -/
theorem isMask_iff {v : Vec} : Vec.isMask v = true ↔ ∀ k, ∃ b, v.lane k = maskLane b := by
  have hlane : ∀ x : Word, (x == ALL0 || x == ALL1) = true ↔ ∃ b, x = maskLane b := fun x => by
    rw [Bool.or_eq_true, beq_iff_eq, beq_iff_eq, Bool.exists_bool]
    rfl
  simp only [Vec.isMask, List.all_eq_true, hlane, Quad.mem_toList, forall_exists_index,
    forall_apply_eq_imp_iff]

/-- A lane-wise predicate gives a Mask. -/
theorem isMask_map₂_maskLane (q : Word → Word → Bool) (v w : Vec) :
    Vec.isMask (v.map₂ (fun x y => maskLane (q x y)) w) = true :=
  isMask_iff.mpr fun k => ⟨_, Quad.lane_map₂ _ v w k⟩

/-- A lane-wise operation that takes mask lanes to mask lanes takes Masks to Masks. -/
theorem isMask_map₂ {f : Word → Word → Word} {g : Bool → Bool → Bool}
    (hf : ∀ a b, f (maskLane a) (maskLane b) = maskLane (g a b)) {v w : Vec}
    (hv : Vec.isMask v = true) (hw : Vec.isMask w = true) : Vec.isMask (v.map₂ f w) = true := by
  refine isMask_iff.mpr fun k => ?_
  obtain ⟨a, ha⟩ := isMask_iff.mp hv k
  obtain ⟨b, hb⟩ := isMask_iff.mp hw k
  exact ⟨g a b, by rw [Quad.lane_map₂, ha, hb, hf]⟩

theorem isMask_not {v : Vec} (hv : Vec.isMask v = true) : Vec.isMask (Vec.not v) = true := by
  refine isMask_iff.mpr fun k => ?_
  obtain ⟨a, ha⟩ := isMask_iff.mp hv k
  exact ⟨!a, by rw [lane_not, ha, maskLane_not]⟩

/-! ## The comparisons -/

/-- A row of format R3 whose meaning is one register write with a predicate's mask lanes. -/
theorem comparisonRow_r3 {op : Nat} {ins : Reg → Reg → Reg → Instr} {q : Word → Word → Bool}
    {p : Word → Word → Prop} [∀ a b, Decidable (p a b)] (h : op < 256)
    (hr : opcodeRow op = some (.r3, fun g => ins g.a g.b g.c))
    (hx : ∀ vd va vb s, exec (ins vd va vb) s = .next (s.writeReg vd
      ((s.operand 0 va).map₂ (fun a b => maskLane (q a b)) (s.operand 1 vb))))
    (hq : ∀ a b, q a b = true ↔ p a b) :
    lanewiseBinary op ins fun a b => if p a b then ALL1 else ALL0 := by
  have hlane : (fun a b => maskLane (q a b)) = fun a b => if p a b then ALL1 else ALL0 :=
    funext₂ fun a b => maskLane_eq_ite (hq a b)
  rw [← hlane]
  exact lanewiseBinary_r3 h hr hx

/-- Settles O45. Each lane operation is the mask lane of the row's predicate. -/
theorem integerCompareRows : Obligations.IntegerCompareRows := by
  refine ⟨?iclt, ?icgt, ?iceq, ?icne, ?icle, ?icge, ?iland, ?ilor⟩
  case iclt | icgt | icle | icge =>
    exact comparisonRow_r3 (by decide) rfl (fun _ _ _ _ => rfl) fun _ _ => decide_eq_true_iff
  case iceq => exact comparisonRow_r3 (by decide) rfl (fun _ _ _ _ => rfl) fun _ _ => beq_iff_eq
  case icne => exact comparisonRow_r3 (by decide) rfl (fun _ _ _ _ => rfl) fun _ _ => bne_iff_ne
  case iland =>
    exact comparisonRow_r3 (by decide) rfl (fun _ _ _ _ => rfl) fun a b => by
      rw [Bool.and_eq_true, bne_iff_ne, bne_iff_ne]
  case ilor =>
    exact comparisonRow_r3 (by decide) rfl (fun _ _ _ _ => rfl) fun a b => by
      rw [Bool.or_eq_true, bne_iff_ne, bne_iff_ne]

/-! ## What gives a Mask -/

/-- The fourteen comparison and logical instructions write the mask lanes of a predicate. -/
theorem exec_comparison (vd va vb : Reg) (s : State) :
    ∀ i ∈ [Instr.iclt vd va vb, .icgt vd va vb, .iceq vd va vb, .icne vd va vb, .icle vd va vb,
      .icge vd va vb, .iland vd va vb, .ilor vd va vb, .fclt vd va vb, .fcgt vd va vb,
      .fceq vd va vb, .fcne vd va vb, .fcle vd va vb, .fcge vd va vb],
    ∃ q : Word → Word → Bool, exec i s = .next (s.writeReg vd
      ((s.operand 0 va).map₂ (fun x y => maskLane (q x y)) (s.operand 1 vb))) := by
  simp only [List.forall_mem_cons]
  exact ⟨⟨_, rfl⟩, ⟨_, rfl⟩, ⟨_, rfl⟩, ⟨_, rfl⟩, ⟨_, rfl⟩, ⟨_, rfl⟩, ⟨_, rfl⟩, ⟨_, rfl⟩, ⟨_, rfl⟩,
    ⟨_, rfl⟩, ⟨_, rfl⟩, ⟨_, rfl⟩, ⟨_, rfl⟩, ⟨_, rfl⟩, fun _ h => absurd h List.not_mem_nil⟩

/-- A row whose meaning is one register write with a Mask gives a Mask. -/
theorem isMask_of_exec_writeReg {i : Instr} {s t : State} {vd : Reg} {v : Vec}
    (hx : exec i s = .next (s.writeReg vd v)) (hv : Vec.isMask v = true) (ht : exec i s = .next t) :
    Vec.isMask (t.readReg vd) = true := by
  obtain ⟨u, hu, -, -, rfl⟩ := exec_writeReg hx
  rw [ht] at hu
  injection hu with hu
  rwa [hu]

/-- Settles O46. A comparison writes mask lanes whatever its operands are, and a bitwise instruction takes
mask lanes to mask lanes. -/
theorem comparisonsGiveMasks : Obligations.ComparisonsGiveMasks := by
  refine ⟨fun vd va vb s t i hi ht => ?_, fun vd va vb s t ha hb => ?_⟩
  · obtain ⟨q, hx⟩ := exec_comparison vd va vb s i hi
    exact isMask_of_exec_writeReg hx (isMask_map₂_maskLane q _ _) ht
  · simp only [List.forall_mem_cons]
    exact ⟨isMask_of_exec_writeReg rfl (isMask_map₂ maskLane_and ha hb),
      isMask_of_exec_writeReg rfl (isMask_map₂ maskLane_or ha hb),
      isMask_of_exec_writeReg rfl (isMask_map₂ maskLane_xor ha hb),
      isMask_of_exec_writeReg rfl (isMask_not ha), fun _ h => absurd h List.not_mem_nil⟩

end Sys2Proof.Machine
end

