-- ==== Sys2Proof/Proofs/MaskSelect.lean ====
section
/-! SUPPORT. The mask combinators (43_integer_compare_mask.md R199 to R202): selection bit by bit for any
`vm`, and by whole lanes where a lane of `vm` is that of a Mask. -/

namespace Sys2Proof.Machine

/-! ## Selection -/

/-- The union of the two masked values takes each bit from the one that the mask bit names. -/
theorem getLsbD_union {n j : Nat} (m x y : BitVec n) (hj : j < n) :
    ((x &&& m) ||| (y &&& ~~~ m)).getLsbD j = if m.getLsbD j then x.getLsbD j else y.getLsbD j := by
  rw [BitVec.getLsbD_or, BitVec.getLsbD_and, BitVec.getLsbD_and, BitVec.getLsbD_not, decide_eq_true hj]
  cases m.getLsbD j <;> simp

theorem and_ALL1 (x : Word) : x &&& ALL1 = x := BitVec.and_allOnes

theorem and_ALL0 (x : Word) : x &&& ALL0 = 0 := BitVec.and_zero

theorem not_ALL1 : ~~~ ALL1 = ALL0 := by decide

theorem not_ALL0 : ~~~ ALL0 = ALL1 := by decide

/-! ## The values of the three rows -/

/-- The value of CZERO (R199). -/
def czeroVec (m a : Vec) : Vec := Vec.and a (Vec.not m)

/-- The value of NOTCZERO (R200). -/
def notczeroVec (m a : Vec) : Vec := Vec.and a m

/-- The value of MERGE (R201). -/
def mergeVec (m t f : Vec) : Vec := Vec.or (notczeroVec m t) (czeroVec m f)

theorem exec_czero (vd vm va : Reg) (s : State) : exec (.czero vd vm va) s =
    .next (s.writeReg vd (czeroVec (s.operand 0 vm) (s.operand 1 va))) := rfl

theorem exec_notczero (vd vm va : Reg) (s : State) : exec (.notczero vd vm va) s =
    .next (s.writeReg vd (notczeroVec (s.operand 0 vm) (s.operand 1 va))) := rfl

theorem exec_merge (vd vm vt vf : Reg) (s : State) : exec (.merge vd vm vt vf) s =
    .next (s.writeReg vd (mergeVec (s.operand 0 vm) (s.operand 1 vt) (s.operand 2 vf))) := rfl

theorem bits_czeroVec (m a : Vec) : (czeroVec m a).bits = a.bits &&& ~~~ m.bits := by
  rw [czeroVec, bits_and, bits_not]

theorem bits_notczeroVec (m a : Vec) : (notczeroVec m a).bits = a.bits &&& m.bits := bits_and a m

theorem bits_mergeVec (m t f : Vec) :
    (mergeVec m t f).bits = (notczeroVec m t).bits ||| (czeroVec m f).bits := bits_or _ _

section Lanes

variable {m : Vec} {k : Fin 4}

theorem lane_czeroVec_of_ALL1 (h : m.lane k = ALL1) (a : Vec) : (czeroVec m a).lane k = 0 := by
  rw [czeroVec, lane_and, lane_not, h, not_ALL1, and_ALL0]

theorem lane_czeroVec_of_ALL0 (h : m.lane k = ALL0) (a : Vec) : (czeroVec m a).lane k = a.lane k := by
  rw [czeroVec, lane_and, lane_not, h, not_ALL0, and_ALL1]

theorem lane_notczeroVec_of_ALL1 (h : m.lane k = ALL1) (a : Vec) :
    (notczeroVec m a).lane k = a.lane k := by
  rw [notczeroVec, lane_and, h, and_ALL1]

theorem lane_notczeroVec_of_ALL0 (h : m.lane k = ALL0) (a : Vec) : (notczeroVec m a).lane k = 0 := by
  rw [notczeroVec, lane_and, h, and_ALL0]

theorem lane_mergeVec_of_ALL1 (h : m.lane k = ALL1) (t f : Vec) :
    (mergeVec m t f).lane k = t.lane k := by
  rw [mergeVec, lane_or, lane_notczeroVec_of_ALL1 h, lane_czeroVec_of_ALL1 h]
  exact BitVec.or_zero

theorem lane_mergeVec_of_ALL0 (h : m.lane k = ALL0) (t f : Vec) :
    (mergeVec m t f).lane k = f.lane k := by
  rw [mergeVec, lane_or, lane_notczeroVec_of_ALL0 h, lane_czeroVec_of_ALL0 h]
  exact BitVec.zero_or

end Lanes

/-! ## The rows -/

theorem czero_row : bitwiseRow 0x38 .czero fun m a => a &&& ~~~ m :=
  bitwiseRow_r3 (by decide) rfl exec_czero bits_czeroVec

theorem notczero_row : bitwiseRow 0x39 .notczero fun m a => a &&& m :=
  bitwiseRow_r3 (by decide) rfl exec_notczero bits_notczeroVec

theorem encodesRow_merge (a b c d : Reg) : encodesRow 0x3A a b c d 0 fun _ => .merge a b c d :=
  encodesRow_r4 (by decide) rfl fun _ => rfl

/-- Settles O47. Each row is one register write. MERGE reads `vf` as its operand 2 and CZERO as its operand
1, so MERGE is the union of the results of the other two where `vf` has been written. -/
theorem maskSelectRows : Obligations.MaskSelectRows := by
  refine ⟨czero_row, notczero_row, fun vd vm vt vf s => ⟨encodesRow_merge vd vm vt vf, ?_⟩⟩
  obtain ⟨t, ht, hchanges, hmarks, hmerge⟩ := exec_writeReg (exec_merge vd vm vt vf s)
  obtain ⟨tn, htn, -, -, hnotczero⟩ := exec_writeReg (exec_notczero vd vm vt s)
  obtain ⟨tc, htc, -, -, hczero⟩ := exec_writeReg (exec_czero vd vm vf s)
  have hbits : (t.readReg vd).bits = ((s.operand 1 vt).bits &&& (s.operand 0 vm).bits) |||
      ((s.operand 2 vf).bits &&& ~~~ (s.operand 0 vm).bits) := by
    rw [hmerge, bits_mergeVec, bits_notczeroVec, bits_czeroVec]
  refine ⟨t, tn, tc, ht, htn, htc, hchanges, hmarks, hbits, fun hwritten => ?union,
    fun j hj => ?bit, fun k => ⟨fun hk => ?all1, fun hk => ?all0⟩⟩
  case union =>
    rw [hmerge, hnotczero, hczero, bits_mergeVec, State.operand_of_written s hwritten,
      State.operand_of_written s hwritten]
  case bit => rw [hbits, getLsbD_union _ _ _ hj]
  case all1 =>
    rw [hmerge, hnotczero, hczero]
    exact ⟨lane_czeroVec_of_ALL1 hk _, lane_notczeroVec_of_ALL1 hk _, lane_mergeVec_of_ALL1 hk _ _⟩
  case all0 =>
    rw [hmerge, hnotczero, hczero]
    exact ⟨lane_czeroVec_of_ALL0 hk _, lane_notczeroVec_of_ALL0 hk _, lane_mergeVec_of_ALL0 hk _ _⟩

end Sys2Proof.Machine
end

