-- ==== Sys2Proof/Proofs/Binary32.lean ====
section
/-! SUPPORT. A binary32 word as its sign and its magnitude pattern `x[30:0]` (44_float_arith.md R210): the
classes of words are intervals of patterns, and the value of a finite word grows with its pattern. -/

namespace Sys2Proof.Machine

/-! ## Sign and magnitude pattern -/

/-- The magnitude pattern `u(x[30:0])`. -/
def magPattern (x : Word) : Nat := x.toNat % 2 ^ 31

theorem magPattern_lt (x : Word) : magPattern x < 2 ^ 31 := Nat.mod_lt _ (by decide)

theorem toNat_expo (x : Word) : (expo x).toNat = magPattern x / 2 ^ 23 := by
  rw [expo, BitVec.extractLsb'_toNat, Nat.shiftRight_eq_div_pow, magPattern]
  omega

theorem toNat_frac (x : Word) : (frac x).toNat = magPattern x % 2 ^ 23 := by
  rw [frac, BitVec.extractLsb'_toNat, Nat.shiftRight_zero, magPattern]
  omega

theorem signBit_eq_decide (x : Word) : signBit x = decide (2 ^ 31 ≤ x.toNat) :=
  (BitVec.msb_eq_getLsbD_last x).symm.trans (BitVec.msb_eq_decide x)

/-- A word is its sign and its magnitude pattern. -/
theorem withSign_signBit_magPattern (x : Word) : withSign (signBit x) (magPattern x) = x := by
  have hx := x.isLt
  apply BitVec.eq_of_toNat_eq
  rw [withSign, signBit_eq_decide, magPattern, BitVec.toNat_ofNat]
  simp only [decide_eq_true_iff]
  split <;> omega

theorem toNat_withSign (sg : Bool) {m : Nat} (h : m < 2 ^ 31) :
    (withSign sg m).toNat = if sg then 2 ^ 31 + m else m := by
  rw [withSign, BitVec.toNat_ofNat, Nat.mod_eq_of_lt]
  split <;> omega

theorem magPattern_withSign (sg : Bool) {m : Nat} (h : m < 2 ^ 31) :
    magPattern (withSign sg m) = m := by
  rw [magPattern, toNat_withSign sg h]
  split <;> omega

theorem signBit_withSign (sg : Bool) {m : Nat} (h : m < 2 ^ 31) : signBit (withSign sg m) = sg := by
  rw [signBit_eq_decide, toNat_withSign sg h]
  cases sg with
  | true => exact decide_eq_true (Nat.le_add_right _ _)
  | false => exact decide_eq_false h.not_ge

/-! ## The classes of words -/

theorem expo_eq_iff (x : Word) (e : BitVec 8) : expo x = e ↔ magPattern x / 2 ^ 23 = e.toNat := by
  rw [← BitVec.toNat_inj, toNat_expo]

theorem frac_eq_zero_iff (x : Word) : frac x = 0 ↔ magPattern x % 2 ^ 23 = 0 := by
  rw [← BitVec.toNat_inj, toNat_frac]
  rfl

theorem isFinite_iff {x : Word} : isFinite x = true ↔ magPattern x < infMag := by
  have := magPattern_lt x
  rw [isFinite, bne_iff_ne, ne_eq, expo_eq_iff, infMag, show (255 : BitVec 8).toNat = 255 from rfl]
  omega

theorem isInf_iff {x : Word} : isInf x = true ↔ magPattern x = infMag := by
  have := magPattern_lt x
  rw [isInf, Bool.and_eq_true, beq_iff_eq, beq_iff_eq, expo_eq_iff, frac_eq_zero_iff, infMag,
    show (255 : BitVec 8).toNat = 255 from rfl]
  omega

theorem isNaN_iff {x : Word} : isNaN x = true ↔ infMag < magPattern x := by
  have := magPattern_lt x
  rw [isNaN, Bool.and_eq_true, beq_iff_eq, bne_iff_ne, ne_eq, expo_eq_iff, frac_eq_zero_iff, infMag,
    show (255 : BitVec 8).toNat = 255 from rfl]
  omega

theorem isZero_iff {x : Word} : isZero x = true ↔ magPattern x = 0 := by
  rw [isZero, Bool.and_eq_true, beq_iff_eq, beq_iff_eq, expo_eq_iff, frac_eq_zero_iff,
    show (0 : BitVec 8).toNat = 0 from rfl]
  omega

theorem isNaN_of_isFinite {x : Word} (h : isFinite x = true) : isNaN x = false :=
  Bool.eq_false_iff.mpr fun hn => absurd (isNaN_iff.mp hn) (isFinite_iff.mp h).le.not_gt

theorem isInf_of_isFinite {x : Word} (h : isFinite x = true) : isInf x = false :=
  Bool.eq_false_iff.mpr fun hi => absurd (isInf_iff.mp hi) (isFinite_iff.mp h).ne

theorem isNaN_of_isInf {x : Word} (h : isInf x = true) : isNaN x = false :=
  Bool.eq_false_iff.mpr fun hn => absurd (isInf_iff.mp h) (isNaN_iff.mp hn).ne'

theorem isFinite_of_isZero {x : Word} (h : isZero x = true) : isFinite x = true :=
  isFinite_iff.mpr (isZero_iff.mp h ▸ by decide)

theorem isZero_of_isInf {x : Word} (h : isInf x = true) : isZero x = false :=
  Bool.eq_false_iff.mpr fun hz => absurd (isZero_iff.mp hz) (isInf_iff.mp h ▸ by decide)

/-- A zero is the zero of its sign. -/
theorem eq_zero_signBit {x : Word} (h : isZero x = true) : x = zero (signBit x) := by
  rw [zero, ← isZero_iff.mp h, withSign_signBit_magPattern]

/-- A zero is `-0` exactly if its sign is set. -/
theorem eq_negZero_iff {x : Word} (h : isZero x = true) :
    x = 0x80000000#32 ↔ signBit x = true := by
  constructor
  · rintro rfl
    rfl
  · intro hs
    rw [eq_zero_signBit h, hs]
    rfl

/-! ## Units -/

/-- The value of a pattern in units of 2^-149. The subnormal patterns and those with exponent 1 share one
spacing, so the exponent enters less 1, cut off at 0. -/
def patternUnits (m : Nat) : Nat := (m - (m / 2 ^ 23 - 1) * 2 ^ 23) * 2 ^ (m / 2 ^ 23 - 1)

/-- A significand `q` shifted by `sh` places. The pattern may be reached with `q = 2^24`, where the
significand carries into the next exponent. -/
theorem patternUnits_of_split {sh q : Nat} (hq : q ≤ 2 ^ 24) (hn : sh = 0 ∨ 2 ^ 23 ≤ q) :
    patternUnits (sh * 2 ^ 23 + q) = q * 2 ^ sh := by
  rcases hq.lt_or_eq with hlt | rfl
  · have he : (sh * 2 ^ 23 + q) / 2 ^ 23 - 1 = sh := by omega
    rw [patternUnits, he, Nat.add_sub_cancel_left]
  · have he : (sh * 2 ^ 23 + 2 ^ 24) / 2 ^ 23 - 1 = sh + 1 := by omega
    have hm : sh * 2 ^ 23 + 2 ^ 24 - (sh + 1) * 2 ^ 23 = 2 ^ 23 := by omega
    rw [patternUnits, he, hm, pow_succ']
    ring

/-- Every pattern is a significand and a shift. -/
theorem exists_pattern_split (m : Nat) :
    ∃ sh q, m = sh * 2 ^ 23 + q ∧ q < 2 ^ 24 ∧ (sh = 0 ∨ 2 ^ 23 ≤ q) :=
  ⟨m / 2 ^ 23 - 1, m - (m / 2 ^ 23 - 1) * 2 ^ 23, by omega, by omega, by omega⟩

/-- The value grows with the pattern, across the exponents too. -/
theorem patternUnits_strictMono : StrictMono patternUnits := by
  refine strictMono_nat_of_lt_succ fun m => ?_
  obtain ⟨sh, q, rfl, hq, hn⟩ := exists_pattern_split m
  rw [Nat.add_assoc, patternUnits_of_split hq.le hn,
    patternUnits_of_split (Nat.succ_le_of_lt hq) (hn.imp_right Nat.le_succ_of_le)]
  exact Nat.mul_lt_mul_of_pos_right q.lt_succ_self (by positivity)

@[simp] theorem patternUnits_zero : patternUnits 0 = 0 := rfl

/-- The infinity's pattern continues the finite ones: it stands for 2^128. -/
theorem patternUnits_infMag : patternUnits infMag = 2 ^ 25 * 2 ^ 252 := by
  rw [show infMag = 254 * 2 ^ 23 + 2 ^ 23 from rfl,
    patternUnits_of_split (by decide) (.inr le_rfl), ← pow_add, ← pow_add]

theorem patternUnits_maxFinite_add :
    patternUnits (infMag - 1) + 2 * 2 ^ 252 = patternUnits infMag := by
  rw [patternUnits_infMag, show infMag - 1 = 253 * 2 ^ 23 + (2 ^ 24 - 1) from rfl,
    patternUnits_of_split (by decide) (.inr (by decide)), pow_succ' 2 252]
  omega

theorem magUnits_eq (x : Word) : magUnits x = patternUnits (magPattern x) := by
  rw [magUnits, toNat_expo, toNat_frac, patternUnits]
  simp only [beq_iff_eq, expo_eq_iff, show (0 : BitVec 8).toNat = 0 from rfl]
  split
  next h =>
    rw [h, pow_zero, mul_one]
    omega
  next h =>
    congr 1
    omega

theorem magUnits_eq_zero_iff {x : Word} : magUnits x = 0 ↔ isZero x = true := by
  rw [magUnits_eq, isZero_iff]
  exact patternUnits_strictMono.injective.eq_iff' patternUnits_zero

theorem natAbs_units (x : Word) : (units x).natAbs = magUnits x := by
  rw [units]
  split <;> simp

theorem units_eq_zero_iff {x : Word} : units x = 0 ↔ isZero x = true := by
  rw [← Int.natAbs_eq_zero, natAbs_units, magUnits_eq_zero_iff]

theorem decide_units_neg {x : Word} (h : isZero x = false) : decide (units x < 0) = signBit x := by
  have hm : magUnits x ≠ 0 := fun h0 => by simp [magUnits_eq_zero_iff.mp h0] at h
  rw [units]
  cases signBit x with
  | true => exact decide_eq_true (by rw [if_pos rfl]; omega)
  | false => exact decide_eq_false (by rw [if_neg Bool.false_ne_true]; omega)

/-- The real value of a word is its units, each 2^-149. -/
theorem ratValue_eq_units (x : Word) : ratValue x = (units x : ℚ) * (2 : ℚ) ^ (-149 : ℤ) := by
  have hmag : (magUnits x : ℚ) * (2 : ℚ) ^ (-149 : ℤ) =
      if expo x = 0 then ((frac x).toNat : ℚ) * (2 : ℚ) ^ (-149 : ℤ)
      else (2 ^ 23 + ((frac x).toNat : ℚ)) * (2 : ℚ) ^ (((expo x).toNat : ℤ) - 150) := by
    rw [magUnits]
    simp only [beq_iff_eq]
    split
    · rfl
    next h =>
      have he : (expo x).toNat ≠ 0 := fun h0 => h (BitVec.eq_of_toNat_eq h0)
      obtain ⟨e, he⟩ := Nat.exists_eq_add_one_of_ne_zero he
      have hpow : (2 : ℚ) ^ (((e + 1 : ℕ) : ℤ) - 150) = 2 ^ e * (2 : ℚ) ^ (-149 : ℤ) := by
        rw [← zpow_natCast, ← zpow_add₀ two_ne_zero]
        congr 1
        omega
      rw [he, hpow, Nat.add_sub_cancel]
      push_cast
      ring
  rw [ratValue, ← hmag, units]
  split <;> simp

end Sys2Proof.Machine
end

