-- ==== Sys2Proof/Proofs/Rounding.lean ====
section
/-! SUPPORT. Rounding (44_float_arith.md R211). `roundMag` takes the pattern below the exact value or its
successor; the patterns' values grow, so the nearer of the two is nearest among all patterns. The cut at
the infinity's pattern comes after: it acts exactly from `2^128 - 2^103` on. -/

namespace Sys2Proof.Machine

/-! ## The nearest pattern -/

/-- `c` is the pattern nearest to `x` units, the even one where another is as near. -/
def isNearestPattern (x : ℚ) (c : Nat) : Prop :=
  ∀ k, |x - patternUnits c| ≤ |x - patternUnits k| ∧
    (|x - patternUnits c| = |x - patternUnits k| → k ≠ c → c % 2 = 0)

/-- A value between a pattern and the next, not above their middle: the lower pattern is nearest. -/
theorem isNearestPattern_lower {x : ℚ} {p : Nat} (hp : (patternUnits p : ℚ) ≤ x)
    (hmid : 2 * x ≤ patternUnits p + patternUnits (p + 1))
    (htie : 2 * x = patternUnits p + patternUnits (p + 1) → p % 2 = 0) : isNearestPattern x p := by
  intro k
  rw [abs_of_nonneg (sub_nonneg.mpr hp)]
  rcases lt_trichotomy k p with hk | rfl | hk
  · have hlt : (patternUnits k : ℚ) < patternUnits p := mod_cast patternUnits_strictMono hk
    rw [abs_of_nonneg (by linarith)]
    exact ⟨by linarith, fun h _ => by linarith⟩
  · exact ⟨le_abs_self _, fun _ hne => absurd rfl hne⟩
  · have hle : (patternUnits (p + 1) : ℚ) ≤ patternUnits k :=
      mod_cast patternUnits_strictMono.monotone hk
    have hfar : (patternUnits k : ℚ) - x ≤ |x - patternUnits k| := neg_sub x _ ▸ neg_le_abs _
    exact ⟨by linarith, fun h _ => htie (by rw [abs_of_nonpos (by linarith)] at h; linarith)⟩

/-- The same, not below their middle: the upper pattern is nearest. -/
theorem isNearestPattern_upper {x : ℚ} {p : Nat} (hp : x ≤ patternUnits (p + 1))
    (hmid : patternUnits p + patternUnits (p + 1) ≤ 2 * x)
    (htie : 2 * x = patternUnits p + patternUnits (p + 1) → (p + 1) % 2 = 0) :
    isNearestPattern x (p + 1) := by
  intro k
  rw [abs_of_nonpos (sub_nonpos.mpr hp)]
  rcases lt_trichotomy k (p + 1) with hk | rfl | hk
  · have hle : (patternUnits k : ℚ) ≤ patternUnits p :=
      mod_cast patternUnits_strictMono.monotone (Nat.le_of_lt_succ hk)
    have hfar : x - patternUnits k ≤ |x - patternUnits k| := le_abs_self _
    exact ⟨by linarith, fun h _ => htie (by rw [abs_of_nonneg (by linarith)] at h; linarith)⟩
  · exact ⟨neg_le_abs _, fun _ hne => absurd rfl hne⟩
  · have hlt : (patternUnits (p + 1) : ℚ) < patternUnits k := mod_cast patternUnits_strictMono hk
    rw [abs_of_nonpos (by linarith)]
    exact ⟨by linarith, fun h _ => by linarith⟩

/-! ## What `roundMag` computes -/

/-- The low binary places that a 24-bit significand cannot hold: `sh` of `roundMag`. -/
def roundShift (num den : Nat) : Nat := Nat.log2 (num / den) - 23

/-- The significand that is left, rounded down: `q` of `roundMag`. -/
def roundQuot (num den : Nat) : Nat := num / (den * 2 ^ roundShift num den)

/-- What is cut off: `r` of `roundMag`. -/
def roundRem (num den : Nat) : Nat := num % (den * 2 ^ roundShift num den)

/-- Whether the value lies above the middle, or on it with an odd significand: `up` of `roundMag`. -/
def roundsUp (num den : Nat) : Bool :=
  2 * roundRem num den > den * 2 ^ roundShift num den ||
    (2 * roundRem num den == den * 2 ^ roundShift num den && roundQuot num den % 2 == 1)

/-- The pattern of the value rounded down. -/
def roundFloor (num den : Nat) : Nat := roundShift num den * 2 ^ 23 + roundQuot num den

/-- `roundMag` before the cut at the infinity. -/
def roundPattern (num den : Nat) : Nat := roundFloor num den + if roundsUp num den then 1 else 0

theorem roundMag_eq_min (num den : Nat) : roundMag num den = min (roundPattern num den) infMag := rfl

theorem roundMag_le_infMag (num den : Nat) : roundMag num den ≤ infMag :=
  (roundMag_eq_min num den).trans_le (min_le_right _ _)

/-- The significand has at most 24 bits, and exactly 24 where places are cut off. -/
theorem roundQuot_bounds (num den : Nat) :
    roundQuot num den < 2 ^ 24 ∧ (roundShift num den = 0 ∨ 2 ^ 23 ≤ roundQuot num den) := by
  have hq : roundQuot num den = num / den / 2 ^ roundShift num den :=
    (Nat.div_div_eq_div_mul _ _ _).symm
  have hub : num / den < 2 ^ (Nat.log2 (num / den) + 1) := Nat.lt_log2_self
  rw [hq]
  constructor
  · rw [Nat.div_lt_iff_lt_mul (by positivity), ← pow_add, roundShift]
    exact hub.trans_le (Nat.pow_le_pow_right (by decide) (by omega))
  · refine or_iff_not_imp_left.mpr fun hsh => ?_
    have hne : num / den ≠ 0 := fun h0 => hsh (by rw [roundShift, h0]; rfl)
    rw [Nat.le_div_iff_mul_le (by positivity), ← pow_add, roundShift]
    rw [roundShift] at hsh
    exact (Nat.pow_le_pow_right (by decide) (by omega)).trans (Nat.log2_self_le hne)

theorem patternUnits_roundFloor (num den : Nat) :
    patternUnits (roundFloor num den) = roundQuot num den * 2 ^ roundShift num den :=
  have ⟨hq, hn⟩ := roundQuot_bounds num den
  patternUnits_of_split hq.le hn

theorem patternUnits_roundFloor_succ (num den : Nat) : patternUnits (roundFloor num den + 1) =
    patternUnits (roundFloor num den) + 2 ^ roundShift num den := by
  obtain ⟨hq, hn⟩ := roundQuot_bounds num den
  rw [patternUnits_roundFloor, ← Nat.succ_mul, roundFloor, Nat.add_assoc]
  exact patternUnits_of_split (Nat.succ_le_of_lt hq) (hn.imp_right Nat.le_succ_of_le)

theorem div_eq_patternUnits_roundFloor_add (num : Nat) {den : Nat} (hden : 0 < den) :
    (num : ℚ) / den = patternUnits (roundFloor num den) + roundRem num den / den := by
  have hnum : den * 2 ^ roundShift num den * roundQuot num den + roundRem num den = num :=
    Nat.div_add_mod _ _
  have hd : (den : ℚ) ≠ 0 := mod_cast hden.ne'
  rw [div_eq_iff hd, add_mul, div_mul_cancel₀ _ hd, patternUnits_roundFloor, ← Nat.cast_mul,
    ← Nat.cast_add, mul_comm _ den, ← mul_assoc, mul_right_comm, hnum]

/-- The pattern rounded down is even exactly if the significand is. -/
theorem roundFloor_mod_two (num den : Nat) : roundFloor num den % 2 = roundQuot num den % 2 := by
  rw [roundFloor]
  omega

/-- What is cut off is at most half a place exactly if the integers say so. -/
theorem two_mul_div_le_iff {den : Nat} (hden : 0 < den) (r sh : Nat) :
    2 * ((r : ℚ) / den) ≤ 2 ^ sh ↔ 2 * r ≤ den * 2 ^ sh := by
  rw [mul_div_assoc', div_le_iff₀' (mod_cast hden)]
  exact_mod_cast Iff.rfl

theorem le_two_mul_div_iff {den : Nat} (hden : 0 < den) (r sh : Nat) :
    (2 : ℚ) ^ sh ≤ 2 * (r / den) ↔ den * 2 ^ sh ≤ 2 * r := by
  rw [mul_div_assoc', le_div_iff₀' (mod_cast hden)]
  exact_mod_cast Iff.rfl

/-- Rounding takes the nearest pattern, ties to the even one. -/
theorem isNearestPattern_roundPattern (num : Nat) {den : Nat} (hden : 0 < den) :
    isNearestPattern ((num : ℚ) / den) (roundPattern num den) := by
  have hrem : roundRem num den < den * 2 ^ roundShift num den := Nat.mod_lt _ (by positivity)
  have hnext : (patternUnits (roundFloor num den + 1) : ℚ) =
      patternUnits (roundFloor num den) + 2 ^ roundShift num den :=
    mod_cast patternUnits_roundFloor_succ num den
  have hval := div_eq_patternUnits_roundFloor_add num hden
  have hpar := roundFloor_mod_two num den
  rw [roundPattern, roundsUp]
  simp only [Bool.or_eq_true, Bool.and_eq_true, decide_eq_true_iff, beq_iff_eq]
  generalize roundShift num den = sh, roundRem num den = r at *
  have hnonneg : (0 : ℚ) ≤ r / den := by positivity
  have hlt : (r : ℚ) / den < 2 ^ sh := by
    rw [div_lt_iff₀' (mod_cast hden)]
    exact_mod_cast hrem
  have below := two_mul_div_le_iff hden r sh
  have above := le_two_mul_div_iff hden r sh
  generalize (r : ℚ) / den = cut, (2 : ℚ) ^ sh = gap, (num : ℚ) / den = x at *
  split
  next hup =>
    refine isNearestPattern_upper (by linarith) ?_ fun htie => ?_
    · have := above.mpr (by omega)
      linarith
    · have := below.mp (by linarith)
      omega
  next hup =>
    rw [Nat.add_zero]
    refine isNearestPattern_lower (by linarith) ?_ fun htie => ?_
    · have := below.mpr (by omega)
      linarith
    · have := above.mp (by linarith)
      omega

/-! ## The cut at the infinity -/

/-- The values that round to an odd pattern or below it are those below the middle between it and its
successor; the middle itself goes to the successor. -/
theorem isNearestPattern.le_iff_of_odd {x : ℚ} {c p : Nat} (h : isNearestPattern x c)
    (hp : p % 2 = 1) : c ≤ p ↔ 2 * x < patternUnits p + patternUnits (p + 1) := by
  have hgap : (patternUnits p : ℚ) < patternUnits (p + 1) :=
    mod_cast patternUnits_strictMono p.lt_succ_self
  constructor
  · intro hc
    by_contra! hx
    obtain ⟨hnear, htie⟩ := h (p + 1)
    have hle : (patternUnits c : ℚ) ≤ patternUnits p := mod_cast patternUnits_strictMono.monotone hc
    rw [abs_of_nonneg (by linarith)] at hnear htie
    rcases abs_cases (x - patternUnits (p + 1)) with ⟨he, -⟩ | ⟨he, -⟩ <;> rw [he] at hnear htie
    · linarith
    · have heven := htie (by linarith) (by omega)
      have heq : (patternUnits c : ℚ) = patternUnits p := by linarith
      have hcp : c = p := patternUnits_strictMono.injective (mod_cast heq)
      omega
  · intro hx
    by_contra! hc
    obtain ⟨hnear, -⟩ := h p
    have hge : (patternUnits (p + 1) : ℚ) ≤ patternUnits c :=
      mod_cast patternUnits_strictMono.monotone hc
    rw [abs_of_nonpos (by linarith)] at hnear
    rcases abs_cases (x - patternUnits p) with ⟨he, -⟩ | ⟨he, -⟩ <;> linarith

/-- A value rounds to a finite pattern exactly below `2^128 - 2^103`, the middle between the greatest finite
value and `2^128`. -/
theorem isNearestPattern.lt_infMag_iff {x : ℚ} {c : Nat} (h : isNearestPattern x c) :
    c < infMag ↔ x < (2 ^ 25 - 1) * 2 ^ 252 := by
  have hinf : (patternUnits infMag : ℚ) = 2 ^ 25 * 2 ^ 252 := mod_cast patternUnits_infMag
  have hmax : (patternUnits (infMag - 1) : ℚ) + 2 * 2 ^ 252 = patternUnits infMag := by
    rw [← patternUnits_maxFinite_add, Nat.cast_add, Nat.cast_mul, Nat.cast_pow, Nat.cast_ofNat]
  have hpos : 1 ≤ infMag := by decide
  rw [← Nat.le_sub_one_iff_lt hpos, h.le_iff_of_odd (by decide), Nat.sub_add_cancel hpos]
  constructor <;> intro hx <;> linarith

/-- A pattern's value rounds to the pattern. -/
theorem isNearestPattern.eq_of_patternUnits {c m : Nat} (h : isNearestPattern (patternUnits m) c) :
    c = m := by
  obtain ⟨hnear, -⟩ := h m
  rw [sub_self, abs_zero, abs_nonpos_iff, sub_eq_zero, Nat.cast_inj] at hnear
  exact (patternUnits_strictMono.injective hnear).symm

/-! ## Signed values -/

/-- The real number with a sign and a magnitude in units. -/
def signedUnits (sg : Bool) (a : ℚ) : ℚ := (if sg then -1 else 1) * (a * (2 : ℚ) ^ (-149 : ℤ))

theorem ratValue_eq_signedUnits (x : Word) :
    ratValue x = signedUnits (signBit x) (patternUnits (magPattern x)) := by
  rw [ratValue_eq_units, units, magUnits_eq, signedUnits]
  split <;> simp

theorem abs_signedUnits_sub_same (sg : Bool) (a b : ℚ) :
    |signedUnits sg a - signedUnits sg b| = |a - b| * (2 : ℚ) ^ (-149 : ℤ) := by
  have hu : (0 : ℚ) < (2 : ℚ) ^ (-149 : ℤ) := by positivity
  rw [signedUnits, signedUnits, ← mul_sub, ← sub_mul, abs_mul, abs_mul, abs_of_pos hu]
  cases sg <;> simp

theorem abs_signedUnits_sub_not (sg : Bool) {a b : ℚ} (ha : 0 ≤ a) (hb : 0 ≤ b) :
    |signedUnits sg a - signedUnits (!sg) b| = (a + b) * (2 : ℚ) ^ (-149 : ℤ) := by
  have hneg : signedUnits (!sg) b = signedUnits sg (-b) := by cases sg <;> simp [signedUnits]
  rw [hneg, abs_signedUnits_sub_same, sub_neg_eq_add, abs_of_nonneg (add_nonneg ha hb)]

theorem abs_signedUnits (sg : Bool) {a : ℚ} (ha : 0 ≤ a) :
    |signedUnits sg a| = a * (2 : ℚ) ^ (-149 : ℤ) := by
  simpa [signedUnits, abs_of_nonneg ha] using abs_signedUnits_sub_same sg a 0

theorem signedUnits_neg_iff {sg : Bool} {a : ℚ} (ha : 0 < a) : signedUnits sg a < 0 ↔ sg = true := by
  have hpos : 0 < a * (2 : ℚ) ^ (-149 : ℤ) := by positivity
  cases sg with
  | true => simpa [signedUnits] using hpos
  | false => simpa [signedUnits] using hpos.le

theorem signedUnits_natAbs_div (num : Int) (den : Nat) :
    (num : ℚ) / den * (2 : ℚ) ^ (-149 : ℤ) = signedUnits (decide (num < 0)) (num.natAbs / den) := by
  rw [signedUnits, Nat.cast_natAbs, Int.cast_abs]
  by_cases h : num < 0
  · rw [abs_of_neg (by exact_mod_cast h)]
    simp [h, neg_div]
  · rw [abs_of_nonneg (by exact_mod_cast not_lt.mp h)]
    simp [h]

/-! ## The rounding of a real -/

/-- Among the words that a pattern and the sign of the value give, the nearest one is nearest among all finite
words: those of the other sign are no nearer than zero. -/
theorem isNearestPattern.ratValue_nearest {x : ℚ} {c : Nat} (h : isNearestPattern x c) (hx : 0 < x)
    {sg : Bool} {y : Word} (hsg : signBit y = sg) (hy : magPattern y = c) (z : Word) :
    |signedUnits sg x - ratValue y| ≤ |signedUnits sg x - ratValue z| ∧
      (|signedUnits sg x - ratValue y| = |signedUnits sg x - ratValue z| → ratValue z ≠ ratValue y →
        c % 2 = 0) := by
  have hu : (0 : ℚ) < (2 : ℚ) ^ (-149 : ℤ) := by positivity
  have hyv : ratValue y = signedUnits sg (patternUnits c) := by rw [ratValue_eq_signedUnits, hsg, hy]
  obtain ⟨hnear, htie⟩ := h (magPattern z)
  have hzv := ratValue_eq_signedUnits z
  rw [hyv, abs_signedUnits_sub_same]
  rcases Bool.eq_or_eq_not (signBit z) sg with hs | hs <;> rw [hs] at hzv <;> rw [hzv]
  · rw [abs_signedUnits_sub_same, mul_le_mul_iff_left₀ hu, mul_left_inj' hu.ne']
    exact ⟨hnear, fun he hne => htie he fun hc => hne (by rw [hc])⟩
  · obtain ⟨hnear0, htie0⟩ := h 0
    have hz : (0 : ℚ) ≤ patternUnits (magPattern z) := Nat.cast_nonneg _
    rw [patternUnits_zero, Nat.cast_zero, sub_zero, abs_of_pos hx] at hnear0 htie0
    rw [abs_signedUnits_sub_not sg hx.le hz, mul_le_mul_iff_left₀ hu, mul_left_inj' hu.ne']
    refine ⟨by linarith, fun he _ => ?_⟩
    by_cases hc : c = 0
    · rw [hc]
    · exact htie0 (by linarith) (Ne.symm hc)

theorem frac_mod_two (y : Word) : (frac y).toNat % 2 = magPattern y % 2 := by
  rw [toNat_frac]
  omega

/-- The nearest pattern, cut at the infinity and with the sign of the value, is the rounding of R211. -/
theorem isNearestPattern.isRoundingOf_withSign {x : ℚ} {c : Nat} (h : isNearestPattern x c) (hx : 0 < x)
    (sg : Bool) : isRoundingOf (signedUnits sg x) (withSign sg (min c infMag)) := by
  have hm : min c infMag < 2 ^ 31 := (min_le_right _ _).trans_lt (by decide)
  have hmag := magPattern_withSign sg hm
  have hsign := signBit_withSign sg hm
  have hthreshold : (2 : ℚ) ^ 128 - 2 ^ 103 = (2 ^ 25 - 1) * 2 ^ 252 * (2 : ℚ) ^ (-149 : ℤ) := by
    norm_num
  rw [isRoundingOf, hsign, abs_signedUnits sg hx.le, hthreshold, mul_lt_mul_iff_left₀ (by positivity),
    mul_le_mul_iff_left₀ (by positivity), ← not_lt, ← h.lt_infMag_iff, isInf_iff, isFinite_iff, hmag]
  refine ⟨?_, fun hover => min_eq_right (Nat.le_of_not_lt hover), fun hfin => ?_⟩
  · rw [Bool.eq_iff_iff, decide_eq_true_iff, signedUnits_neg_iff hx]
  · rw [min_eq_left hfin.le] at hmag hsign ⊢
    refine ⟨hfin, fun z _ => ?_⟩
    rw [frac_mod_two, hmag]
    exact h.ratValue_nearest hx hsign hmag z

/-- Settles O48. The pattern that `roundMag` takes is the nearest one, the cut at the infinity acts from the
overflow threshold on, and the sign is that of the value. -/
theorem roundingIsNearestEven : Obligations.RoundingIsNearestEven := by
  intro num den hnum hden
  have hx : (0 : ℚ) < num.natAbs / den :=
    div_pos (mod_cast Int.natAbs_pos.mpr hnum) (mod_cast hden)
  rw [signedUnits_natAbs_div, roundUnits, roundMag_eq_min]
  exact (isNearestPattern_roundPattern num.natAbs hden).isRoundingOf_withSign hx _

end Sys2Proof.Machine
end

