-- ==== Sys2Proof/Proofs/FloatArith.lean ====
section
/-! SUPPORT. The case tables of 44_float_arith.md: one equation for each case of `fadd` (R212), `fmul` (R214)
and `ffma` (R215). The statements about the real values then rest on the rounding alone. -/

namespace Sys2Proof.Machine

/-! ## Rounding exact values -/

theorem roundMag_zero {den : Nat} (hden : 0 < den) : roundMag 0 den = 0 := by
  have hnear : isNearestPattern (patternUnits 0 : Nat) (roundPattern 0 den) := by
    simpa using isNearestPattern_roundPattern 0 hden
  rw [roundMag_eq_min, hnear.eq_of_patternUnits, Nat.zero_min]

/-- A finite value is its own rounding. -/
theorem roundMag_patternUnits {m : Nat} (hm : m < infMag) : roundMag (patternUnits m) 1 = m := by
  have hnear : isNearestPattern (patternUnits m) (roundPattern (patternUnits m) 1) := by
    simpa using isNearestPattern_roundPattern (patternUnits m) Nat.one_pos
  rw [roundMag_eq_min, hnear.eq_of_patternUnits, min_eq_left hm.le]

theorem roundUnits_zero {den : Nat} (hden : 0 < den) : roundUnits 0 den = 0x00000000#32 := by
  rw [roundUnits, Int.natAbs_zero, roundMag_zero hden]
  rfl

theorem roundUnits_units {x : Word} (hx : isFinite x = true) (hnz : isZero x = false) :
    roundUnits (units x) 1 = x := by
  rw [roundUnits, decide_units_neg hnz, natAbs_units, magUnits_eq,
    roundMag_patternUnits (isFinite_iff.mp hx), withSign_signBit_magPattern]

/-- What `roundUnits` gives for the real number `r`: `+0` for an exact zero, else the rounding of `r`. -/
theorem roundUnits_of_eq {num : Int} {den : Nat} (hden : 0 < den) {r : ℚ}
    (hr : r = (num : ℚ) / den * (2 : ℚ) ^ (-149 : ℤ)) :
    if r = 0 then roundUnits num den = 0x00000000#32 else isRoundingOf r (roundUnits num den) := by
  have hd : (den : ℚ) ≠ 0 := mod_cast hden.ne'
  have hzero : r = 0 ↔ num = 0 := by simp [hr, hd]
  split
  next h => rw [hzero.mp h, roundUnits_zero hden]
  next h => exact hr ▸ roundingIsNearestEven num den (mt hzero.mpr h) hden

theorem ratValue_eq_zero_iff {x : Word} : ratValue x = 0 ↔ isZero x = true := by
  rw [← units_eq_zero_iff, ratValue_eq_units]
  simp

/-! ## The sum -/

section Sum

variable {x y : Word}

theorem fadd_of_isNaN (h : isNaN x = true ∨ isNaN y = true) : fadd x y = canonNaN :=
  if_pos (Bool.or_eq_true _ _ ▸ h)

theorem fadd_of_isInf_of_isInf (hx : isInf x = true) (hy : isInf y = true) :
    fadd x y = if signBit x = signBit y then x else canonNaN := by
  simp [fadd, isNaN_of_isInf, hx, hy]

theorem fadd_of_isInf_of_isFinite (hx : isInf x = true) (hy : isFinite y = true) : fadd x y = x := by
  simp [fadd, isNaN_of_isInf, isNaN_of_isFinite, isInf_of_isFinite, hx, hy]

theorem fadd_of_isFinite_of_isInf (hx : isFinite x = true) (hy : isInf y = true) : fadd x y = y := by
  simp [fadd, isNaN_of_isInf, isNaN_of_isFinite, isInf_of_isFinite, hx, hy]

theorem fadd_of_isZero_of_isZero (hx : isZero x = true) (hy : isZero y = true) :
    fadd x y = zero (signBit x && signBit y) := by
  simp [fadd, isNaN_of_isFinite, isInf_of_isFinite, isFinite_of_isZero, hx, hy]

theorem fadd_of_isFinite (hx : isFinite x = true) (hy : isFinite y = true)
    (h : ¬ (isZero x = true ∧ isZero y = true)) : fadd x y = roundUnits (units x + units y) 1 := by
  simp [fadd, isNaN_of_isFinite, isInf_of_isFinite, hx, hy, h]

/-- The exact sum is a number of units. -/
theorem ratValue_add (x y : Word) : ratValue x + ratValue y =
    ((units x + units y : Int) : ℚ) / (1 : Nat) * (2 : ℚ) ^ (-149 : ℤ) := by
  rw [ratValue_eq_units, ratValue_eq_units]
  push_cast
  ring

theorem fadd_zero_left (hx : isZero x = true) (hy : isFinite y = true) (hnz : isZero y = false) :
    fadd x y = y := by
  rw [fadd_of_isFinite (isFinite_of_isZero hx) hy (by simp [hnz]), units_eq_zero_iff.mpr hx, zero_add,
    roundUnits_units hy hnz]

theorem fadd_zero_right (hx : isZero x = true) (hy : isFinite y = true) (hnz : isZero y = false) :
    fadd y x = y := by
  rw [fadd_of_isFinite hy (isFinite_of_isZero hx) (by simp [hnz]), units_eq_zero_iff.mpr hx, add_zero,
    roundUnits_units hy hnz]

end Sum

theorem zero_and (a b : Bool) :
    zero (a && b) = if a = true ∧ b = true then 0x80000000#32 else 0x00000000#32 := by
  cases a <;> cases b <;> rfl

/-- Settles O49. The cases are the equations above; the sum of two finite values is a number of units, rounded
once. -/
theorem faddFsubAreIeee : Obligations.FaddFsubAreIeee := by
  refine ⟨fun x y => ⟨fadd_of_isNaN, fadd_of_isInf_of_isInf, fadd_of_isInf_of_isFinite,
    fadd_of_isFinite_of_isInf, fun hx hy => ?zeros, fun hx hy hnz => ?sum,
    fun hx hy hnz => ⟨fadd_zero_left hx hy hnz, fadd_zero_right hx hy hnz⟩⟩, fun _ _ => rfl⟩
  case zeros =>
    rw [fadd_of_isZero_of_isZero hx hy, zero_and]
    simp only [eq_negZero_iff hx, eq_negZero_iff hy]
  case sum =>
    rw [fadd_of_isFinite hx hy hnz]
    exact roundUnits_of_eq Nat.one_pos (ratValue_add x y)

/-! ## The cases of a product -/

/-- Zero times infinity (R214 item 2, R215 item 2). -/
def productInvalid (x y : Word) : Prop :=
  (isZero x = true ∧ isInf y = true) ∨ (isInf x = true ∧ isZero y = true)

/-- An infinity times a nonzero number (R214 item 3, R215 item 3). -/
def productInfinite (x y : Word) : Prop :=
  isInf x = true ∧ (isInf y = true ∨ (isFinite y = true ∧ isZero y = false)) ∨
    isInf y = true ∧ (isFinite x = true ∧ isZero x = false)

/-- An exact zero product of finite numbers (R214 item 4, R215 items 5 and 6). -/
def productZero (x y : Word) : Prop :=
  isFinite x = true ∧ isFinite y = true ∧ (isZero x = true ∨ isZero y = true)

/-- A product of finite nonzero numbers (R214 item 5, R215 item 7). -/
def productNonzero (x y : Word) : Prop :=
  isFinite x = true ∧ isFinite y = true ∧ isZero x = false ∧ isZero y = false

/-- A word is a NaN, an infinity, a zero or a finite nonzero number. -/
theorem word_cases (x : Word) : isNaN x = true ∨ isInf x = true ∨ isZero x = true ∨
    (isFinite x = true ∧ isZero x = false) := by
  rw [isNaN_iff, isInf_iff, isFinite_iff, ← Bool.not_eq_true, isZero_iff]
  omega

/-- The five cases of R214. -/
theorem product_cases (x y : Word) : (isNaN x = true ∨ isNaN y = true) ∨ productInvalid x y ∨
    productInfinite x y ∨ productZero x y ∨ productNonzero x y := by
  rw [productInvalid, productInfinite, productZero, productNonzero]
  have hx := word_cases x
  have hy := word_cases y
  grind [isFinite_of_isZero]

section Product

variable {x y : Word}

theorem fmul_of_isNaN (h : isNaN x = true ∨ isNaN y = true) : fmul x y = canonNaN :=
  if_pos (Bool.or_eq_true _ _ ▸ h)

theorem fmul_of_productInvalid (h : productInvalid x y) : fmul x y = canonNaN := by
  obtain ⟨hx, hy⟩ | ⟨hx, hy⟩ := h <;> simp [fmul, hx, hy]

theorem fmul_of_productInfinite (h : productInfinite x y) :
    fmul x y = infinity (signBit x ^^ signBit y) := by
  obtain ⟨hx, hy | ⟨hy, hnz⟩⟩ | ⟨hy, hx, hnz⟩ := h <;>
    simp [fmul, isNaN_of_isInf, isNaN_of_isFinite, isInf_of_isFinite, isZero_of_isInf, *]

theorem fmul_of_productZero (h : productZero x y) : fmul x y = zero (signBit x ^^ signBit y) := by
  obtain ⟨hx, hy, hz⟩ := h
  simp [fmul, isNaN_of_isFinite, isInf_of_isFinite, hx, hy, hz]

theorem fmul_of_productNonzero (h : productNonzero x y) :
    fmul x y = roundUnits (units x * units y) (2 ^ 149) := by
  obtain ⟨hx, hy, hxz, hyz⟩ := h
  simp [fmul, isNaN_of_isFinite, isInf_of_isFinite, hx, hy, hxz, hyz]

/-- The exact product is a number of units of 2^-298. -/
theorem ratValue_mul (x y : Word) : ratValue x * ratValue y =
    ((units x * units y : Int) : ℚ) / (2 ^ 149 : Nat) * (2 : ℚ) ^ (-149 : ℤ) := by
  rw [ratValue_eq_units, ratValue_eq_units, zpow_neg, zpow_ofNat]
  push_cast
  ring

end Product

theorem infinity_xor (a b : Bool) :
    infinity (a ^^ b) = if a = b then 0x7F800000#32 else 0xFF800000#32 := by
  cases a <;> cases b <;> rfl

theorem zero_xor (a b : Bool) : zero (a ^^ b) = if a = b then 0x00000000#32 else 0x80000000#32 := by
  cases a <;> cases b <;> rfl

/-- Settles O50. The cases are those of the product; a nonzero product is a number of units of 2^-298, rounded
once. -/
theorem fmulIsIeee : Obligations.FmulIsIeee := by
  refine fun x y => ⟨fmul_of_isNaN, fmul_of_productInvalid, fun h => ?infinite, fun h => ?zero,
    fun hx hy hxz hyz => ?nonzero⟩
  case infinite => rw [fmul_of_productInfinite h, infinity_xor]
  case zero =>
    have hzero : productZero x y := by
      obtain ⟨hx, hy⟩ | ⟨hx, hy⟩ := h
      · exact ⟨isFinite_of_isZero hx, hy, .inl hx⟩
      · exact ⟨hx, isFinite_of_isZero hy, .inr hy⟩
    rw [fmul_of_productZero hzero, zero_xor]
  case nonzero =>
    have hne : ratValue x * ratValue y ≠ 0 := by simp [ratValue_eq_zero_iff, hxz, hyz]
    rw [fmul_of_productNonzero ⟨hx, hy, hxz, hyz⟩]
    exact (if_neg hne).mp (roundUnits_of_eq (by positivity) (ratValue_mul x y))

/-! ## The fused multiply-add -/

section Fused

variable {x y z : Word}

theorem ffma_of_isNaN (h : isNaN x = true ∨ isNaN y = true ∨ isNaN z = true) :
    ffma x y z = canonNaN := by
  simp [ffma, or_assoc, h]

theorem ffma_of_productInvalid (h : productInvalid x y) : ffma x y z = canonNaN := by
  obtain ⟨hx, hy⟩ | ⟨hx, hy⟩ := h <;> simp [ffma, hx, hy]

theorem ffma_of_productInfinite (h : productInfinite x y) (hz : isNaN z = false) :
    ffma x y z = if isInf z = true ∧ signBit z ≠ (signBit x ^^ signBit y) then canonNaN
      else infinity (signBit x ^^ signBit y) := by
  obtain ⟨hx, hy | ⟨hy, hnz⟩⟩ | ⟨hy, hx, hnz⟩ := h <;>
    simp [ffma, isNaN_of_isInf, isNaN_of_isFinite, isInf_of_isFinite, isZero_of_isInf, *]

theorem ffma_of_isInf_addend (hx : isFinite x = true) (hy : isFinite y = true)
    (hz : isInf z = true) : ffma x y z = z := by
  simp [ffma, isNaN_of_isFinite, isInf_of_isFinite, isNaN_of_isInf, hx, hy, hz]

theorem ffma_of_productZero_of_isZero (h : productZero x y) (hz : isZero z = true) :
    ffma x y z = zero ((signBit x ^^ signBit y) && signBit z) := by
  obtain ⟨hx, hy, hxy⟩ := h
  simp [ffma, isNaN_of_isFinite, isInf_of_isFinite, isFinite_of_isZero, hx, hy, hxy, hz]

theorem ffma_of_productZero_of_nonzero (h : productZero x y) (hz : isFinite z = true)
    (hnz : isZero z = false) : ffma x y z = z := by
  obtain ⟨hx, hy, hxy⟩ := h
  simp [ffma, isNaN_of_isFinite, isInf_of_isFinite, hx, hy, hxy, hz, hnz]

theorem ffma_of_productNonzero (h : productNonzero x y) (hz : isFinite z = true) :
    ffma x y z = roundUnits (units x * units y + units z * 2 ^ 149) (2 ^ 149) := by
  obtain ⟨hx, hy, hxz, hyz⟩ := h
  simp [ffma, isNaN_of_isFinite, isInf_of_isFinite, hx, hy, hxz, hyz, hz]

/-- The exact value of `x*y + z` is a number of units of 2^-298. -/
theorem ratValue_mul_add (x y z : Word) : ratValue x * ratValue y + ratValue z =
    ((units x * units y + units z * 2 ^ 149 : Int) : ℚ) / (2 ^ 149 : Nat) * (2 : ℚ) ^ (-149 : ℤ) := by
  rw [ratValue_mul, ratValue_eq_units z, ← add_mul]
  push_cast
  rw [add_div, mul_div_cancel_right₀ _ (by positivity)]

end Fused

/-- Settles O51. The product of finite values enters the sum exactly, and the sum is rounded once. -/
theorem ffmaRoundsOnce : Obligations.FfmaRoundsOnce := by
  refine fun x y z => ⟨ffma_of_isNaN, ffma_of_productInvalid, fun h hz => ?infinite,
    ffma_of_isInf_addend, fun hx hy hxy hz => ?zeros,
    fun hx hy hxy => ffma_of_productZero_of_nonzero ⟨hx, hy, hxy⟩, fun hx hy hxz hyz hz => ?nonzero⟩
  case infinite => rw [ffma_of_productInfinite h hz, infinity_xor]
  case zeros =>
    rw [ffma_of_productZero_of_isZero ⟨hx, hy, hxy⟩ hz, zero_and]
    simp only [eq_negZero_iff hz, Bool.xor_iff_ne]
  case nonzero =>
    rw [ffma_of_productNonzero ⟨hx, hy, hxz, hyz⟩ hz]
    exact roundUnits_of_eq (by positivity) (ratValue_mul_add x y z)

/-! ## The product through the fused unit (R225) -/

/-- With a zero addend the fused unit gives the product but where that is an exact zero. -/
theorem ffma_zero_addend {x y z : Word} (h : ¬ productZero x y) (hz : isZero z = true) :
    ffma x y z = fmul x y := by
  have hfin := isFinite_of_isZero hz
  rcases product_cases x y with hn | hi | hi | h0 | hp
  · rw [fmul_of_isNaN hn, ffma_of_isNaN (or_assoc.mp (.inl hn))]
  · rw [fmul_of_productInvalid hi, ffma_of_productInvalid hi]
  · rw [fmul_of_productInfinite hi, ffma_of_productInfinite hi (isNaN_of_isFinite hfin),
      isInf_of_isFinite hfin, if_neg (by simp)]
  · exact absurd h0 h
  · rw [fmul_of_productNonzero hp, ffma_of_productNonzero hp hfin, units_eq_zero_iff.mpr hz, zero_mul,
      add_zero]

/-- Settles O53. Only an exact zero product can differ, by the sign of the zero. -/
theorem fmulThroughFusedUnit : Obligations.FmulThroughFusedUnit := by
  intro x y
  have negZero : isZero 0x80000000#32 = true := by decide
  have posZero : isZero 0x00000000#32 = true := by decide
  refine ⟨?negative, fun hx hy hxy hs => ?exception, fun hno => ?positive⟩
  case negative =>
    by_cases h : productZero x y
    · rw [ffma_of_productZero_of_isZero h negZero, fmul_of_productZero h,
        show signBit 0x80000000#32 = true from rfl, Bool.and_true]
    · exact ffma_zero_addend h negZero
  case exception =>
    have h : productZero x y := ⟨hx, hy, hxy⟩
    rw [ffma_of_productZero_of_isZero h posZero, fmul_of_productZero h, zero_xor, if_neg hs,
      show signBit 0x00000000#32 = false from rfl, Bool.and_false]
    exact ⟨rfl, rfl⟩
  case positive =>
    by_cases h : productZero x y
    · have ⟨hx, hy, hxy⟩ := h
      have hs : signBit x = signBit y := by_contra fun hs => hno ⟨hx, hy, hxy, hs⟩
      rw [ffma_of_productZero_of_isZero h posZero, fmul_of_productZero h, hs, Bool.xor_self,
        Bool.false_and]
    · exact ffma_zero_addend h posZero

end Sys2Proof.Machine
end

