-- ==== Sys2Proof/Proofs/NanResults.lean ====
section
/-! SUPPORT. The NaN rule (44_float_arith.md R216): a NaN operand gives `canonNaN` through every operation and
refinement, and no operation, estimate or refinement gives another NaN. -/

namespace Sys2Proof.Machine

/-! ## NaN operands -/

theorem fsub_of_isNaN {x y : Word} (h : isNaN x = true ∨ isNaN y = true) : fsub x y = canonNaN :=
  fadd_of_isNaN (h.imp_right fun hy => (isNaN_neg y).trans hy)

theorem nrRcp_of_isNaN {b r : Word} (h : isNaN b = true ∨ isNaN r = true) : nrRcp b r = canonNaN := by
  have ht : fmul b r = canonNaN := fmul_of_isNaN h
  have hu : fsub fTwo canonNaN = canonNaN := fsub_of_isNaN (.inr isNaN_canonNaN)
  rw [nrRcp, ht, hu]
  exact fmul_of_isNaN (.inr isNaN_canonNaN)

theorem nrRsq_of_isNaN {a r : Word} (h : isNaN a = true ∨ isNaN r = true) : nrRsq a r = canonNaN := by
  have ht : fmul a (fmul r r) = canonNaN := fmul_of_isNaN <| h.imp_right fun hr => by
    rw [fmul_of_isNaN (.inl hr), isNaN_canonNaN]
  have hu : fsub fThree canonNaN = canonNaN := fsub_of_isNaN (.inr isNaN_canonNaN)
  rw [nrRsq, ht, hu]
  exact fmul_of_isNaN (.inr isNaN_canonNaN)

section Operand

variable {x : Word} (h : isNaN x = true)
include h

theorem rcpEst_of_isNaN : rcpEst x = canonNaN := if_pos h

theorem rsqrtEst_of_isNaN : rsqrtEst x = canonNaN := if_pos h

theorem rcpLane_of_isNaN : rcpLane x = canonNaN := nrRcp_of_isNaN (.inl h)

theorem rsqrtLane_of_isNaN : rsqrtLane x = canonNaN := nrRsq_of_isNaN (.inl h)

theorem fsqrtLane_of_isNaN : fsqrtLane x = canonNaN := fmul_of_isNaN (.inl h)

end Operand

theorem fdivLane_of_isNaN {x y : Word} (h : isNaN x = true ∨ isNaN y = true) :
    fdivLane x y = canonNaN :=
  fmul_of_isNaN <| h.imp_right fun hy => by rw [rcpLane_of_isNaN hy, isNaN_canonNaN]

/-! ## NaN results -/

/-- A result that is a NaN only as `canonNaN`. -/
def nanIsCanonical (z : Word) : Prop := isNaN z = true → z = canonNaN

theorem nanIsCanonical_canonNaN : nanIsCanonical canonNaN := fun _ => rfl

theorem nanIsCanonical_of_not {z : Word} (h : isNaN z = false) : nanIsCanonical z :=
  fun hn => absurd hn (Bool.eq_false_iff.mp h)

theorem isNaN_withSign (sg : Bool) {m : Nat} (h : m ≤ infMag) : isNaN (withSign sg m) = false := by
  rw [← Bool.not_eq_true, isNaN_iff, magPattern_withSign sg (h.trans_lt (by decide))]
  exact h.not_gt

theorem isNaN_zero (sg : Bool) : isNaN (zero sg) = false := isNaN_withSign sg (Nat.zero_le _)

theorem isNaN_infinity (sg : Bool) : isNaN (infinity sg) = false := isNaN_withSign sg le_rfl

theorem isNaN_roundUnits (num : Int) (den : Nat) : isNaN (roundUnits num den) = false :=
  isNaN_withSign _ (roundMag_le_infMag _ _)

theorem nanIsCanonical_of_isInf {z : Word} (h : isInf z = true) : nanIsCanonical z :=
  nanIsCanonical_of_not (isNaN_of_isInf h)

/-- The sum gives `canonNaN`, an infinite operand, a zero or a rounding. -/
theorem nanIsCanonical_fadd (x y : Word) : nanIsCanonical (fadd x y) := by
  unfold fadd
  split_ifs with hnan hinf hsign hx hy
  · exact nanIsCanonical_canonNaN
  · exact nanIsCanonical_of_isInf (Bool.and_elim_left hinf)
  · exact nanIsCanonical_canonNaN
  · exact nanIsCanonical_of_isInf hx
  · exact nanIsCanonical_of_isInf hy
  · exact nanIsCanonical_of_not (isNaN_zero _)
  · exact nanIsCanonical_of_not (isNaN_roundUnits _ _)

theorem nanIsCanonical_fsub (x y : Word) : nanIsCanonical (fsub x y) := nanIsCanonical_fadd x (neg y)

theorem nanIsCanonical_fmul (x y : Word) : nanIsCanonical (fmul x y) := by
  rcases product_cases x y with hn | hi | hi | h0 | hp
  · exact fmul_of_isNaN hn ▸ nanIsCanonical_canonNaN
  · exact fmul_of_productInvalid hi ▸ nanIsCanonical_canonNaN
  · exact fmul_of_productInfinite hi ▸ nanIsCanonical_of_not (isNaN_infinity _)
  · exact fmul_of_productZero h0 ▸ nanIsCanonical_of_not (isNaN_zero _)
  · exact fmul_of_productNonzero hp ▸ nanIsCanonical_of_not (isNaN_roundUnits _ _)

/-- The fused unit gives `canonNaN`, an infinity, the addend where that is no NaN, a zero or a rounding. -/
theorem nanIsCanonical_ffma (x y z : Word) : nanIsCanonical (ffma x y z) := by
  simp only [ffma]
  split_ifs with hnan hinvalid hinf hopposite hz hzeros hzero
  · exact nanIsCanonical_canonNaN
  · exact nanIsCanonical_canonNaN
  · exact nanIsCanonical_canonNaN
  · exact nanIsCanonical_of_not (isNaN_infinity _)
  · exact nanIsCanonical_of_isInf hz
  · exact nanIsCanonical_of_not (isNaN_zero _)
  · exact fun hn => absurd (by rw [hn, Bool.or_true]) hnan
  · exact nanIsCanonical_of_not (isNaN_roundUnits _ _)

/-! ## NaN answers of the estimators -/

theorem expo_and (x y : Word) : expo (x &&& y) = expo x &&& expo y := by
  simp only [expo]; ext i hi; simp

theorem isNaN_of_expo {x : Word} (h : expo x ≠ 255) : isNaN x = false :=
  isNaN_of_isFinite (bne_iff_ne.mpr h)

/-- Clearing fraction bits leaves the exponent. -/
theorem isNaN_truncateEstimate {t : Word} (h : isNaN t = false) :
    isNaN (truncateEstimate t) = false := by
  rw [truncateEstimate]
  split
  · exact h
  next he =>
    have hmask : expo (t &&& 0xFFFFF800#32) = expo t := by
      rw [expo_and, show expo 0xFFFFF800#32 = BitVec.allOnes 8 from rfl, BitVec.and_allOnes]
    simp only [Bool.or_eq_true, beq_iff_eq, not_or] at he
    exact isNaN_of_expo (hmask ▸ he.2)

theorem isNaN_rcpRefFinite (b : Word) : isNaN (rcpRefFinite b) = false :=
  isNaN_truncateEstimate (isNaN_withSign _ (roundMag_le_infMag _ _))

theorem isNaN_rsqrtRefPositive (a : Word) : isNaN (rsqrtRefPositive a) = false :=
  isNaN_truncateEstimate (isNaN_withSign _ (roundMag_le_infMag _ _))

theorem isNaN_of_rcpAdmits {b r : Word} (h : rcpAdmits b r = true) : isNaN r = false := by
  rw [rcpAdmits, Bool.and_eq_true] at h
  obtain ⟨-, h⟩ := h
  split at h
  · simp only [Bool.and_eq_true] at h
    exact isNaN_of_isFinite h.1.1
  · simpa using h

theorem isNaN_of_rsqrtAdmits {a r : Word} (h : rsqrtAdmits a r = true) : isNaN r = false := by
  simp only [rsqrtAdmits, Bool.and_eq_true, Bool.not_eq_true'] at h
  obtain ⟨⟨-, hn⟩, -⟩ := h
  exact hn

theorem nanIsCanonical_rcpEst (b : Word) : nanIsCanonical (rcpEst b) := by
  unfold rcpEst
  split_ifs with hnan hzero hinf hraw
  · exact nanIsCanonical_canonNaN
  · exact nanIsCanonical_of_not (isNaN_infinity _)
  · exact nanIsCanonical_of_not (isNaN_zero _)
  · exact nanIsCanonical_of_not (isNaN_of_rcpAdmits hraw)
  · exact nanIsCanonical_of_not (isNaN_rcpRefFinite b)

theorem nanIsCanonical_rsqrtEst (a : Word) : nanIsCanonical (rsqrtEst a) := by
  unfold rsqrtEst
  split_ifs with hnan hzero hneg hinf hraw
  · exact nanIsCanonical_canonNaN
  · exact nanIsCanonical_of_not (isNaN_infinity _)
  · exact nanIsCanonical_canonNaN
  · exact nanIsCanonical_of_not (isNaN_zero _)
  · exact nanIsCanonical_of_not (isNaN_of_rsqrtAdmits hraw)
  · exact nanIsCanonical_of_not (isNaN_rsqrtRefPositive a)

/-- Settles O52. Each refinement and refined lane is a product, so it takes the NaN rule from `fmul`. -/
theorem nanResultsAreCanonical : Obligations.NanResultsAreCanonical := by
  refine ⟨isNaN_canonNaN, ?quiet, fun x y z hx => ?operations, fun x y hx => ?refinements,
    fun x y => ?results, nanIsCanonical_ffma⟩
  case quiet => rw [isQuietNaN, isNaN_canonNaN, quietBit_canonNaN, Bool.and_self]
  case operations =>
    exact ⟨fadd_of_isNaN (.inl hx), fadd_of_isNaN (.inr hx), fsub_of_isNaN (.inl hx),
      fsub_of_isNaN (.inr hx), fmul_of_isNaN (.inl hx), fmul_of_isNaN (.inr hx),
      ffma_of_isNaN (.inl hx), ffma_of_isNaN (.inr (.inl hx)), ffma_of_isNaN (.inr (.inr hx))⟩
  case refinements =>
    exact ⟨rcpEst_of_isNaN hx, rsqrtEst_of_isNaN hx, nrRcp_of_isNaN (.inl hx),
      nrRcp_of_isNaN (.inr hx), nrRsq_of_isNaN (.inl hx), nrRsq_of_isNaN (.inr hx),
      rcpLane_of_isNaN hx, rsqrtLane_of_isNaN hx, fdivLane_of_isNaN (.inl hx),
      fdivLane_of_isNaN (.inr hx), fsqrtLane_of_isNaN hx⟩
  case results =>
    simp only [List.forall_mem_cons]
    exact ⟨nanIsCanonical_fadd x y, nanIsCanonical_fsub x y, nanIsCanonical_fmul x y,
      nanIsCanonical_rcpEst x, nanIsCanonical_rsqrtEst x, nanIsCanonical_fmul _ _,
      nanIsCanonical_fmul _ _, nanIsCanonical_fmul _ _, nanIsCanonical_fmul _ _,
      nanIsCanonical_fmul _ _, nanIsCanonical_fmul _ _, fun _ h => absurd h List.not_mem_nil⟩

end Sys2Proof.Machine
end

