-- ==== Sys2Proof/Proofs/FloatRows.lean ====
section
/-! SUPPORT. The lane-wise rows of 44_float_arith.md (R217 to R224). -/

namespace Sys2Proof.Machine

theorem lanewiseTernary_r4 {op : Nat} {ins : Reg → Reg → Reg → Reg → Instr}
    {f : Word → Word → Word → Word} (h : op < 256)
    (hr : opcodeRow op = some (.r4, fun g => ins g.a g.b g.c g.d))
    (hx : ∀ vd va vb vc s, exec (ins vd va vb vc) s =
      .next (s.writeReg vd (Quad.map₃ f (s.operand 0 va) (s.operand 1 vb) (s.operand 2 vc)))) :
    lanewiseTernary op ins f :=
  lanewiseTernary_of (fun _ _ _ _ => encodesRow_r4 h hr fun _ => rfl) hx

/-- Settles O54. Each row is one register write of its lane operation. -/
theorem floatArithmeticRows : Obligations.FloatArithmeticRows := by
  refine ⟨?fadd, ?fsub, ?fmul, ?fabs, ?fcpsgn, ?fma, ?fnms, ?fms⟩
  case fadd | fsub | fmul | fcpsgn => exact lanewiseBinary_r3 (by decide) rfl fun _ _ _ _ => rfl
  case fabs => exact lanewiseUnary_r2 (by decide) rfl fun _ _ _ => rfl
  case fma | fnms | fms => exact lanewiseTernary_r4 (by decide) rfl fun _ _ _ _ _ => rfl

end Sys2Proof.Machine
end

section
/-! SUPPORT. The estimate-and-refine family (45_float_newton.md R233 to R241): its rows, and the poles. At a
pole the first product of a refinement is zero times infinity or has a NaN operand, and the NaN goes through
every later operation. -/

namespace Sys2Proof.Machine

/-- Settles O57. The refinements are the formulas with each operation rounded, and each row is one register
write of its lane operation. -/
theorem estimateAndRefineRows : Obligations.EstimateAndRefineRows := by
  refine ⟨fun _ _ => rfl, fun _ _ => rfl, ?frcpa, ?frcp, ?frsqrta, ?frsqrt, ?fdiv, ?fsqrt⟩
  case frcpa | frcp | frsqrta | frsqrt | fsqrt =>
    exact lanewiseUnary_r2 (by decide) rfl fun _ _ _ => rfl
  case fdiv => exact lanewiseBinary_r3 (by decide) rfl fun _ _ _ _ => rfl

/-! ## The estimates at the special operands (R231 items 1 to 3, R232 items 1 to 4) -/

section Special

variable {x : Word}

theorem isInf_infinity (sg : Bool) : isInf (infinity sg) = true := by cases sg <;> decide

theorem isZero_zero (sg : Bool) : isZero (zero sg) = true := by cases sg <;> decide

theorem rcpEst_of_isZero (h : isZero x = true) : rcpEst x = infinity (signBit x) := by
  simp [rcpEst, isNaN_of_isFinite (isFinite_of_isZero h), h]

theorem rcpEst_of_isInf (h : isInf x = true) : rcpEst x = zero (signBit x) := by
  simp [rcpEst, isNaN_of_isInf h, isZero_of_isInf h, h]

theorem rsqrtEst_of_isZero (h : isZero x = true) : rsqrtEst x = infinity (signBit x) := by
  simp [rsqrtEst, isNaN_of_isFinite (isFinite_of_isZero h), h]

theorem rsqrtEst_of_isInf (h : isInf x = true) (hs : signBit x = false) :
    rsqrtEst x = zero false := by
  simp [rsqrtEst, isNaN_of_isInf h, isZero_of_isInf h, h, hs]

/-- Below zero, `-inf` included, there is no root. -/
theorem rsqrtEst_of_neg (hnz : isZero x = false) (hs : signBit x = true) :
    rsqrtEst x = canonNaN := by
  simp [rsqrtEst, hnz, hs]

end Special

/-! ## A refinement that starts from an invalid product -/

theorem nrRcp_of_productInvalid {b r : Word} (h : productInvalid b r) : nrRcp b r = canonNaN := by
  have hu : fsub fTwo canonNaN = canonNaN := fsub_of_isNaN (.inr isNaN_canonNaN)
  rw [nrRcp, fmul_of_productInvalid h, hu]
  exact fmul_of_isNaN (.inr isNaN_canonNaN)

theorem nrRsq_of_productInvalid {a r : Word} (h : productInvalid a (fmul r r)) :
    nrRsq a r = canonNaN := by
  have hu : fsub fThree canonNaN = canonNaN := fsub_of_isNaN (.inr isNaN_canonNaN)
  rw [nrRsq, fmul_of_productInvalid h, hu]
  exact fmul_of_isNaN (.inr isNaN_canonNaN)

/-- The second refinement keeps the NaN of the first. -/
theorem rcpLane_of_nrRcp {x : Word} (h : nrRcp x (rcpEst x) = canonNaN) : rcpLane x = canonNaN := by
  rw [rcpLane, refineRcp, h]
  exact nrRcp_of_isNaN (.inr isNaN_canonNaN)

theorem rsqrtLane_of_nrRsq {x : Word} (h : nrRsq x (rsqrtEst x) = canonNaN) :
    rsqrtLane x = canonNaN := by
  rw [rsqrtLane, refineRsqrt, h]
  exact nrRsq_of_isNaN (.inr isNaN_canonNaN)

/-! ## The poles (R241) -/

/-- The operands at which every refined result is a NaN. -/
def isPole (x : Word) : Prop := isZero x = true ∨ isInf x = true ∨ isNaN x = true

theorem rcpLane_of_isPole {x : Word} (h : isPole x) : rcpLane x = canonNaN := by
  rcases h with hz | hi | hn
  · refine rcpLane_of_nrRcp (nrRcp_of_productInvalid (.inl ⟨hz, ?_⟩))
    rw [rcpEst_of_isZero hz, isInf_infinity]
  · refine rcpLane_of_nrRcp (nrRcp_of_productInvalid (.inr ⟨hi, ?_⟩))
    rw [rcpEst_of_isInf hi, isZero_zero]
  · exact rcpLane_of_isNaN hn

/-- Below zero the estimate is already a NaN. -/
theorem rsqrtLane_of_neg {x : Word} (hnz : isZero x = false) (hs : signBit x = true) :
    rsqrtLane x = canonNaN :=
  rsqrtLane_of_nrRsq (nrRsq_of_isNaN (.inr (by rw [rsqrtEst_of_neg hnz hs, isNaN_canonNaN])))

theorem rsqrtLane_of_isPole {x : Word} (h : isPole x) : rsqrtLane x = canonNaN := by
  rcases h with hz | hi | hn
  · have hinf := isInf_infinity (signBit x)
    refine rsqrtLane_of_nrRsq (nrRsq_of_productInvalid (.inl ⟨hz, ?_⟩))
    rw [rsqrtEst_of_isZero hz, fmul_of_productInfinite (.inl ⟨hinf, .inl hinf⟩), isInf_infinity]
  · cases hs : signBit x with
    | true => exact rsqrtLane_of_neg (isZero_of_isInf hi) hs
    | false =>
      have hzero := isZero_zero false
      have hfin := isFinite_of_isZero hzero
      refine rsqrtLane_of_nrRsq (nrRsq_of_productInvalid (.inr ⟨hi, ?_⟩))
      rw [rsqrtEst_of_isInf hi hs, fmul_of_productZero ⟨hfin, hfin, .inl hzero⟩, isZero_zero]
  · exact rsqrtLane_of_isNaN hn

theorem fdivLane_of_isPole {x y : Word} (h : isPole y) : fdivLane x y = canonNaN :=
  fmul_of_isNaN (.inr (by rw [rcpLane_of_isPole h, isNaN_canonNaN]))

theorem fsqrtLane_of_rsqrtLane {x : Word} (h : rsqrtLane x = canonNaN) : fsqrtLane x = canonNaN :=
  fmul_of_isNaN (.inr (by rw [h, isNaN_canonNaN]))

/-- Settles O58. Each instruction's lane is its lane operation, whose value at a special operand stands
above. -/
theorem polesOfRefinedFamily : Obligations.PolesOfRefinedFamily := by
  intro vd va vb s k
  refine ⟨_, _, _, _, _, _, rfl, rfl, rfl, rfl, rfl, rfl, ?_⟩
  simp only [State.operand_writeReg_same, State.readReg_writeReg, if_true, Quad.lane_map,
    Quad.lane_map₂]
  generalize (s.operand 0 va).lane k = x, (s.operand 1 va).lane k = y
  refine ⟨?posZero, ?negZero, ?posInf, ?negInf, fun hn => ⟨rcpEst_of_isNaN hn, rsqrtEst_of_isNaN hn⟩,
    fun hp => ?pole, fdivLane_of_isPole, fun _ hnz hs => ?negative,
    fun hn => fdivLane_of_isNaN (.inl hn)⟩
  case posZero =>
    rintro rfl
    exact ⟨rcpEst_of_isZero rfl, rsqrtEst_of_isZero rfl⟩
  case negZero =>
    rintro rfl
    exact ⟨rcpEst_of_isZero rfl, rsqrtEst_of_isZero rfl⟩
  case posInf =>
    rintro rfl
    exact ⟨rcpEst_of_isInf rfl, rsqrtEst_of_isInf rfl rfl⟩
  case negInf =>
    rintro rfl
    exact ⟨rcpEst_of_isInf rfl, rsqrtEst_of_neg rfl rfl⟩
  case pole =>
    have hr := rsqrtLane_of_isPole hp
    exact ⟨rcpLane_of_isPole hp, hr, fsqrtLane_of_rsqrtLane hr⟩
  case negative =>
    have hr := rsqrtLane_of_neg hnz hs
    exact ⟨rsqrtEst_of_neg hnz hs, hr, fsqrtLane_of_rsqrtLane hr⟩

end Sys2Proof.Machine
end

section
/-! SUPPORT. The reference estimates (45_float_newton.md R243) are within the limits of R231 and R232: rounding
errs by half a place and the truncation by less than `2^11` places, of at least `2^23` in all. -/

namespace Sys2Proof.Machine

/-! ## Clearing the low 11 fraction bits -/

theorem and_truncateMask (t : Word) : t &&& 0xFFFFF800#32 = (t >>> 11) <<< 11 :=
  (BitVec.shiftLeft_ushiftRight (x := t) (n := 11)).symm

theorem toNat_and_truncateMask (t : Word) :
    (t &&& 0xFFFFF800#32).toNat = t.toNat / 2 ^ 11 * 2 ^ 11 := by
  have ht := t.isLt
  rw [and_truncateMask, BitVec.toNat_shiftLeft, BitVec.toNat_ushiftRight, Nat.shiftRight_eq_div_pow,
    Nat.shiftLeft_eq]
  omega

theorem signBit_truncateEstimate (t : Word) : signBit (truncateEstimate t) = signBit t := by
  rw [truncateEstimate]
  split
  · rfl
  · rw [signBit_eq_decide, signBit_eq_decide, toNat_and_truncateMask, decide_eq_decide]
    omega

/-- Of a normal number the pattern loses its low 11 bits. -/
theorem magPattern_truncateEstimate {t : Word} (hnormal : 2 ^ 23 ≤ magPattern t)
    (hfin : magPattern t < infMag) :
    magPattern (truncateEstimate t) = magPattern t / 2 ^ 11 * 2 ^ 11 := by
  have h0 : expo t ≠ 0 := fun h => by
    rw [expo_eq_iff, show (0 : BitVec 8).toNat = 0 from rfl] at h
    omega
  have h255 : expo t ≠ 255 := bne_iff_ne.mp (isFinite_iff.mpr hfin)
  rw [truncateEstimate, if_neg (by simpa using And.intro h0 h255), magPattern, magPattern,
    toNat_and_truncateMask]
  omega

/-! ## The error of rounding -/

/-- The rounded pattern is one of two neighbours that the value lies between, so it errs by at most half
their distance. -/
theorem two_mul_abs_sub_roundPattern_le (num : Nat) {den : Nat} (hden : 0 < den) :
    2 * |(num : ℚ) / den - patternUnits (roundPattern num den)| ≤ 2 ^ roundShift num den := by
  have hnear := isNearestPattern_roundPattern num hden
  have hnext : (patternUnits (roundFloor num den + 1) : ℚ) =
      patternUnits (roundFloor num den) + 2 ^ roundShift num den :=
    mod_cast patternUnits_roundFloor_succ num den
  have hval := div_eq_patternUnits_roundFloor_add num hden
  have hrem : (roundRem num den : ℚ) / den < 2 ^ roundShift num den := by
    rw [div_lt_iff₀' (mod_cast hden)]
    exact_mod_cast Nat.mod_lt num (show 0 < den * 2 ^ roundShift num den by positivity)
  have hnonneg : (0 : ℚ) ≤ roundRem num den / den := by positivity
  obtain ⟨hlower, -⟩ := hnear (roundFloor num den)
  obtain ⟨hupper, -⟩ := hnear (roundFloor num den + 1)
  rw [abs_of_nonneg (a := _ - (patternUnits (roundFloor num den) : ℚ)) (by linarith)] at hlower
  rw [abs_of_nonpos (a := _ - (patternUnits (roundFloor num den + 1) : ℚ)) (by linarith)] at hupper
  linarith

/-- A value of at least `2^23` units rounds to a significand of 24 bits, `2^24` where it carries, and errs
by at most half a place. -/
theorem exists_roundPattern_split {num den : Nat} (hden : 0 < den) (hnum : 2 ^ 23 * den ≤ num) :
    ∃ sh q, roundPattern num den = sh * 2 ^ 23 + q ∧ 2 ^ 23 ≤ q ∧ q ≤ 2 ^ 24 ∧
      2 * |(num : ℚ) / den - q * 2 ^ sh| ≤ 2 ^ sh := by
  obtain ⟨hlt, hn⟩ := roundQuot_bounds num den
  have hge : 2 ^ 23 ≤ roundQuot num den := hn.elim (fun hsh => by
    rwa [roundQuot, hsh, pow_zero, mul_one, Nat.le_div_iff_mul_le hden]) id
  have herr := two_mul_abs_sub_roundPattern_le num hden
  have hsplit : ∃ q, roundPattern num den = roundShift num den * 2 ^ 23 + q ∧ 2 ^ 23 ≤ q ∧
      q ≤ 2 ^ 24 :=
    ⟨roundQuot num den + if roundsUp num den then 1 else 0, Nat.add_assoc _ _ _, by omega,
      by split <;> omega⟩
  obtain ⟨q, heq, hqge, hqle⟩ := hsplit
  rw [heq, patternUnits_of_split hqle (.inr hqge)] at herr
  exact ⟨_, q, heq, hqge, hqle, by exact_mod_cast herr⟩

/-! ## The error of a reference estimate -/

/-- The reference estimate of the value `num / den` units with a sign: rounded, then truncated. -/
def refEstimate (sg : Bool) (num den : Nat) : Word :=
  truncateEstimate (withSign sg (roundMag num den))

theorem rcpRefFinite_eq (b : Word) :
    rcpRefFinite b = refEstimate (signBit b) (2 ^ 298) (magUnits b) := rfl

theorem signBit_refEstimate (sg : Bool) (num den : Nat) : signBit (refEstimate sg num den) = sg := by
  rw [refEstimate, signBit_truncateEstimate,
    signBit_withSign sg ((roundMag_le_infMag _ _).trans_lt (by decide))]

/-- A truncated significand is at most `2^-12` of the value below it and at most `2^-13` above it. -/
theorem truncated_bounds {x place : ℚ} {q : Nat} (hq : 2 ^ 23 ≤ q) (hplace : 0 < place)
    (herr : 2 * |x - q * place| ≤ place) :
    4095 * x ≤ 4096 * ((q / 2 ^ 11 * 2 ^ 11 : Nat) * place) ∧
      8192 * ((q / 2 ^ 11 * 2 ^ 11 : Nat) * place) ≤ 8193 * x := by
  obtain ⟨hlow, hhigh⟩ := abs_le.mp (show |x - q * place| ≤ place / 2 by linarith)
  have hcut : q ≤ q / 2 ^ 11 * 2 ^ 11 + 2047 := by omega
  have hle : q / 2 ^ 11 * 2 ^ 11 ≤ q := Nat.div_mul_le_self _ _
  have hge : 2 ^ 23 ≤ q / 2 ^ 11 * 2 ^ 11 := by omega
  generalize q / 2 ^ 11 * 2 ^ 11 = c at *
  have hcut' : (q : ℚ) * place ≤ (c + 2047) * place :=
    mul_le_mul_of_nonneg_right (mod_cast hcut) hplace.le
  have hle' : (c : ℚ) * place ≤ q * place := mul_le_mul_of_nonneg_right (mod_cast hle) hplace.le
  have hge' : (2 ^ 23 : ℚ) * place ≤ c * place := mul_le_mul_of_nonneg_right (mod_cast hge) hplace.le
  constructor <;> linarith

/-- What the reference estimate of a normal value is: finite, and within `2^-12` below the value and
`2^-13` above it. -/
theorem refEstimate_accurate (sg : Bool) {num den : Nat} (hden : 0 < den)
    (hnormal : 2 ^ 23 * den ≤ num) (hfin : num < 2 ^ 24 * 2 ^ 252 * den) :
    isFinite (refEstimate sg num den) = true ∧ isZero (refEstimate sg num den) = false ∧
      4095 * num ≤ 4096 * (magUnits (refEstimate sg num den) * den) ∧
      8192 * (magUnits (refEstimate sg num den) * den) ≤ 8193 * num := by
  have hd : (0 : ℚ) < den := mod_cast hden
  have hlt : roundPattern num den < infMag := by
    have hfin' : (num : ℚ) < 2 ^ 24 * 2 ^ 252 * den := mod_cast hfin
    rw [(isNearestPattern_roundPattern num hden).lt_infMag_iff]
    exact ((div_lt_iff₀ hd).mpr hfin').trans (by norm_num)
  obtain ⟨sh, q, hp, hqge, hqle, herr⟩ := exists_roundPattern_split hden hnormal
  have hmag : magPattern (refEstimate sg num den) = sh * 2 ^ 23 + q / 2 ^ 11 * 2 ^ 11 := by
    have hm : magPattern (withSign sg (roundMag num den)) = sh * 2 ^ 23 + q := by
      rw [magPattern_withSign sg ((roundMag_le_infMag _ _).trans_lt (by decide)), roundMag_eq_min,
        min_eq_left hlt.le, hp]
    rw [refEstimate, magPattern_truncateEstimate (by omega) (by omega), hm]
    omega
  have hunits : magUnits (refEstimate sg num den) = q / 2 ^ 11 * 2 ^ 11 * 2 ^ sh := by
    rw [magUnits_eq, hmag, patternUnits_of_split (by omega) (.inr (by omega))]
  obtain ⟨hlow, hhigh⟩ := truncated_bounds hqge (by positivity) herr
  rw [mul_div_assoc', div_le_iff₀ hd, mul_assoc] at hlow
  rw [mul_div_assoc', le_div_iff₀ hd, mul_assoc] at hhigh
  refine ⟨isFinite_iff.mpr (by omega), ?_, ?_, ?_⟩
  · rw [← Bool.not_eq_true, isZero_iff]
    omega
  · rw [hunits]
    exact_mod_cast hlow
  · rw [hunits]
    exact_mod_cast hhigh

/-! ## The reciprocal -/

/-- `2^298 / m` units are the reciprocal of `m` units: within the range of R231 item 4 it is a normal value,
and its estimate is accurate. -/
theorem refEstimate_reciprocal (sg : Bool) {m : Nat} (hlow : 2 ^ 23 ≤ m) (hhigh : m ≤ 2 ^ 275) :
    isFinite (refEstimate sg (2 ^ 298) m) = true ∧ isZero (refEstimate sg (2 ^ 298) m) = false ∧
      4095 * 2 ^ 298 ≤ 4096 * (magUnits (refEstimate sg (2 ^ 298) m) * m) ∧
      8192 * (magUnits (refEstimate sg (2 ^ 298) m) * m) ≤ 8193 * 2 ^ 298 := by
  have hone : 2 ^ 298 = 2 ^ 23 * 2 ^ 275 := by rw [← pow_add]
  refine refEstimate_accurate sg (by omega) ?_ ?_
  · rw [hone]
    exact Nat.mul_le_mul_left _ hhigh
  · refine lt_of_lt_of_le ?_ (Nat.mul_le_mul_left (2 ^ 24 * 2 ^ 252) hlow)
    rw [← pow_add, ← pow_add, Nat.pow_lt_pow_iff_right (by decide)]
    decide

/-- The bounds of an estimate, as an error relative to `one`. -/
theorem natAbs_sub_mul_le {p one : Nat} (hlow : 4095 * one ≤ 4096 * p)
    (hhigh : 8192 * p ≤ 8193 * one) : ((p : Int) - one).natAbs * 2 ^ 12 ≤ one := by
  omega

/-- Two words of one sign have the product of their magnitudes. -/
theorem units_mul_units {x y : Word} (h : signBit x = signBit y) :
    units x * units y = (magUnits x * magUnits y : Nat) := by
  rw [units, units, h]
  split <;> simp

/-- The reference estimate meets R231 items 4 and 5. -/
theorem rcpAdmits_rcpRefFinite (b : Word) : rcpAdmits b (rcpRefFinite b) = true := by
  have hsign : signBit (rcpRefFinite b) = signBit b := signBit_refEstimate ..
  rw [rcpAdmits, hsign, beq_self_eq_true, Bool.true_and]
  split
  next hrange =>
    simp only [rcpAccurateRange, Bool.and_eq_true, decide_eq_true_iff] at hrange
    obtain ⟨hmin, hmax⟩ := hrange
    obtain ⟨hfin, hnz, hlow, hhigh⟩ := refEstimate_reciprocal (signBit b) hmin hmax
    rw [rcpAccurate, units_mul_units hsign, rcpRefFinite_eq, hfin, hnz]
    simp only [Bool.not_false, Bool.and_self, Bool.true_and, decide_eq_true_iff]
    exact_mod_cast natAbs_sub_mul_le hlow hhigh
  next => rw [isNaN_rcpRefFinite, Bool.not_false]

/-- Every estimator that the model leaves open meets R231 items 4 and 5. -/
theorem rcpAdmits_rcpEst {b : Word} (hfin : isFinite b = true) (hnz : isZero b = false) :
    rcpAdmits b (rcpEst b) = true := by
  simp only [rcpEst, isNaN_of_isFinite hfin, hnz, isInf_of_isFinite hfin, Bool.false_eq_true, if_false]
  split
  next h => exact h
  next => exact rcpAdmits_rcpRefFinite b

/-! ## The limits as real numbers -/

theorem abs_ratValue (x : Word) : |ratValue x| = magUnits x * (2 : ℚ) ^ (-149 : ℤ) := by
  rw [ratValue_eq_signedUnits, abs_signedUnits _ (Nat.cast_nonneg _), magUnits_eq]

theorem rcpAccurateRange_iff (b : Word) : rcpAccurateRange b = true ↔
    (2 : ℚ) ^ (-126 : ℤ) ≤ |ratValue b| ∧ |ratValue b| ≤ 2 ^ 126 := by
  have hu : (0 : ℚ) < (2 : ℚ) ^ (-149 : ℤ) := by positivity
  have hlow : (2 : ℚ) ^ (-126 : ℤ) = (2 ^ 23 : Nat) * (2 : ℚ) ^ (-149 : ℤ) := by norm_num
  have hhigh : (2 : ℚ) ^ 126 = (2 ^ 275 : Nat) * (2 : ℚ) ^ (-149 : ℤ) := by
    rw [zpow_neg, eq_mul_inv_iff_mul_eq₀ (by positivity), zpow_ofNat, Nat.cast_pow, Nat.cast_ofNat,
      ← pow_add]
  rw [rcpAccurateRange, Bool.and_eq_true, decide_eq_true_iff, decide_eq_true_iff, abs_ratValue, hlow,
    hhigh, mul_le_mul_iff_left₀ hu, mul_le_mul_iff_left₀ hu, Nat.cast_le, Nat.cast_le]

/-- An error relative to one, in units of which one is `2^d`. -/
theorem abs_div_sub_one_le_iff (n : Int) (d k : Nat) :
    |(n : ℚ) / 2 ^ d - 1| ≤ (2 ^ k)⁻¹ ↔ (n - 2 ^ d).natAbs * 2 ^ k ≤ 2 ^ d := by
  have hd : (0 : ℚ) < 2 ^ d := by positivity
  have hk : (0 : ℚ) < 2 ^ k := by positivity
  rw [div_sub_one hd.ne', abs_div, abs_of_pos hd, div_le_iff₀ hd, inv_mul_eq_div, le_div_iff₀ hk,
    ← Nat.cast_le (α := ℚ), Nat.cast_mul, Nat.cast_natAbs]
  push_cast
  rfl

theorem rcpAccurate_iff (b r : Word) : rcpAccurate b r = true ↔
    |ratValue r * ratValue b - 1| ≤ (2 : ℚ) ^ (-12 : ℤ) := by
  have hprod : ratValue r * ratValue b = ((units r * units b : Int) : ℚ) / 2 ^ 298 := by
    rw [ratValue_eq_units, ratValue_eq_units, zpow_neg, zpow_ofNat, Int.cast_mul, pow_add 2 149 149]
    field_simp
  rw [hprod, rcpAccurate, decide_eq_true_iff, ← abs_div_sub_one_le_iff, zpow_neg, zpow_ofNat]

theorem rsqrtAccurate_iff (a r : Word) : rsqrtAccurate a r = true ↔
    |ratValue r * ratValue r * ratValue a - 1| ≤ (2 : ℚ) ^ (-11 : ℤ) := by
  have hprod : ratValue r * ratValue r * ratValue a =
      ((units r * units r * units a : Int) : ℚ) / 2 ^ 447 := by
    rw [ratValue_eq_units, ratValue_eq_units, zpow_neg, zpow_ofNat, Int.cast_mul, Int.cast_mul,
      pow_add 2 298 149, pow_add 2 149 149]
    field_simp
  rw [hprod, rsqrtAccurate, decide_eq_true_iff, ← abs_div_sub_one_le_iff, zpow_neg, zpow_ofNat]

/-- What an answer that R231 admits is. -/
theorem rcpAdmits_iff (b r : Word) : rcpAdmits b r = true ↔
    signBit r = signBit b ∧ isNaN r = false ∧
      ((2 : ℚ) ^ (-126 : ℤ) ≤ |ratValue b| → |ratValue b| ≤ 2 ^ 126 →
        isFinite r = true ∧ isZero r = false ∧
          |ratValue r * ratValue b - 1| ≤ (2 : ℚ) ^ (-12 : ℤ)) := by
  rw [← rcpAccurate_iff, ← and_imp, ← rcpAccurateRange_iff, rcpAdmits]
  have hn : isFinite r = true → isNaN r = false := isNaN_of_isFinite
  by_cases h : rcpAccurateRange b = true
  · simp only [h, if_true, Bool.and_eq_true, beq_iff_eq, Bool.not_eq_true', true_imp_iff]
    tauto
  · simp [h]

/-- What an answer that R232 admits is. -/
theorem rsqrtAdmits_iff (a r : Word) : rsqrtAdmits a r = true ↔
    signBit r = false ∧ isZero r = false ∧ isNaN r = false ∧
      (expo a ≠ 0 → isFinite r = true ∧
        |ratValue r * ratValue r * ratValue a - 1| ≤ (2 : ℚ) ^ (-11 : ℤ)) := by
  rw [← rsqrtAccurate_iff, rsqrtAdmits]
  by_cases h : expo a = 0#8 <;> simp [h, and_assoc]

/-- Settles O55. The special operands are the first cases of the estimator; at every other one it gives an
answer that R231 admits, since the reference estimate is one. -/
theorem reciprocalEstimatorAdmissible : Obligations.ReciprocalEstimatorAdmissible := by
  refine ⟨rcpEst_of_isZero rfl, rcpEst_of_isZero rfl, rcpEst_of_isInf rfl, rcpEst_of_isInf rfl,
    fun b => ⟨rcpEst_of_isNaN, fun hfin hlow hhigh => ?accurate, fun hfin hnz => ?sign⟩⟩
  case accurate =>
    have hnz : isZero b = false := by
      rw [← Bool.not_eq_true, ← ratValue_eq_zero_iff, ← abs_eq_zero]
      exact ((show (0 : ℚ) < 2 ^ (-126 : ℤ) by positivity).trans_le hlow).ne'
    obtain ⟨hsign, -, haccurate⟩ := (rcpAdmits_iff _ _).mp (rcpAdmits_rcpEst hfin hnz)
    obtain ⟨hrfin, hrnz, herr⟩ := haccurate hlow hhigh
    exact ⟨hrfin, hrnz, hsign, herr⟩
  case sign =>
    obtain ⟨hsign, hrnan, -⟩ := (rcpAdmits_iff _ _).mp (rcpAdmits_rcpEst hfin hnz)
    exact ⟨hsign, hrnan⟩

/-! ## The integer square root -/

/-- With every place below `2^k` still to be tried, the search ends at the square root. -/
theorem isqrtFrom_eq_sqrt {n : Nat} : ∀ {k acc : Nat}, acc * acc ≤ n →
    n < (acc + 2 ^ k) * (acc + 2 ^ k) → isqrtFrom n k acc = Nat.sqrt n
  | 0, _, hlow, hhigh => Nat.eq_sqrt.mpr ⟨hlow, hhigh⟩
  | k + 1, acc, hlow, hhigh => by
    rw [isqrtFrom]
    split
    next h => exact isqrtFrom_eq_sqrt h (by rwa [Nat.add_assoc, ← Nat.two_mul, ← pow_succ'])
    next h => exact isqrtFrom_eq_sqrt hlow (Nat.lt_of_not_ge h)

/-! ## The reciprocal square root -/

/-- The root that the reference estimate of `m` units takes: `1/sqrt m` with 64 further binary places. -/
def rsqrtRoot (m : Nat) : Nat := Nat.sqrt (2 ^ 575 / m)

theorem two_pow_575_div_lt (m : Nat) {k : Nat} (hk : 575 < k) : 2 ^ 575 / m < 2 ^ k := by
  refine (Nat.div_le_self _ _).trans_lt ?_
  rwa [Nat.pow_lt_pow_iff_right (by decide)]

/-- What the reference estimate rounds is the root, in halves of its last place, or the next half. -/
theorem rsqrtRefPositive_eq (a : Word) : ∃ sticky ≤ 1,
    rsqrtRefPositive a = refEstimate false (2 * rsqrtRoot (magUnits a) + sticky) (2 ^ 65) := by
  have hroot : isqrtFrom (2 ^ 575 / magUnits a) 300 0 = rsqrtRoot (magUnits a) := by
    refine isqrtFrom_eq_sqrt (Nat.zero_le _) ?_
    rw [Nat.zero_add, ← pow_add]
    exact two_pow_575_div_lt _ (by decide)
  rw [← hroot]
  exact ⟨_, by split <;> omega, rfl⟩

/-- The root of a finite magnitude is of normal size, with many more places than a significand. -/
theorem rsqrtRoot_bounds {m : Nat} (hpos : 0 < m) (hm : m < 2 ^ 277) :
    2 ^ 149 ≤ rsqrtRoot m ∧ rsqrtRoot m < 2 ^ 288 := by
  rw [rsqrtRoot, Nat.le_sqrt, Nat.sqrt_lt, ← pow_add, ← pow_add, Nat.le_div_iff_mul_le hpos]
  constructor
  · calc 2 ^ (149 + 149) * m ≤ 2 ^ (149 + 149) * 2 ^ 277 := Nat.mul_le_mul_left _ hm.le
      _ = 2 ^ 575 := by rw [← pow_add]
  · exact two_pow_575_div_lt _ (by decide)

/-- `r * r * m` is below `2^575`, by less than `2^-30` of itself. -/
theorem rsqrtRoot_sq_bounds {m : Nat} (hpos : 0 < m) (hm : m < 2 ^ 277) :
    rsqrtRoot m * rsqrtRoot m * m ≤ 2 ^ 575 ∧
      2 ^ 575 < rsqrtRoot m * rsqrtRoot m * m + (2 * rsqrtRoot m + 1) * m ∧
      2 ^ 30 * ((2 * rsqrtRoot m + 1) * m) ≤ rsqrtRoot m * rsqrtRoot m * m := by
  have hlow : rsqrtRoot m * rsqrtRoot m ≤ 2 ^ 575 / m := Nat.sqrt_le _
  have hhigh : 2 ^ 575 / m < (rsqrtRoot m + 1) * (rsqrtRoot m + 1) := Nat.lt_succ_sqrt _
  have hroot := (rsqrtRoot_bounds hpos hm).1
  generalize rsqrtRoot m = r at *
  rw [Nat.le_div_iff_mul_le hpos] at hlow
  rw [Nat.div_lt_iff_lt_mul hpos] at hhigh
  refine ⟨hlow, hhigh.trans_eq (by ring), ?_⟩
  rw [← mul_assoc]
  refine Nat.mul_le_mul_right m ?_
  calc 2 ^ 30 * (2 * r + 1) ≤ 2 ^ 149 * r := by omega
    _ ≤ r * r := Nat.mul_le_mul_right r hroot

/-- An estimate `u` at most `2^-12` below the root and at most `2^-13` above it: squaring doubles these errors,
and what the integer root leaves out is far below the rest. -/
theorem natAbs_sq_sub_mul_le {u r m one full sticky : Nat} (hsticky : sticky ≤ 1)
    (hlow : 4095 * (2 * r + sticky) ≤ 4096 * (u * 2 ^ 65))
    (hhigh : 8192 * (u * 2 ^ 65) ≤ 8193 * (2 * r + sticky))
    (hone : one * 2 ^ 128 = full) (hroot : r * r * m ≤ full) (hnext : full < r * r * m + (2 * r + 1) * m)
    (hgap : 2 ^ 30 * ((2 * r + 1) * m) ≤ r * r * m) :
    ((u * u * m : Nat) - (one : Int)).natAbs * 2 ^ 11 ≤ one := by
  have hlow' : 4095 * 4095 * (r * r * m) ≤ 2 ^ 24 * (2 ^ 128 * (u * u * m)) := by
    have h : 4095 * r ≤ 2 ^ 76 * u := by omega
    calc 4095 * 4095 * (r * r * m) = 4095 * r * (4095 * r) * m := by ring
      _ ≤ 2 ^ 76 * u * (2 ^ 76 * u) * m := Nat.mul_le_mul_right m (Nat.mul_le_mul h h)
      _ = 2 ^ 24 * (2 ^ 128 * (u * u * m)) := by ring
  have hhigh' : 2 ^ 28 * (2 ^ 128 * (u * u * m)) ≤
      8193 * 8193 * (4 * (r * r * m) + 2 * ((2 * r + 1) * m)) := by
    have h : 2 ^ 78 * u ≤ 8193 * (2 * r + 1) := by omega
    calc 2 ^ 28 * (2 ^ 128 * (u * u * m)) = 2 ^ 78 * u * (2 ^ 78 * u) * m := by ring
      _ ≤ 8193 * (2 * r + 1) * (8193 * (2 * r + 1)) * m :=
          Nat.mul_le_mul_right m (Nat.mul_le_mul h h)
      _ ≤ 8193 * 8193 * (4 * (r * r * m) + 2 * ((2 * r + 1) * m)) := by nlinarith
  generalize u * u * m = p, r * r * m = sq, (2 * r + 1) * m = gap at *
  omega

/-- The reference estimate meets R232 items 5 and 6. -/
theorem rsqrtAdmits_rsqrtRefPositive {a : Word} (hfin : isFinite a = true) (hnz : isZero a = false)
    (hs : signBit a = false) : rsqrtAdmits a (rsqrtRefPositive a) = true := by
  have hpos : 0 < magUnits a := Nat.pos_of_ne_zero fun h => by simp [magUnits_eq_zero_iff.mp h] at hnz
  have hm : magUnits a < 2 ^ 277 := by
    rw [magUnits_eq, show 277 = 25 + 252 from rfl, pow_add, ← patternUnits_infMag]
    exact patternUnits_strictMono (isFinite_iff.mp hfin)
  obtain ⟨hrootLow, hrootHigh⟩ := rsqrtRoot_bounds hpos hm
  obtain ⟨hroot, hnext, hgap⟩ := rsqrtRoot_sq_bounds hpos hm
  obtain ⟨sticky, hsticky, href⟩ := rsqrtRefPositive_eq a
  obtain ⟨hrfin, hrnz, hlow, hhigh⟩ := refEstimate_accurate false
    (num := 2 * rsqrtRoot (magUnits a) + sticky) (den := 2 ^ 65) (by positivity) (by omega) (by omega)
  have hrs := signBit_refEstimate false (2 * rsqrtRoot (magUnits a) + sticky) (2 ^ 65)
  rw [← href] at hrfin hrnz hlow hhigh hrs
  have haccurate : rsqrtAccurate a (rsqrtRefPositive a) = true := by
    rw [rsqrtAccurate, units_mul_units rfl, units, hs, if_neg Bool.false_ne_true, decide_eq_true_iff]
    have hone : 2 ^ 447 * 2 ^ 128 = 2 ^ 575 := by rw [← pow_add]
    exact_mod_cast natAbs_sq_sub_mul_le hsticky hlow hhigh hone hroot hnext hgap
  simp [rsqrtAdmits, isNaN_rsqrtRefPositive, hrs, hrnz, hrfin, haccurate]

/-- Every estimator that the model leaves open meets R232 items 5 and 6. -/
theorem rsqrtAdmits_rsqrtEst {a : Word} (hfin : isFinite a = true) (hnz : isZero a = false)
    (hs : signBit a = false) : rsqrtAdmits a (rsqrtEst a) = true := by
  simp only [rsqrtEst, isNaN_of_isFinite hfin, hnz, hs, isInf_of_isFinite hfin, Bool.false_eq_true,
    if_false]
  split
  next h => exact h
  next => exact rsqrtAdmits_rsqrtRefPositive hfin hnz hs

/-- Settles O56. The special operands are the first cases of the estimator; at every positive finite one it
gives an answer that R232 admits, since the reference estimate is one. -/
theorem rsqrtEstimatorAdmissible : Obligations.RsqrtEstimatorAdmissible := by
  refine ⟨rsqrtEst_of_isZero rfl, rsqrtEst_of_isZero rfl, rsqrtEst_of_isInf rfl rfl,
    fun a => ⟨rsqrtEst_of_isNaN, fun _ => rsqrtEst_of_neg, fun hfin hs he => ?normal,
      fun he hs hnz => ?subnormal⟩⟩
  case normal =>
    have hnz : isZero a = false := by
      simpa [isZero] using fun h => absurd h he
    obtain ⟨hrs, hrnz, -, haccurate⟩ := (rsqrtAdmits_iff _ _).mp (rsqrtAdmits_rsqrtEst hfin hnz hs)
    obtain ⟨hrfin, herr⟩ := haccurate he
    exact ⟨hrfin, hrnz, hrs, herr⟩
  case subnormal =>
    have hfin : isFinite a = true := by simp [isFinite, he]
    obtain ⟨hrs, hrnz, hrnan, -⟩ := (rsqrtAdmits_iff _ _).mp (rsqrtAdmits_rsqrtEst hfin hnz hs)
    exact ⟨hrs, hrnz, hrnan⟩

end Sys2Proof.Machine
end

section
/-! SUPPORT. The float predicates (46_float_compare_bits.md R250): the extended values that they compare are in
the order of the extended rationals, so each predicate is its relation there. -/

namespace Sys2Proof.Machine

/-! ## Extended values as extended rationals -/

/-- The extended rational of an extended value, whose units are 2^-149 each. -/
def ExtVal.toExtRat : ExtVal → WithBot (WithTop ℚ)
  | .negInf => ⊥
  | .fin u => (((u : ℚ) * (2 : ℚ) ^ (-149 : ℤ) : ℚ) : WithTop ℚ)
  | .posInf => ⊤

theorem ExtVal.toExtRat_extVal (x : Word) : (extVal x).toExtRat = extRat x := by
  rw [extVal, extRat]
  split
  · split <;> rfl
  · rw [ratValue_eq_units]
    rfl

theorem ExtVal.fin_toExtRat_lt_iff (u v : Int) : (fin u).toExtRat < (fin v).toExtRat ↔ u < v := by
  rw [toExtRat, toExtRat, WithBot.coe_lt_coe, WithTop.coe_lt_coe,
    mul_lt_mul_iff_left₀ (by positivity), Int.cast_lt]

theorem ExtVal.negInf_toExtRat_lt_fin (v : Int) : negInf.toExtRat < (fin v).toExtRat := WithBot.bot_lt_coe _

theorem ExtVal.fin_toExtRat_lt_posInf (u : Int) : (fin u).toExtRat < posInf.toExtRat :=
  WithBot.coe_lt_coe.mpr (WithTop.coe_lt_top _)

/-- The order of the extended values is that of their extended rationals. -/
theorem ExtVal.lt_iff : ∀ a b : ExtVal, a.lt b = true ↔ a.toExtRat < b.toExtRat
  | .fin u, .fin v => decide_eq_true_iff.trans (fin_toExtRat_lt_iff u v).symm
  | .negInf, .fin v => iff_of_true rfl (negInf_toExtRat_lt_fin v)
  | .fin u, .posInf => iff_of_true rfl (fin_toExtRat_lt_posInf u)
  | .negInf, .posInf =>
    iff_of_true rfl ((negInf_toExtRat_lt_fin 0).trans (fin_toExtRat_lt_posInf 0))
  | .negInf, .negInf => iff_of_false Bool.false_ne_true not_lt_bot
  | .fin _, .negInf => iff_of_false Bool.false_ne_true not_lt_bot
  | .posInf, _ => iff_of_false Bool.false_ne_true not_top_lt

theorem ExtVal.lt_trichotomy : ∀ a b : ExtVal, a.lt b = true ∨ a = b ∨ b.lt a = true
  | .fin u, .fin v =>
    (Int.lt_trichotomy u v).imp decide_eq_true (Or.imp (congrArg fin) decide_eq_true)
  | .negInf, .fin _ | .negInf, .posInf | .fin _, .posInf => .inl rfl
  | .negInf, .negInf | .posInf, .posInf => .inr (.inl rfl)
  | .fin _, .negInf | .posInf, .negInf | .posInf, .fin _ => .inr (.inr rfl)

/-- Of two different extended values one is the smaller, so they stand for different numbers. -/
theorem ExtVal.toExtRat_injective : Function.Injective ExtVal.toExtRat := by
  intro a b h
  obtain hlt | heq | hgt := lt_trichotomy a b
  · exact absurd h ((lt_iff a b).mp hlt).ne
  · exact heq
  · exact absurd h ((lt_iff b a).mp hgt).ne'

theorem extVal_lt_iff (x y : Word) : (extVal x).lt (extVal y) = true ↔ extRat x < extRat y := by
  rw [ExtVal.lt_iff, ExtVal.toExtRat_extVal, ExtVal.toExtRat_extVal]

theorem extVal_eq_iff (x y : Word) : extVal x = extVal y ↔ extRat x = extRat y := by
  rw [← ExtVal.toExtRat_extVal, ← ExtVal.toExtRat_extVal, ExtVal.toExtRat_injective.eq_iff]

/-! ## The predicates -/

theorem fne_eq_not_feq (x y : Word) : fne x y = !feq x y := by
  rw [fne, feq, Bool.not_and, Bool.not_not]
  rfl

theorem fle_eq_flt_or_feq (x y : Word) : fle x y = (flt x y || feq x y) :=
  Bool.and_or_distrib_left _ _ _

theorem fge_eq_fgt_or_feq (x y : Word) : fge x y = (fgt x y || feq x y) :=
  Bool.and_or_distrib_left _ _ _

section
variable {x y : Word}

theorem unordered_iff : unordered x y = true ↔ isNaN x = true ∨ isNaN y = true := Bool.or_eq_true_iff

theorem unordered_eq_false_iff : unordered x y = false ↔ isNaN x = false ∧ isNaN y = false :=
  Bool.or_eq_false_iff

/-! ### A NaN operand -/

theorem flt_of_unordered (h : unordered x y = true) : flt x y = false := by
  rw [flt, h, Bool.not_true, Bool.false_and]

theorem fgt_of_unordered (h : unordered x y = true) : fgt x y = false := by
  rw [fgt, h, Bool.not_true, Bool.false_and]

theorem feq_of_unordered (h : unordered x y = true) : feq x y = false := by
  rw [feq, h, Bool.not_true, Bool.false_and]

/-! ### No NaN operand -/

theorem flt_iff (h : unordered x y = false) : flt x y = true ↔ extRat x < extRat y := by
  rw [flt, h, Bool.not_false, Bool.true_and, extVal_lt_iff]

theorem fgt_iff (h : unordered x y = false) : fgt x y = true ↔ extRat x > extRat y := by
  rw [fgt, h, Bool.not_false, Bool.true_and, extVal_lt_iff, gt_iff_lt]

theorem feq_iff (h : unordered x y = false) : feq x y = true ↔ extRat x = extRat y := by
  rw [feq, h, Bool.not_false, Bool.true_and, beq_iff_eq, extVal_eq_iff]

theorem fne_iff (h : unordered x y = false) : fne x y = true ↔ extRat x ≠ extRat y := by
  rw [fne_eq_not_feq, Bool.not_eq_true', ← Bool.not_eq_true, feq_iff h]

theorem fle_iff (h : unordered x y = false) : fle x y = true ↔ extRat x ≤ extRat y := by
  rw [fle_eq_flt_or_feq, Bool.or_eq_true, flt_iff h, feq_iff h, le_iff_lt_or_eq]

theorem fge_iff (h : unordered x y = false) : fge x y = true ↔ extRat x ≥ extRat y := by
  rw [fge_eq_fgt_or_feq, Bool.or_eq_true, fgt_iff h, feq_iff h, ge_iff_le, le_iff_lt_or_eq,
    eq_comm, gt_iff_lt]

end

/-! ## The rows -/

/-- Settles O59. The predicates are their relations on the extended rationals, with the NaN cases split off,
and each row is one register write of its predicate's mask lanes. (`floatCompareRows` alone is the
assembler's table.) -/
theorem floatCompareRows_hold : Obligations.FloatCompareRows := by
  refine ⟨fun x y => ⟨fun hnan => ?nan, fun hx hy => ?ordered, fne_eq_not_feq x y,
    fle_eq_flt_or_feq x y, fge_eq_fgt_or_feq x y⟩, ?fclt, ?fcgt, ?fceq, ?fcne, ?fcle, ?fcge⟩
  case nan =>
    have h := unordered_iff.mpr hnan
    rw [fne_eq_not_feq, fle_eq_flt_or_feq, fge_eq_fgt_or_feq, flt_of_unordered h,
      fgt_of_unordered h, feq_of_unordered h]
    decide
  case ordered =>
    have h := unordered_eq_false_iff.mpr ⟨hx, hy⟩
    exact ⟨flt_iff h, fgt_iff h, feq_iff h, fne_iff h, fle_iff h, fge_iff h⟩
  case fclt | fcgt | fceq | fcne | fcle | fcge =>
    exact comparisonRow_r3 (by decide) rfl (fun _ _ _ _ => rfl) fun _ _ => Iff.rfl

end Sys2Proof.Machine
end

section
/-! SUPPORT. The read-modify-write rows of 47_float_memory_rmw.md (R270 to R272): MINC, MDEC and MSCALE are one
shared operation, so one lemma about it serves the three. -/

namespace Sys2Proof.Machine

/-! ## The encodings of the rows (30_encoding.md R86) -/

theorem encodesRow_minc (a : Reg) : encodesRow 0x15 a 0 0 0 0 fun x => .minc a (x.lane 0) :=
  encodesRow_r1 (by decide) rfl fun _ => rfl

theorem encodesRow_mdec (a : Reg) : encodesRow 0x16 a 0 0 0 0 fun x => .mdec a (x.lane 0) :=
  encodesRow_r1 (by decide) rfl fun _ => rfl

theorem encodesRow_mscale (a : Reg) : encodesRow 0x17 a 0 0 0 0 fun x => .mscale a (x.lane 0) :=
  encodesRow_r1 (by decide) rfl fun _ => rfl

/-! ## The shared operation -/

section MemoryUpdate

variable {f : Word → Word → Word} {va : Reg} {addr : Word} {s : State}

theorem rmwVec_of_aligned (hal : addr.toNat % 16 = 0) : rmwVec f va addr s =
    .next (s.withMem (s.mem.writeVec addr (s.rmwResult f va addr))) :=
  whenAligned_of_aligned (by simpa using hal) _ _

/-- What is written back to lane `k`: memory is the first operand, the register the second. -/
theorem lane_rmwResult {k : Fin 4} {x : Word} (hx : s.mem.holds (elementAddr addr k) x) :
    (s.rmwResult f va addr).lane k = f x ((s.operand 0 va).lane k) := by
  rw [State.rmwResult, Quad.lane_map₂, lane_readVec, Memory.holds_iff.mp hx]

/-- A row that is the shared operation updates the 16 bytes at its address, lane by lane. -/
theorem exec_rmwVec_lanes {i : Instr} (hx : exec i s = rmwVec f va addr s)
    (hal : addr.toNat % 16 = 0) {m : Vec} (hm : ∀ k : Fin 4, s.mem.holds (elementAddr addr k) (m.lane k)) :
    ∃ t, exec i s = .next t ∧ s.storesOnly t (within addr 16) ∧
      ∀ k : Fin 4, t.mem.holds (elementAddr addr k) (f (m.lane k) ((s.operand 0 va).lane k)) := by
  refine ⟨_, hx.trans (rmwVec_of_aligned hal), storesOnly_writeVec s addr _, fun k => ?_⟩
  rw [State.withMem_mem, ← lane_rmwResult (f := f) (va := va) (hm k)]
  exact Memory.holds_writeVec s.mem addr _ k

end MemoryUpdate

/-- Settles O60. Each row is the shared read-modify-write with its own lane operation. -/
theorem memoryUpdateRows : Obligations.MemoryUpdateRows := fun va addr _ =>
  ⟨encodesRow_minc va, encodesRow_mdec va, encodesRow_mscale va,
    checksAlignment_pointers (.minc va addr), checksAlignment_pointers (.mdec va addr),
    checksAlignment_pointers (.mscale va addr), fun hal _ hm =>
      ⟨exec_rmwVec_lanes rfl hal hm, exec_rmwVec_lanes rfl hal hm, exec_rmwVec_lanes rfl hal hm⟩⟩

end Sys2Proof.Machine
end

section
/-! SUPPORT. The encoding read backwards (30_encoding.md R80 to R90): a command word that decodes is put together
again from the fields its instruction keeps, and an operand word beyond the row's count reaches no
instruction. -/

namespace Sys2Proof.Machine

/-- Settles O1. -/
theorem decodeEncodeAgree : Obligations.DecodeEncodeAgree := fun _ h => decode_encode h

/-! ## The word of a decoded instruction -/

/-- The fields that a format has (R82); the others are 0, and a 2-bit immediate is its lane index. -/
def keepFields (fmt : Format) (f : Fields) : Fields :=
  match fmt with
  | .z => ⟨0, 0, 0, 0, 0, f.x⟩
  | .r1 => ⟨f.a, 0, 0, 0, 0, f.x⟩
  | .r2 => ⟨f.a, f.b, 0, 0, 0, f.x⟩
  | .r3 => ⟨f.a, f.b, f.c, 0, 0, f.x⟩
  | .r4 => ⟨f.a, f.b, f.c, f.d, 0, f.x⟩
  | .r1i => ⟨f.a, 0, 0, 0, BitVec.ofNat 8 f.laneIndex, f.x⟩
  | .r2i2 => ⟨f.a, f.b, 0, 0, BitVec.ofNat 8 f.laneIndex, f.x⟩
  | .r2i8 => ⟨f.a, f.b, 0, 0, f.i, f.x⟩

/-- Each row of the opcode map makes an instruction of its own opcode, whose command word has the fields that
the row's format keeps (R86). -/
theorem encode_row {op : Nat} {fmt : Format} {make : Fields → Instr}
    (h : opcodeRow op = some (fmt, make)) (f : Fields) :
    (encode (make f)).w = assembleWord op (keepFields fmt f) := by
  unfold opcodeRow at h
  split at h <;> cases h <;> rfl

/-- A command word without a reserved bit is put together from its opcode and the fields that the format
keeps (R82, R83). -/
theorem assembleWord_keepFields {fmt : Format} {b : Beat} (hz : reservedBitsZero fmt b.w = true) :
    assembleWord (opcodeOf b.w) (keepFields fmt (fieldsOf b)) = b.w := by
  have hw := b.w.isLt
  apply BitVec.eq_of_toNat_eq
  rw [assembleWord_toNat (opcodeOf_lt b.w)]
  cases fmt
  all_goals
    simp only [reservedBitsZero, beq_iff_eq] at hz
    simp only [keepFields, fieldsOf, Fields.laneIndex, opcodeOf, Fin.ofNat, Fin.val_zero,
      BitVec.ofNat_eq_ofNat, BitVec.toNat_ofNat]
    omega

/-- Settles O2. The row of the word's opcode makes the instruction, so the instruction's word is the opcode
with the fields of the row's format, which is the word itself. -/
theorem encodeDecodeAgree : Obligations.EncodeDecodeAgree := by
  intro b i h
  obtain ⟨fmt, make, hr, hz, rfl, hw⟩ := (decode_ok_iff b i).mp h
  exact ⟨hw, (encode_row hr _).trans (assembleWord_keepFields hz)⟩

/-! ## Operand words -/

/-- The first `n` operand words, the others 0. -/
def keepWords (n : Nat) (x : Quad Word) : Quad Word := .ofFn fun j => if j.val < n then x.lane j else 0

theorem keepWords_congr {n : Nat} {x y : Quad Word} (h : ∀ j : Fin 4, j.val < n → x.lane j = y.lane j) :
    keepWords n x = keepWords n y :=
  congrArg Quad.ofFn (funext fun j => ite_congr rfl (h j) fun _ => rfl)

/-- Each row of the opcode map makes its instruction of the operand words that R85 counts for it. -/
theorem row_keepWords {op : Nat} {fmt : Format} {make : Fields → Instr}
    (h : opcodeRow op = some (fmt, make)) (f : Fields) :
    make { f with x := keepWords (operandWordsUsed op) f.x } = make f := by
  unfold opcodeRow at h
  split at h <;> cases h <;> rfl

/-- Beats with one command word decode alike if the word's row makes one instruction of both. -/
theorem decode_congr {w : Word} {x y : Quad Word}
    (h : ∀ fmt make, opcodeRow (opcodeOf w) = some (fmt, make) →
      make (fieldsOf ⟨w, x⟩) = make (fieldsOf ⟨w, y⟩)) : decode ⟨w, x⟩ = decode ⟨w, y⟩ := by
  unfold decode
  cases hr : opcodeRow (opcodeOf w) with
  | none => rfl
  | some row => simp only [h row.1 row.2 hr]

/-- Settles O3. Both beats make the instruction of the operand words that the row uses. -/
theorem unusedOperandWordsIgnored : Obligations.UnusedOperandWordsIgnored := fun w x y h =>
  decode_congr fun fmt make hr =>
    calc make (fieldsOf ⟨w, x⟩)
      _ = make { fieldsOf ⟨w, x⟩ with x := keepWords (operandWordsUsed (opcodeOf w)) x } :=
        (row_keepWords hr (fieldsOf ⟨w, x⟩)).symm
      _ = make { fieldsOf ⟨w, y⟩ with x := keepWords (operandWordsUsed (opcodeOf w)) y } := by
        rw [keepWords_congr h]
        rfl
      _ = make (fieldsOf ⟨w, y⟩) := row_keepWords hr (fieldsOf ⟨w, y⟩)

/-- Settles O8. Each beat is the encoding of the instruction that R90 gives it for. -/
theorem writtenOutBeatsDecode : Obligations.WrittenOutBeatsDecode :=
  ⟨decode_encode (i := .iadd 2 0 1) rfl, decode_encode (i := .vshuf 1 0 0x1B) rfl,
    decode_encode (i := .vset 0 ⟨1, 2, 3, 4⟩) rfl,
    decode_encode (i := .ld4x4tr 0 1 2 3 ⟨0x100, 0x110, 0x120, 0x130⟩) rfl⟩

/-! ## Words that are no instruction (60_exceptions.md R281) -/

/-- A word is refused for its opcode, for a reserved bit or for its registers, and for nothing else. -/
theorem legalWord_eq_false_iff (b : Beat) : legalWord b.w = false ↔
    unassignedOpcode (opcodeOf b.w) = true ∨
      ∃ fmt make, opcodeRow (opcodeOf b.w) = some (fmt, make) ∧
        (b.w &&& reservedMask fmt ≠ 0 ∨ (make (fieldsOf b)).wellFormed = false) := by
  rw [← Bool.not_eq_true, legalWord_iff, ← opcodeRow_eq_none_iff (opcodeOf_lt b.w)]
  simp only [decode_ok_iff]
  cases hr : opcodeRow (opcodeOf b.w) with
  | none => simp
  | some row =>
    obtain ⟨fmt, make⟩ := row
    simp only [Option.some.injEq, Prod.mk.injEq, reduceCtorEq, false_or]
    constructor
    · intro h
      refine ⟨fmt, make, ⟨rfl, rfl⟩, ?_⟩
      by_contra hc
      rw [not_or, not_not, Bool.not_eq_false] at hc
      exact h ⟨_, fmt, make, ⟨rfl, rfl⟩, (reservedBitsZero_iff fmt b.w).mpr hc.1, rfl, hc.2⟩
    · rintro ⟨_, _, ⟨rfl, rfl⟩, hbad⟩ ⟨_, _, _, ⟨rfl, rfl⟩, hz, rfl, hw⟩
      rcases hbad with hbit | hregs
      · exact hbit ((reservedBitsZero_iff fmt b.w).mp hz)
      · rw [hw] at hregs
        cases hregs

/-- Settles O7. A word that is no instruction does not decode, with whatever operand words it comes. -/
theorem illegalRecordsCommandWord : Obligations.IllegalRecordsCommandWord := by
  refine ⟨fun b s hl hf => ?_, legalWord_iff, legalWord_eq_false_iff⟩
  cases hd : decode b with
  | error e => exact runBeat_of_decode_error hf hd
  | ok i =>
    rw [(legalWord_iff b).mpr ⟨i, hd⟩] at hl
    cases hl

end Sys2Proof.Machine
end

section
/-! SUPPORT. Faults and reset (60_exceptions.md R280 to R292, 70_reset_and_hazards.md R310, R311): an
instruction faults exactly where `State.faultOf` says, an accepted beat ends in the faulted state only by
fault entry, and only the reset input leads out of it. -/

namespace Sys2Proof.Machine

/-! ## When an instruction faults -/

/-- A zero lane in the divisor is a DIVZERO fault when every pointer is aligned (R283, R286). -/
theorem State.faultOf_of_zero {s : State} {i : Instr} {vb : Reg}
    (hp : firstMisaligned i.alignment i.pointers = none) (hd : i.divisor = some vb)
    (hz : ∃ k, (s.operand 1 vb).lane k = 0) :
    s.faultOf i = some (.divzero, zeroLaneMap (s.operand 1 vb)) := by
  have hmap : zeroLaneMap (s.operand 1 vb) ≠ 0 := fun h =>
    let ⟨k, hk⟩ := hz
    zeroLaneMap_eq_zero.mp h k hk
  simp only [State.faultOf, hp, hd]
  exact if_pos (bne_iff_ne.mpr hmap)

/-- With aligned pointers and no zero lane in the divisor there is no fault (R286). -/
theorem State.faultOf_eq_none {s : State} {i : Instr}
    (hp : firstMisaligned i.alignment i.pointers = none)
    (hd : ∀ vb, i.divisor = some vb → ∀ k, (s.operand 1 vb).lane k ≠ 0) : s.faultOf i = none := by
  rw [Option.eq_none_iff_forall_ne_some]
  rintro ⟨c, info⟩ hf
  rcases State.faultOf_cases hf with ⟨-, hp'⟩ | ⟨-, vb, hvb, rfl, hz⟩
  · rw [hp] at hp'
    cases hp'
  · exact hz (zeroLaneMap_eq_zero.mpr (hd vb hvb))

/-- No divide has a pointer (R286). -/
theorem pointers_of_divisor {i : Instr} (h : i.divisor ≠ none) : i.pointers = [] := by
  cases i
  case idiv | imod => rfl
  all_goals exact absurd rfl h

/-- An instruction that faults enters that fault and does nothing else (R284). -/
theorem exec_of_fault {i : Instr} {s : State} {c : FaultCause} {info : Word}
    (h : s.faultOf i = some (c, info)) : exec i s = .next (s.raiseFault c info) := by
  rw [exec_eq, State.outcome_of_fault h]
  rfl

/-- An instruction that does not fault completes, with `FSR` and `FINFO` as they were. -/
theorem exec_of_no_fault {i : Instr} {s : State} (h : s.faultOf i = none) :
    ∃ t, exec i s = .next t ∧ t.fsr = s.fsr ∧ t.finfo = s.finfo := by
  refine ⟨_, exec_eq i s, ?_⟩
  rw [State.outcome_of_no_fault h]
  rcases Effect.apply_fault_registers (effectOf s.operand s.mem i) s with ⟨c, info, he⟩ | hkeep
  · exact absurd he (effectOf_ne_fault _ _ i c info)
  · exact hkeep

/-- Settles O13. The decoder comes first, then the pointers, then the divisor. -/
theorem faultsExactlyInPriorityOrder : Obligations.FaultsExactlyInPriorityOrder := by
  refine fun b s hf => ⟨fun e hd => runBeat_of_decode_error hf hd, fun i hd => ?_⟩
  rw [runBeat_of_decode hf hd]
  exact ⟨checksAlignment_pointers i s,
    fun hp =>
      ⟨fun vb hvb hz => ⟨_, exec_of_fault (State.faultOf_of_zero hp hvb hz)⟩,
        fun hn => exec_of_no_fault (State.faultOf_eq_none hp hn)⟩,
    pointers_of_divisor⟩

/-- Settles O14. Each row checks the pointers and the alignment that it has; LD4X1TR and ST4X1TR have
neither an alignment nor a divisor. -/
theorem misalignedPointerFaults : Obligations.MisalignedPointerFaults := by
  refine ⟨fun r r' r'' r''' a a' x => ?_, fun r x s => ⟨?_, ?_⟩⟩
  · exact ⟨checksAlignment_pointers (.vld r a), checksAlignment_pointers (.vst r a),
      checksAlignment_pointers (.vsts r a), checksAlignment_pointers (.mcopy a a'),
      checksAlignment_pointers (.mswap a a'), checksAlignment_pointers (.minc r a),
      checksAlignment_pointers (.mdec r a), checksAlignment_pointers (.mscale r a),
      checksAlignment_pointers (.ld4x2tr r r' x), checksAlignment_pointers (.st4x2tr r r' x),
      checksAlignment_pointers (.ld4x3tr r r' r'' x), checksAlignment_pointers (.st4x3tr r r' r'' x),
      checksAlignment_pointers (.ld4x4tr r r' r'' r''' x),
      checksAlignment_pointers (.st4x4tr r r' r'' r''' x)⟩
  · exact exec_of_no_fault (State.faultOf_eq_none (firstMisaligned_one _) nofun)
  · exact exec_of_no_fault (State.faultOf_eq_none (firstMisaligned_one _) nofun)

/-! ## Steps -/

theorem runBeat_next (b : Beat) (s : State) : ∃ t, runBeat b s = .next t := by
  rcases runBeat_cases b s with ⟨-, e⟩ | ⟨-, -, e⟩ | ⟨i, -, -, e⟩
  · exact ⟨_, e⟩
  · exact ⟨_, e⟩
  · exact ⟨_, e.trans (exec_eq i s)⟩

/-- Settles O10. A step idles, resets or runs a beat, and `exec` applies an effect. -/
theorem everyStepHasNextState : Obligations.EveryStepHasNextState := by
  refine ⟨fun s => ?_, fun i s => ⟨_, exec_eq i s⟩⟩
  rcases hi : s.inputs with _ | ⟨b | _, rest⟩
  · exact ⟨_, step_idle hi⟩
  · rw [step_beat hi]
    exact runBeat_next b _
  · exact ⟨_, step_reset hi⟩

theorem State.faulted_congr {s t : State} (h : t.fsr = s.fsr) : t.faulted = s.faulted := by
  rw [State.faulted, h, State.faulted]

/-- A beat that leads into the faulted state enters a fault and makes no access (R284). -/
theorem fault_of_step_beat {s t : State} {b : Beat} {rest : List HostInput}
    (hi : s.inputs = .beat b :: rest) (hf : s.faulted = false) (hs : step s = .next t)
    (ht : t.faulted = true) :
    (∃ c info, t = (s.takeInput rest).raiseFault c info) ∧ s.stepTransfers = [] := by
  have hf' : (s.takeInput rest).faulted = false := hf
  rw [step_beat hi] at hs
  cases hd : decode b with
  | error e =>
    rw [runBeat_of_decode_error hf' hd] at hs
    cases hs
    exact ⟨⟨_, _, rfl⟩, by simp [State.stepTransfers, hi, hd]⟩
  | ok i =>
    rw [runBeat_of_decode hf' hd] at hs
    cases hfault : (s.takeInput rest).faultOf i with
    | some cause =>
      rw [exec_of_fault hfault] at hs
      cases hs
      exact ⟨⟨_, _, rfl⟩, by simp [State.stepTransfers, hi, hd, hfault]⟩
    | none =>
      obtain ⟨u, hu, hfsr, -⟩ := exec_of_no_fault hfault
      rw [hu] at hs
      cases hs
      rw [State.faulted_congr hfsr, hf'] at ht
      cases ht

/-- Settles O11. -/
theorem faultEntryIsWholeChange : Obligations.FaultEntryIsWholeChange := by
  refine ⟨fun s c info => ⟨?_, rfl, rfl⟩, fun _ _ _ _ => fault_of_step_beat⟩
  cases c <;> rfl

/-! ## The faulted state (R285) -/

/-- In the faulted state a step takes its beat and does nothing else. -/
theorem step_beat_of_faulted {s : State} {b : Beat} {rest : List HostInput}
    (hi : s.inputs = .beat b :: rest) (hf : s.faulted = true) : step s = .next (s.takeInput rest) :=
  (step_beat hi).trans (runBeat_of_faulted (s := s.takeInput rest) hf b)

/-- A run of one more step begins with that step. -/
theorem run_succ {M : Host.Core} {s t : M.State} (h : M.step s = .next t) (k : Nat) :
    M.run (k + 1) s = M.run k t := by
  rw [Host.Core.run, h]

/-- In the faulted state every list of beats is discarded. -/
theorem run_beats_of_faulted (bs : List Beat) {s : State} (hf : s.faulted = true)
    (hi : s.inputs = bs.map .beat) : Host.Core.run core bs.length s =
      .next { s with inputs := [], taken := s.taken + bs.length } := by
  induction bs generalizing s with
  | nil =>
    have hnil : s.inputs = [] := hi
    rw [← hnil]
    rfl
  | cons b bs ih =>
    refine (run_succ (M := core) (step_beat_of_faulted hi hf) bs.length).trans ?_
    refine (ih (s := s.takeInput (bs.map .beat)) hf rfl).trans ?_
    rw [State.takeInput_taken, List.length_cons, Nat.add_assoc, Nat.add_comm 1]
    rfl

theorem stepTransfers_of_faulted {s : State} (hf : s.faulted = true) : s.stepTransfers = [] := by
  unfold State.stepTransfers
  split
  · rfl
  · rfl
  · exact if_pos hf

/-- Settles O12. A discarded beat leaves `FSR` as it is, and so does an idle step. -/
theorem faultedStateDiscardsBeats : Obligations.FaultedStateDiscardsBeats := by
  refine ⟨fun bs s => run_beats_of_faulted bs, fun s => stepTransfers_of_faulted,
    fun s t hf hs ht => ?_⟩
  have stays : ∀ u : State, u.fsr = s.fsr → step s ≠ .next u := by
    rintro u hu hsu
    obtain rfl : u = t := by simpa using hsu.symm.trans hs
    rw [State.faulted_congr hu, hf] at ht
    cases ht
  rcases hi : s.inputs with _ | ⟨b | _, rest⟩
  · exact absurd (step_idle hi) (stays s rfl)
  · exact absurd (step_beat_of_faulted hi hf) (stays _ rfl)
  · exact ⟨rest, rfl⟩

/-! ## The reset input (70_reset_and_hazards.md R310) -/

theorem faulted_resetInput (s : State) : s.resetInput.faulted = false :=
  State.faulted_congr (s := State.reset) rfl

/-- Settles O15. The state after the reset input is not faulted, so the next beat is executed. -/
theorem resetInputEffect : Obligations.ResetInputEffect := by
  intro s rest hi
  refine ⟨by simp [State.stepTransfers, hi], _, step_reset hi, rfl, rfl, State.marks_resetInput _,
    rfl, rfl, rfl, rfl, fun b i more hrest hd => ?_⟩
  exact (step_beat hrest).trans (runBeat_of_decode (faulted_resetInput (s.takeInput rest)) hd)

/-! ## The marks of loaded lanes (R311) -/

/-- A register that was gathered is marked in the lanes whose words have been written. -/
theorem marksField_of_gather {s t : State} {ptrs : Quad Word} {r : Reg} {k : Nat}
    (h : t.regs.get r = s.gather ptrs k) : marksField s t ptrs r k := fun p => by
  rw [State.marks, h, State.gather, Quad.lane_map]
  exact Memory.wordWritten_iff

/-- A row that gathers into different registers marks each by its element. -/
theorem gather_marks_fields {i : Instr} {s : State} {ptrs : Quad Word} {rs : List Reg}
    (hn : rs.Nodup) (hx : exec i s = .next (s.putRegs (s.gatherWrites ptrs rs))) :
    ∃ t, exec i s = .next t ∧ ∀ k : Fin rs.length, marksField s t ptrs rs[k] k :=
  ⟨_, hx, fun k => marksField_of_gather (regs_get_gatherWrites hn s ptrs k)⟩

/-- VLD marks the lanes whose words have been written. -/
theorem exec_vld_marks {addr : Word} (hal : addr.toNat % 16 = 0) (vd : Reg) (s : State) :
    ∃ t, exec (.vld vd addr) s = .next t ∧
      ∀ k : Fin 4, (t.marks vd).lane k = true ↔ s.mem.defined (elementAddr addr k) := by
  refine ⟨_, whenAligned_of_aligned (by simpa using hal) _ _, fun k => ?_⟩
  rw [State.marks_putReg_same, Memory.vecMarks, Quad.lane_ofFn]
  exact Memory.wordWritten_iff

/-- Settles O33. VLD marks by the words of one block, and each other row by the elements it gathers. -/
theorem loadedLaneMarks : Obligations.LoadedLaneMarks := by
  intro va vb vc vd addr ptrs s
  refine ⟨fun hal => exec_vld_marks hal va s, ?_, fun hn hal => ?_, fun hn hal => ?_,
    fun hn hal => ?_⟩
  · obtain ⟨t, hx, hm⟩ := gather_marks_fields (List.nodup_singleton va) (exec_ld4x1tr va s ptrs)
    exact ⟨t, hx, hm 0⟩
  · obtain ⟨t, hx, hm⟩ := gather_marks_fields hn (exec_ld4x2tr va vb s hal)
    exact ⟨t, hx, hm 0, hm 1⟩
  · obtain ⟨t, hx, hm⟩ := gather_marks_fields hn (exec_ld4x3tr va vb vc s hal)
    exact ⟨t, hx, hm 0, hm 1, hm 2⟩
  · obtain ⟨t, hx, hm⟩ := gather_marks_fields hn (exec_ld4x4tr va vb vc vd s hal)
    exact ⟨t, hx, hm 0, hm 1, hm 2, hm 3⟩

end Sys2Proof.Machine
end
